-- ==== Sys2Proof/Word.lean ====
section
/-! DEFINITION. The word types of the Huffman CORE (spec/00_scope.md R8 to R10, R15; spec/20_memory.md R60). -/

namespace Sys2Proof

/-- A register or bus word: 32 bits (R15). -/
abbrev Word := BitVec 32

/-- A symbol or a cell of MSG, BITS or DEC: 8 bits (R8, R63). -/
abbrev Byte := BitVec 8

/-- A word address on the bus: 19 bits (R60). -/
abbrev Addr := BitVec 19

/-- A node index: 9 bits (R10). -/
abbrev NodeIdx := BitVec 9

end Sys2Proof
end

