-- ==== Sys2Proof/Syntax.lean ====
section
/-! DEFINITION. The commands of the Huffman CORE: one constructor per row of spec/opcode_table.json
(spec/30_encoding.md R100 to R103). -/

namespace Sys2Proof

/-- A decoded command word. A command has no operand field (R102). Only the row ILLEGAL carries data: the whole
written word, which its error record reports (R222). -/
inductive Instr where
  | nop
  | build
  | gencode
  | encode
  | decode
  | clear
  | illegal (w : Word)
  deriving DecidableEq, Repr

end Sys2Proof
end

