-- ==== Sys2Proof/Decode.lean ====
section
/-! DEFINITION. The decoder of a command word and, after it, the encoder (spec/30_encoding.md R100 to R105). -/

namespace Sys2Proof

/-- The field OPCODE [3:0] of a command word (R100). -/
def opcodeField (w : Word) : BitVec 4 := w.extractLsb' 0 4

/-- The field RSVD [31:4] of a command word (R100). -/
def rsvdField (w : Word) : BitVec 28 := w.extractLsb' 4 28

/-- Opcodes 0x6 to 0xF are reserved (R104). -/
def reservedOpcode (w : Word) : Bool := 6 ≤ (opcodeField w).toNat

/-- Some bit of RSVD is set (R104). -/
def rsvdNonzero (w : Word) : Bool := rsvdField w != 0#28

/-- The word is illegal: a reserved opcode, or a bit of RSVD set (R104). -/
def illegalWord (w : Word) : Bool := rsvdNonzero w || reservedOpcode w

/-- Why a row of bits is no command word. -/
inductive DecodeError where
  /-- The bits do not fit in the 32 bits of CMD (R105). -/
  | longerThanCmd
  deriving DecidableEq, Repr

/-- `Decode` of R100. RSVD is checked before OPCODE. Every 32-bit word is accepted; a reserved one decodes to
ILLEGAL, by name. -/
def decode (w : Word) : Instr :=
  if rsvdNonzero w then .illegal w
  else
    match (opcodeField w).toNat with
    | 0 => .nop
    | 1 => .build
    | 2 => .gencode
    | 3 => .encode
    | 4 => .decode
    | 5 => .clear
    | _ => .illegal w

/-- Decoding of a number of any size: a command word has exactly 32 bits (R105). -/
def decodeNat (w : Nat) : Except DecodeError Instr :=
  if w < 2 ^ 32 then .ok (decode (BitVec.ofNat 32 w)) else .error .longerThanCmd

/-- The command word of an instruction (the column `match` of the opcode table, R103). -/
def encode : Instr → Word
  | .nop => 0x00000000#32
  | .build => 0x00000001#32
  | .gencode => 0x00000002#32
  | .encode => 0x00000003#32
  | .decode => 0x00000004#32
  | .clear => 0x00000005#32
  | .illegal w => w

/-- The instruction the decoder reads from the low `nbits` bits of `w`, numbered as the opcode table numbers them;
bits above are 0. A command word is one bus word, so no byte order enters (R63). -/
def decodeTableWord (nbits w : Nat) : Option Instr :=
  match decodeNat (w % 2 ^ nbits) with
  | .ok i => some i
  | .error _ => none

end Sys2Proof
end

