-- ==== Sys2Proof/Config.lean ====
section
/-! DEFINITION. What is fixed for the hardware (spec/00_scope.md R8 to R14) and the values the spec leaves free.
A free value is an `opaque` constant without a body: nothing proved of the model depends on what it is. -/

namespace Sys2Proof.Config

/-- ID reads this constant (R2, R23). -/
def idValue : Word := 0x48554646#32

/-- VERSION reads this constant (R2, R24). -/
def versionValue : Word := 0x00000001#32

/-- The number of symbols (R8). -/
def nsym : Nat := 256

/-- The number of node slots (R10). -/
def nodeMax : Nat := 511

/-- The index that denotes no node (R10). -/
def nil : NodeIdx := 0x1FF#9

/-- The longest code, in bits (R11). -/
def maxCodeLen : Nat := 255

/-- The largest 32-bit frequency (R9). -/
def freqMax : Nat := 0xFFFFFFFF

/-- The largest legal MSG_DEPTH and its default (R12). -/
def msgDepthMax : Nat := 65536
def msgDepthDefault : Nat := 4096

/-- The largest legal BIT_DEPTH and its default (R13). -/
def bitDepthMax : Nat := 262144
def bitDepthDefault : Nat := 65536

/-- The bit-symbol cells of the bits 0 and 1 (R64). -/
def zeroCell : Byte := 0x30#8
def oneCell : Byte := 0x31#8

/-- Free value: how many clock edges a command takes beyond its first, for the command word and the number of the
draw (R14, D9). -/
opaque latencyDraw : Word → Nat → Nat

/-- Free value: the bound R14 promises on that number, a function of the command word and the input lengths
(NODE_COUNT, MSG_LEN, BIT_LEN). -/
opaque latencyBound : Word → Nat → Nat → Nat → Nat

/-- The clock edges a command takes beyond its first: finite, and within the bound (R14, R283). -/
def latency (cmd : Word) (nodeCount msgLen bitLen draw : Nat) : Nat :=
  min (latencyDraw cmd draw) (latencyBound cmd nodeCount msgLen bitLen)

/-- Free value: how many clock edges the acknowledge of a request takes beyond its first, possibly different for
each access (R61, D38). -/
opaque ackDelay : Nat → Nat

/-- Free value: what a host read returns while BUSY = 1 where R70 leaves it unspecified, drawn freshly for each
read (U2). -/
opaque busyRead : Nat → Word

/-- Free value: what stands, since the reset of the given number, at a word address whose array element nothing has
written (U1, R38, R270). -/
opaque unwritten : Nat → Nat → Word

end Sys2Proof.Config
end

