-- ==== Sys2Proof/Machine/State.lean ====
section
/-! DEFINITION. The state of the Huffman CORE and of the host that drives it, as plain data (spec/10_state.md R20 to
R40; the ports of spec/20_memory.md R60; reset values of spec/70_reset_and_hazards.md R274), and the reasons a step
can stop. -/

namespace Sys2Proof.Machine

/-- The two open sizes, readable in CFG_MSG_DEPTH and CFG_BIT_DEPTH (R12, R13, R25). No step changes them. -/
structure Params where
  msgDepth : Nat
  bitDepth : Nat
  deriving DecidableEq, Repr

/-- The contents of an array: (index, element) pairs with strictly rising indices. An element that is not listed was
not written since reset and is unspecified (R38). -/
abbrev Store (α : Type) := List (Nat × α)

/-- A node record (R39). -/
structure Node where
  freq : Word
  leaf : Bool
  sym : Byte
  left : NodeIdx
  right : NodeIdx
  deriving DecidableEq, Repr

/-- A code record (R39): the branches from the root, `false` for left (bit 0) and `true` for right (bit 1). Its field
`len` is the length of the list. -/
structure Code where
  bits : List Bool
  deriving DecidableEq, Repr

/-- The six storage arrays (R38). The byte arrays are lists of `Host.Cell`. -/
structure Memory where
  freq : Store Word
  msg : List Host.Cell
  bits : List Host.Cell
  dec : List Host.Cell
  node : Store Node
  code : Store Code
  deriving DecidableEq, Repr

/-- The snapshot a running command works from (R40 (b), R87): every register and array a command reads. -/
structure Inputs where
  freq : Store Word
  msg : List Host.Cell
  bits : List Host.Cell
  node : Store Node
  code : Store Code
  msgLen : Word
  bitLen : Word
  root : NodeIdx
  treeValid : Bool
  codesValid : Bool
  deriving DecidableEq, Repr

/-- PHASE and, in BUSY, OP and the input snapshot (R21, R40). STATUS.BUSY shows it. -/
inductive Phase where
  | idle
  | busy (op : Instr) (inputs : Inputs)
  deriving DecidableEq, Repr

/-- ERR_CODE.CODE (R242). The reserved codes 0x09 to 0xFF are never produced (X3). -/
inductive ErrCode where
  | none
  | emptyInput
  | malformed
  | notReady
  | symbolMissing
  | lengthRange
  | capacity
  | freqOverflow
  | illegalCommand
  deriving DecidableEq, Repr

/-- The error record: ERR_CODE (CODE, SUB), ERR_POS and ERR_INFO (R28 to R30). -/
structure ErrRec where
  code : ErrCode
  sub : Byte
  pos : Word
  info : Word
  deriving DecidableEq, Repr

/-- One host access on the bus (R60, R106): `we` is the constructor, `addr` and `wdata` are its arguments. -/
inductive Access where
  | write (addr : Addr) (wdata : Word)
  | read (addr : Addr)
  deriving DecidableEq, Repr

/-- The ports other than `clk` and `irq` (R60). `request` is `req` with what it carries,
held up to and in the cycle of its `ack` (R61). `rdata` has a value exactly
in the cycle in which a read is acknowledged. -/
structure Bus where
  rst : Bool
  request : Option Access
  ack : Bool
  rdata : Option Word
  deriving DecidableEq, Repr

/-- One line of a host program (R106, R107), or the environment driving `rst` (R270). -/
inductive HostOp where
  /-- `WR a, v` -/
  | write (a : Addr) (v : Word)
  /-- `RD a` -/
  | read (a : Addr)
  /-- `POLL a, mask, v`: read `a` until `(rdata & mask) = v` -/
  | poll (a : Addr) (mask v : Word)
  /-- `WAITIRQ`: no bus access; wait until `irq` = 1 -/
  | waitIrq
  /-- `rst` = 1 for `extra + 1` rising edges -/
  | reset (extra : Nat)
  deriving DecidableEq, Repr

/-- The machine stops because the spec gives the run no defined result. -/
inductive Fault where
  /-- BUILD read FREQ[s], not written since reset (U1, D36). Safe: the hardware goes on with whatever the RAM holds,
  and no property may rely on that. -/
  | unwrittenFreq (s : Nat)
  /-- ENCODE read MSG[i], not written since reset (U1, D36). Safe, as above. -/
  | unwrittenMsg (i : Nat)
  /-- DECODE read BITS[i], not written since reset (U1, D36). Safe, as above. -/
  | unwrittenBits (i : Nat)
  /-- GENCODE or DECODE met node `i` outside a tree, or a path longer than any code. Safe: raised in no state that a
  run reaches, because only BUILD writes a tree (R86, R130). -/
  | brokenTree (i : Nat)
  /-- ENCODE found no record CODE[s] although CODES_VALID = 1. Safe: raised in no state that a run reaches, because
  GENCODE writes all 256 records (R153). -/
  | brokenTable (s : Nat)
  deriving DecidableEq, Repr

/-- The machine has no meaning for the instruction. -/
inductive Refusal where
  /-- An instruction that has no meaning yet, by its mnemonic; raised by exec's arm only. Safe. No arm raises it. -/
  | notModelled (mnemonic : String)
  deriving DecidableEq, Repr

/-- The state. ID and VERSION are constants of `Config`, CMD holds no state (R26), and `irq` is a function of `done`
and `doneIE` (R244). -/
structure State where
  /-- CFG_MSG_DEPTH, CFG_BIT_DEPTH (R25) -/
  params : Params
  /-- PHASE, OP and the snapshot (R21, R40) -/
  phase : Phase
  /-- STATUS.DONE (R27) -/
  done : Bool
  /-- STATUS.ERR (R27) -/
  err : Bool
  /-- STATUS.TREE_VALID (R27) -/
  treeValid : Bool
  /-- STATUS.CODES_VALID (R27) -/
  codesValid : Bool
  /-- STATUS.ACC_ERR (R27) -/
  accErr : Bool
  /-- ERR_CODE, ERR_POS, ERR_INFO (R28 to R30) -/
  errRec : ErrRec
  /-- IRQ_EN.DONE_IE (R31) -/
  doneIE : Bool
  /-- MSG_LEN (R32) -/
  msgLen : Word
  /-- BIT_LEN (R33) -/
  bitLen : Word
  /-- DEC_LEN (R34) -/
  decLen : Word
  /-- ROOT (R35) -/
  root : NodeIdx
  /-- NODE_COUNT (R36) -/
  nodeCount : BitVec 10
  /-- LEAF_COUNT (R37) -/
  leafCount : BitVec 9
  /-- FREQ, MSG, BITS, DEC, NODE, CODE (R38) -/
  mem : Memory
  /-- the ports (R60) -/
  bus : Bus
  /-- the host agent: what is left of its program (R81, R106) -/
  program : List HostOp
  /-- clock edges left before the running command completes (R14); the model's own -/
  latencyLeft : Nat
  /-- clock edges left before the outstanding request is acknowledged (R61); the model's own -/
  ackLeft : Nat
  /-- how many free values were drawn; the model's own -/
  draws : Nat
  /-- how many resets were applied; the model's own -/
  resets : Nat
  deriving DecidableEq, Repr

/-- No array element was written (R270: every array's content is unspecified). -/
def Memory.unspecified : Memory :=
  { freq := [], msg := [], bits := [], dec := [], node := [], code := [] }

/-- The error record with no error (R28 to R30, R242). -/
def ErrRec.zero : ErrRec := { code := .none, sub := 0#8, pos := 0#32, info := 0#32 }

/-- The machine right after reset (R270, R274), with the default sizes (R12, R13) and a host that has nothing to do. -/
def State.reset : State :=
  { params := { msgDepth := Config.msgDepthDefault, bitDepth := Config.bitDepthDefault }
    phase := .idle
    done := false, err := false, treeValid := false, codesValid := false, accErr := false
    errRec := ErrRec.zero
    doneIE := false
    msgLen := 0#32, bitLen := 0#32, decLen := 0#32
    root := Config.nil, nodeCount := 0#10, leafCount := 0#9
    mem := Memory.unspecified
    bus := { rst := false, request := none, ack := false, rdata := none }
    program := []
    latencyLeft := 0, ackLeft := 0, draws := 0, resets := 0 }

end Sys2Proof.Machine
end

