-- ==== Sys2Proof/Machine/Ops.lean ====
section
/-! DEFINITION. The shared operations: array reads and writes, acceptance and completion of a command, the error
record (the block's exception entry, spec/60_exceptions.md R240, R241, with the host's acknowledgement as its return,
R245), and reset (spec/70_reset_and_hazards.md R270). -/

namespace Sys2Proof.Machine

/-! ### Arrays -/

/-- Element `i` of an array, `none` if nothing has written it since reset (R38). -/
def Store.read {α : Type} : Store α → Nat → Option α
  | [], _ => none
  | (j, v) :: rest, i => if j = i then some v else Store.read rest i

/-- One element written, the indices kept strictly rising. -/
def Store.write {α : Type} : Store α → Nat → α → Store α
  | [], i, v => [(i, v)]
  | (j, u) :: rest, i, v =>
    if i < j then (i, v) :: (j, u) :: rest
    else if i = j then (i, v) :: rest
    else (j, u) :: Store.write rest i v

/-- A list as the elements `start`, `start + 1`, ... of an array. -/
def Store.ofList {α : Type} : Nat → List α → Store α
  | _, [] => []
  | start, v :: vs => (start, v) :: Store.ofList (start + 1) vs

/-- A command's pending writes to elements 0 to `vs.length - 1`, taking effect at once; the elements above keep their
values (R17; R127, R173, R195). -/
def Store.writePrefix {α : Type} (st : Store α) (vs : List α) : Store α :=
  Store.ofList 0 vs ++ st.filter (fun c => vs.length ≤ c.1)

/-- The canonical form: strictly rising indices, all below the number of elements. -/
abbrev Store.wf {α : Type} (size : Nat) (st : Store α) : Prop :=
  st.Pairwise (fun a b => a.1 < b.1) ∧ ∀ c ∈ st, c.1 < size

/-- The canonical form of all six arrays, for the sizes of R38; no code is longer than 255 bits (R11). -/
abbrev Memory.wf (p : Params) (m : Memory) : Prop :=
  Store.wf Config.nsym m.freq ∧ Store.wf p.msgDepth m.msg ∧ Store.wf p.bitDepth m.bits ∧
  Store.wf p.msgDepth m.dec ∧ Store.wf Config.nodeMax m.node ∧ Store.wf Config.nsym m.code ∧
  ∀ c ∈ m.code, c.2.bits.length ≤ Config.maxCodeLen

/-! ### How a command's pseudocode ends early -/

/-- `raise Error(code, sub, pos, info)` (R17), or a read to which the spec gives no value (U1). -/
inductive Stop where
  | raise (e : ErrRec)
  | undefined (f : Fault)
  deriving DecidableEq, Repr

/-- `raise Error(code, sub, pos, info)` (R17). -/
def raise {α : Type} (code : ErrCode) (sub : Byte) (pos info : Word) : Except Stop α :=
  .error (.raise { code := code, sub := sub, pos := pos, info := info })

/-- `MemRead(A, i)` inside a command (R16): an element nothing has written since reset has no value (U1). -/
def memRead {α : Type} (st : Store α) (i : Nat) (f : Fault) : Except Stop α :=
  match st.read i with
  | some v => .ok v
  | none => .error (.undefined f)

/-! ### Acceptance (R240) -/

/-- PHASE = BUSY, which is STATUS.BUSY (R21, R27). -/
def State.isBusy (s : State) : Bool :=
  match s.phase with
  | .idle => false
  | .busy _ _ => true

/-- The registers and arrays a command reads, as they stand now (R87). -/
def State.currentInputs (s : State) : Inputs :=
  { freq := s.mem.freq, msg := s.mem.msg, bits := s.mem.bits, node := s.mem.node, code := s.mem.code
    msgLen := s.msgLen, bitLen := s.bitLen, root := s.root, treeValid := s.treeValid, codesValid := s.codesValid }

/-- What a command works from: the snapshot taken at acceptance (R87). In IDLE, where no command runs, the state as
it stands. -/
def State.inputs (s : State) : Inputs :=
  match s.phase with
  | .idle => s.currentInputs
  | .busy _ x => x

/-- `Accept(w)` of R240: the command is decoded, its inputs are taken, DONE, ERR and the error record are cleared.
It will complete after `wait` further clock edges. -/
def State.accept (s : State) (w : Word) (wait : Nat) : State :=
  { s with
    phase := .busy (Sys2Proof.decode w) s.currentInputs
    done := false, err := false, errRec := ErrRec.zero, latencyLeft := wait }

/-! ### Completion (R240) -/

/-- What every completion does: PHASE becomes IDLE and DONE becomes 1 (R240). -/
def State.complete (s : State) : State := { s with phase := .idle, done := true }

/-- Completion with success: ERR = 0 (R220, R240). -/
def State.succeed (s : State) : State := { s.complete with err := false }

/-- Completion with failure: ERR = 1 and the error record; no other state changes (R241). This is the block's
exception entry: it saves nothing else, switches no mode and goes to no vector. -/
def State.recordError (s : State) (e : ErrRec) : State := { s.complete with err := true, errRec := e }

/-- `Complete` of R240: all pending effects of a command that commits, or the error record of one that raises. -/
def State.finish {α : Type} (s : State) (r : Except Stop α) (commit : α → State → State) :
    Host.Outcome State Fault Refusal :=
  match r with
  | .ok a => .next (commit a s).succeed
  | .error (.raise e) => .next (s.recordError e)
  | .error (.undefined f) => .fault f

/-- The host's return from a completion (R245): a W1C write of DONE, which also drops `irq`. -/
def State.acknowledgeDone (s : State) : State := { s with done := false }

/-! ### The clock edge -/

/-- The access that waits for its acknowledge. The host still holds an access in the cycle of its `ack`, when it has
taken effect (R61). -/
def State.outstanding (s : State) : Option Access := if s.bus.ack then none else s.bus.request

/-- What the ports carry once a cycle is over: `ack` is a one-cycle pulse, `rdata` is valid only in its cycle (R60), and
after that cycle the host drops the request (R61). -/
def State.quiet (s : State) : State :=
  { s with bus := { s.bus with request := s.outstanding, ack := false, rdata := none } }

/-- How the host program goes on after an edge with `rst` = 1: the pulse of a line `reset extra` lasts `extra + 1` edges
(R272). DESIGN CHOICE (log entry 17), for a state with `rst` = 1 whose program's next line is no `reset` line, in which
the host may hold a request: the pulse ends with this edge, and the line stays, so that the host raises its access anew
after the reset and it is performed then. -/
def afterResetEdge : List HostOp → Bool × List HostOp
  | .reset (extra + 1) :: rest => (true, .reset extra :: rest)
  | .reset 0 :: rest => (false, rest)
  | ops => (false, ops)

/-- A rising edge with `rst` = 1 (R270 to R272, log entry 17): every register takes its reset value, every array becomes
unspecified, a running command is abandoned, an outstanding request is not performed. -/
def State.resetEdge (s : State) : State :=
  { State.reset with
    params := s.params
    bus := { State.reset.bus with rst := (afterResetEdge s.program).1 }
    program := (afterResetEdge s.program).2
    draws := s.draws
    resets := s.resets + 1 }

end Sys2Proof.Machine
end

