-- ==== Sys2Proof/Machine/CodeTable.lean ====
section
/-! DEFINITION. GENCODE, the Code Table Builder (spec/42_code_table.md R150 to R156). -/

namespace Sys2Proof.Machine

/-- A code bound to a symbol. -/
structure Binding where
  sym : Byte
  bits : List Bool
  deriving DecidableEq, Repr

/-- `Walk(i, p)` (R150, R152): depth first, 0 for the left subtree and 1 for the right; each leaf binds its symbol to
the path. The first argument bounds the depth of the walk. -/
def walk (st : Store Node) : Nat → Nat → List Bool → Except Stop (List Binding)
  | 0, i, _ => .error (.undefined (.brokenTree i))
  | depth + 1, i, p => do
    let nd ← memRead st i (.brokenTree i)
    if nd.leaf then return [{ sym := nd.sym, bits := p }]
    else
      let l ← walk st depth nd.left.toNat (p ++ [false])
      let r ← walk st depth nd.right.toNat (p ++ [true])
      return l ++ r

/-- The bindings of a tree: the placeholder code `0` for a lone leaf (R151), else those of the walk from the root. No
path is longer than 255 (R11, R133). -/
def bindings (st : Store Node) (root : Nat) : Except Stop (List Binding) := do
  let nd ← memRead st root (.brokenTree root)
  if nd.leaf then return [{ sym := nd.sym, bits := [false] }]
  else walk st (Config.maxCodeLen + 1) root []

/-- CODE[0..255]: every entry empty, then one write for each binding (R150, R153). -/
def codeTable (bs : List Binding) : List Code :=
  bs.foldl (fun table b => table.set b.sym.toNat { bits := b.bits }) (List.replicate Config.nsym { bits := [] })

/-- What GENCODE computes from its inputs (R150, R154). -/
def gencodeResult (x : Inputs) : Except Stop (List Code) :=
  if x.treeValid then do
    let bs ← bindings x.node x.root.toNat
    return codeTable bs
  else raise .notReady 1#8 0#32 0#32

/-- GENCODE's effects: CODE[0..255] and CODES_VALID = 1 (R150, R153). -/
def State.commitGencode (table : List Code) (s : State) : State :=
  { s with mem := { s.mem with code := Store.writePrefix s.mem.code table }, codesValid := true }

/-- GENCODE (R150). -/
def execGencode (s : State) : Host.Outcome State Fault Refusal :=
  s.finish (gencodeResult s.inputs) (fun table t => t.commitGencode table)

end Sys2Proof.Machine
end

