-- ==== Sys2Proof/Machine/Control.lean ====
section
/-! DEFINITION. The control commands NOP, CLEAR and the illegal words (spec/45_control.md R220 to R222). -/

namespace Sys2Proof.Machine

/-- NOP: commit with no pending write (R220). -/
def execNop (s : State) : Host.Outcome State Fault Refusal :=
  s.finish (.ok ()) (fun _ t => t)

/-- CLEAR's effects: FREQ is all 0; the tree, the code table and the decode result are discarded (R221). -/
def State.commitClear (s : State) : State :=
  { s with
    mem := { s.mem with freq := Store.writePrefix s.mem.freq (List.replicate Config.nsym 0#32) }
    treeValid := false, codesValid := false
    root := Config.nil, nodeCount := 0#10, leafCount := 0#9, decLen := 0#32 }

/-- CLEAR (R221). -/
def execClear (s : State) : Host.Outcome State Fault Refusal :=
  s.finish (.ok ()) (fun _ t => t.commitClear)

/-- The sub-cause of an illegal word: RSVD is checked first (R100, R222). -/
def illegalSub (w : Word) : Byte := if rsvdNonzero w then 2#8 else 1#8

/-- An illegal command word: the command fails, and ERR_INFO is the whole word (R222). -/
def execIllegal (w : Word) (s : State) : Host.Outcome State Fault Refusal :=
  s.finish (raise .illegalCommand (illegalSub w) 0#32 w) (fun (_ : Unit) t => t)

end Sys2Proof.Machine
end

