-- ==== Sys2Proof/Machine/Decoder.lean ====
section
/-! DEFINITION. DECODE, the Decoder (spec/44_decoder.md R190 to R199). -/

namespace Sys2Proof.Machine

/-- Where a cell takes the walk from node `nd` = NODE[cur]: a leaf root has the branch `0` only (R194); an internal
node has both (R193). -/
def nextNode (nd : Node) (cur i : Nat) (b : Byte) : Except Stop Nat :=
  if nd.leaf then
    if b = Config.oneCell then raise .malformed 3#8 (BitVec.ofNat 32 i) (b.setWidth 32) else .ok cur
  else .ok (if b = Config.zeroCell then nd.left.toNat else nd.right.toNat)

/-- The loop of R190 over BITS[i] to BITS[i + count - 1], from node `cur` with the symbols `out` decoded so far; after
the last cell, the check for a truncated path (R196). -/
def decodeLoop (p : Params) (x : Inputs) : Nat → Nat → Nat → List Byte → Except Stop (List Byte)
  | 0, i, cur, out =>
    if cur = x.root.toNat then .ok out
    else raise .malformed 2#8 (BitVec.ofNat 32 i) (BitVec.ofNat 32 out.length)
  | count + 1, i, cur, out => do
    let b ← memRead x.bits i (.unwrittenBits i)
    if b ≠ Config.zeroCell ∧ b ≠ Config.oneCell then
      raise .malformed 1#8 (BitVec.ofNat 32 i) (b.setWidth 32)
    else
      let nd ← memRead x.node cur (.brokenTree cur)
      let nxt ← nextNode nd cur i b
      let nd' ← memRead x.node nxt (.brokenTree nxt)
      if nd'.leaf then
        if out.length = p.msgDepth then
          raise .capacity 2#8 (BitVec.ofNat 32 i) (BitVec.ofNat 32 out.length)
        else decodeLoop p x count (i + 1) x.root.toNat (out ++ [nd'.sym])
      else decodeLoop p x count (i + 1) nxt out

/-- What DECODE computes from its inputs: the pre-checks in their order (R191), then the walk (R193). -/
def decodeResult (p : Params) (x : Inputs) : Except Stop (List Byte) :=
  if x.treeValid = false then raise .notReady 1#8 0#32 0#32
  else if x.bitLen.toNat > p.bitDepth then raise .lengthRange 2#8 0#32 x.bitLen
  else decodeLoop p x x.bitLen.toNat 0 x.root.toNat []

/-- DECODE's effects: DEC[0..D-1] and DEC_LEN = D (R195). -/
def State.commitDecode (out : List Byte) (s : State) : State :=
  { s with
    mem := { s.mem with dec := Store.writePrefix s.mem.dec out }
    decLen := BitVec.ofNat 32 out.length }

/-- DECODE (R190). -/
def execDecode (s : State) : Host.Outcome State Fault Refusal :=
  s.finish (decodeResult s.params s.inputs) (fun out t => t.commitDecode out)

end Sys2Proof.Machine
end

