-- ==== Sys2Proof/Machine/Encoder.lean ====
section
/-! DEFINITION. ENCODE, the Encoder (spec/43_encoder.md R170 to R175). -/

namespace Sys2Proof.Machine

/-- The checking pass over MSG[i] to MSG[i + count - 1] with `acc` cells taken before (R170, R172, R174). It gives the
codes in message order. -/
def encodeScan (p : Params) (x : Inputs) : Nat → Nat → Nat → Except Stop (List (List Bool))
  | 0, _, _ => .ok []
  | count + 1, i, acc => do
    let c ← memRead x.msg i (.unwrittenMsg i)
    let code ← memRead x.code c.toNat (.brokenTable c.toNat)
    if code.bits.length = 0 then raise .symbolMissing 0#8 (BitVec.ofNat 32 i) (c.setWidth 32)
    else if acc + code.bits.length > p.bitDepth then
      raise .capacity 1#8 (BitVec.ofNat 32 i) (BitVec.ofNat 32 acc)
    else
      let rest ← encodeScan p x count (i + 1) (acc + code.bits.length)
      return code.bits :: rest

/-- The BITS cell of a code bit: `0x30 + bit` (R64, R173). -/
def cellOf (b : Bool) : Byte := if b then Config.oneCell else Config.zeroCell

/-- What ENCODE computes from its inputs: the pre-checks in their order (R171), then the bit-string (R173). -/
def encodeResult (p : Params) (x : Inputs) : Except Stop (List Bool) :=
  if x.codesValid = false then raise .notReady 2#8 0#32 0#32
  else if x.msgLen.toNat > p.msgDepth then raise .lengthRange 1#8 0#32 x.msgLen
  else if x.msgLen.toNat = 0 then raise .emptyInput 2#8 0#32 0#32
  else do
    let codes ← encodeScan p x x.msgLen.toNat 0 0
    return codes.flatten

/-- ENCODE's effects: BITS[0..T-1] and BIT_LEN = T (R173). -/
def State.commitEncode (bits : List Bool) (s : State) : State :=
  { s with
    mem := { s.mem with bits := Store.writePrefix s.mem.bits (bits.map cellOf) }
    bitLen := BitVec.ofNat 32 bits.length }

/-- ENCODE (R170). -/
def execEncode (s : State) : Host.Outcome State Fault Refusal :=
  s.finish (encodeResult s.params s.inputs) (fun bits t => t.commitEncode bits)

end Sys2Proof.Machine
end

