-- ==== Sys2Proof/Machine/TreeBuilder.lean ====
section
/-! DEFINITION. BUILD, the Tree Builder (spec/41_tree_builder.md R120 to R129). -/

namespace Sys2Proof.Machine

/-- FREQ[start] to FREQ[start + count - 1] in ascending order (R120). -/
def readFreqs (st : Store Word) : Nat → Nat → Except Stop (List Word)
  | _, 0 => .ok []
  | start, count + 1 => do
    let f ← memRead st start (.unwrittenFreq start)
    let fs ← readFreqs st (start + 1) count
    return f :: fs

/-- The number of distinct symbols: the nonzero entries (R121). -/
def distinctSymbols (fs : List Word) : Nat := fs.countP (fun f => f != 0#32)

/-- The first symbol at which the running sum, an unbounded natural, exceeds 0xFFFFFFFF (R121 (b)). -/
def firstOverflow : List Word → Nat → Nat → Option Nat
  | [], _, _ => none
  | f :: fs, s, acc =>
    if acc + f.toNat > Config.freqMax then some s else firstOverflow fs (s + 1) (acc + f.toNat)

/-- A leaf (R123). -/
def leafNode (f : Word) (s : Nat) : Node :=
  { freq := f, leaf := true, sym := BitVec.ofNat 8 s, left := Config.nil, right := Config.nil }

/-- One leaf for each symbol with a nonzero entry, in ascending symbol order from symbol `s` (R123). -/
def leavesFrom : List Word → Nat → List Node
  | [], _ => []
  | f :: fs, s => if f = 0#32 then leavesFrom fs (s + 1) else leafNode f s :: leavesFrom fs (s + 1)

/-- An entry of the priority structure: a node's index and its frequency, the key of R122. -/
structure QueueItem where
  freq : Nat
  index : Nat
  deriving DecidableEq, Repr

/-- The key order: lower frequency first, among equal frequencies the lower index (R18, R122). -/
def QueueItem.before (a b : QueueItem) : Bool :=
  a.freq < b.freq || (a.freq == b.freq && a.index < b.index)

/-- The entry with the least key, and the others (R122). -/
def extractMin : List QueueItem → Option (QueueItem × List QueueItem)
  | [] => none
  | q :: qs =>
    match extractMin qs with
    | none => some (q, [])
    | some (m, rest) => if q.before m then some (q, qs) else some (m, q :: rest)

/-- An internal node over the first and the second entry extracted, `left` and `right` (R124). -/
def internalNode (a b : QueueItem) : Node :=
  { freq := BitVec.ofNat 32 (a.freq + b.freq), leaf := false, sym := 0#8
    left := BitVec.ofNat 9 a.index, right := BitVec.ofNat 9 b.index }

/-- What BUILD makes: the nodes in index order, and the root. -/
structure BuiltTree where
  nodes : List Node
  root : Nat
  deriving DecidableEq, Repr

/-- The merge loop (R124): while two or more entries remain, the two least become the children of a new node, which
takes the next index. The first argument bounds the number of rounds; the number of leaves suffices. -/
def mergeLoop : Nat → List Node → List QueueItem → BuiltTree
  | 0, nodes, _ => { nodes := nodes, root := Config.nil.toNat }
  | rounds + 1, nodes, queue =>
    match extractMin queue with
    | none => { nodes := nodes, root := Config.nil.toNat }
    | some (a, queue1) =>
      match extractMin queue1 with
      | none => { nodes := nodes, root := a.index }
      | some (b, queue2) =>
        mergeLoop rounds (nodes ++ [internalNode a b])
          ({ freq := a.freq + b.freq, index := nodes.length } :: queue2)

/-- The priority structure over the nodes from index `k` on. -/
def queueFrom : Nat → List Node → List QueueItem
  | _, [] => []
  | k, nd :: nds => { freq := nd.freq.toNat, index := k } :: queueFrom (k + 1) nds

/-- The tree of a frequency table (R120, R123, R124). -/
def treeOf (fs : List Word) : BuiltTree :=
  let leaves := leavesFrom fs 0
  mergeLoop leaves.length leaves (queueFrom 0 leaves)

/-- BUILD's checks, then the tree (R120, R121). -/
def buildTree (fs : List Word) : Except Stop BuiltTree :=
  if distinctSymbols fs = 0 then raise .emptyInput 1#8 0#32 0#32
  else
    match firstOverflow fs 0 0 with
    | some s => raise .freqOverflow 0#8 (BitVec.ofNat 32 s) (BitVec.ofNat 32 (distinctSymbols fs))
    | none => .ok (treeOf fs)

/-- BUILD's effects (R125): NODE, ROOT, NODE_COUNT, LEAF_COUNT, TREE_VALID = 1, CODES_VALID = 0. -/
def State.commitBuild (leaves : Nat) (t : BuiltTree) (s : State) : State :=
  { s with
    mem := { s.mem with node := Store.writePrefix s.mem.node t.nodes }
    root := BitVec.ofNat 9 t.root
    nodeCount := BitVec.ofNat 10 t.nodes.length
    leafCount := BitVec.ofNat 9 leaves
    treeValid := true, codesValid := false }

/-- What BUILD computes from its inputs: the number of leaves and the tree. -/
def buildResult (x : Inputs) : Except Stop (Nat × BuiltTree) := do
  let fs ← readFreqs x.freq 0 Config.nsym
  let t ← buildTree fs
  return (distinctSymbols fs, t)

/-- BUILD (R120). -/
def execBuild (s : State) : Host.Outcome State Fault Refusal :=
  s.finish (buildResult s.inputs) (fun r t => t.commitBuild r.1 r.2)

end Sys2Proof.Machine
end

