-- ==== Sys2Proof/Machine/Operands.lean ====
section
/-! DEFINITION. The address map (spec/20_memory.md R65), the rights of each address, the width of each element (R63)
and the words of the node and code windows (R72, R73). -/

namespace Sys2Proof.Machine

/-- What a word address names (R65). -/
inductive Region where
  | id | version | cfgMsgDepth | cfgBitDepth | cmd | status | errCode | errPos | errInfo | irqEn
  | msgLen | bitLen | decLen | root | nodeCount | leafCount
  | freq (s : Nat)
  | codeLen (s : Nat)
  | codeBits (s w : Nat)
  | node (i f : Nat)
  | msg (i : Nat)
  | dec (i : Nat)
  | bits (i : Nat)
  | reserved
  deriving DecidableEq, Repr

/-- The registers of the address map (R65). -/
def registerRegion (a : Nat) : Region :=
  match a with
  | 0x00 => .id
  | 0x01 => .version
  | 0x02 => .cfgMsgDepth
  | 0x03 => .cfgBitDepth
  | 0x04 => .cmd
  | 0x05 => .status
  | 0x06 => .errCode
  | 0x07 => .errPos
  | 0x08 => .errInfo
  | 0x09 => .irqEn
  | 0x0C => .msgLen
  | 0x0D => .bitLen
  | 0x0E => .decLen
  | 0x10 => .root
  | 0x11 => .nodeCount
  | 0x12 => .leafCount
  | _ => .reserved

/-- The windows of one fixed size each, at the addresses 0x00100 to 0x0FFFF (R65). -/
def windowRegion (a : Nat) : Region :=
  if a < 0x200 then .freq (a - 0x100)
  else if a < 0x300 then .codeLen (a - 0x200)
  else if a < 0x400 then .reserved
  else if a < 0xC00 then .codeBits ((a - 0x400) / 8) ((a - 0x400) % 8)
  else if a < 0x1000 then .reserved
  else if a < 0x1800 then .node ((a - 0x1000) / 4) ((a - 0x1000) % 4)
  else .reserved

/-- Cell `i` of an array of `depth` cells, reserved beyond them (R65). -/
def cellRegion (cell : Nat → Region) (depth i : Nat) : Region := if i < depth then cell i else .reserved

/-- The arrays of MSG_DEPTH or BIT_DEPTH cells, from the address 0x10000 on (R65). -/
def arrayRegion (p : Params) (a : Nat) : Region :=
  if a < 0x20000 then cellRegion .msg p.msgDepth (a - 0x10000)
  else if a < 0x30000 then cellRegion .dec p.msgDepth (a - 0x20000)
  else if a < 0x40000 then .reserved
  else cellRegion .bits p.bitDepth (a - 0x40000)

/-- The address map (R65), for the sizes of the block. -/
def regionOf (p : Params) (a : Nat) : Region :=
  if a < 0x100 then registerRegion a
  else if a < 0x10000 then windowRegion a
  else arrayRegion p a

/-- `region(a)` of R76. -/
def region (p : Params) (a : Addr) : Region := regionOf p a.toNat

/-- The regions whose host column in R65 is RO. -/
def Region.readOnly : Region → Bool
  | .id | .version | .cfgMsgDepth | .cfgBitDepth | .errCode | .errPos | .errInfo | .decLen | .root | .nodeCount
  | .leafCount | .codeLen _ | .codeBits _ _ | .node _ _ | .dec _ => true
  | .cmd | .status | .irqEn | .msgLen | .bitLen | .freq _ | .msg _ | .bits _ | .reserved => false

/-- The regions whose read returns its value while BUSY = 1 as in IDLE (R70). -/
def Region.readableWhileBusy : Region → Bool
  | .id | .version | .cfgMsgDepth | .cfgBitDepth | .status | .irqEn | .cmd | .reserved => true
  | .errCode | .errPos | .errInfo | .msgLen | .bitLen | .decLen | .root | .nodeCount | .leafCount
  | .freq _ | .codeLen _ | .codeBits _ _ | .node _ _ | .msg _ | .dec _ | .bits _ => false

/-- `zext_32` (R15). -/
def zext {n : Nat} (v : BitVec n) : Word := v.setWidth 32

/-- What a read of an array element returns that nothing has written since reset: any value of the element's width,
the higher bits 0 (U1). -/
def unwrittenElement (width resets : Nat) (a : Addr) : Word :=
  ((Config.unwritten resets a.toNat).setWidth width).setWidth 32

/-- Word `f` of a node record in the node window (R72). -/
def Node.word (nd : Node) : Nat → Word
  | 0 => nd.freq
  | 1 => zext (BitVec.ofBool nd.leaf ++ nd.sym)
  | 2 => zext nd.left
  | _ => zext nd.right

/-- Word `f` of an empty slot of the node window (R72). -/
def emptyNodeWord : Nat → Word
  | 0 => 0#32
  | 1 => 0#32
  | _ => 0x000001FF#32

/-- The width of word `f` of a node record (R39, R72). -/
def nodeWordWidth : Nat → Nat
  | 0 => 32
  | _ => 9

/-- Word `w` of the code window: bit `b` is code bit `32 w + b`, 0 beyond the code's length (R73). -/
def Code.word (c : Code) (w : Nat) : Word :=
  (BitVec.ofBoolListLE ((c.bits.drop (32 * w)).take 32)).setWidth 32

/-- ERR_CODE.CODE as a number (R242). -/
def ErrCode.toByte : ErrCode → Byte
  | .none => 0x00#8
  | .emptyInput => 0x01#8
  | .malformed => 0x02#8
  | .notReady => 0x03#8
  | .symbolMissing => 0x04#8
  | .lengthRange => 0x05#8
  | .capacity => 0x06#8
  | .freqOverflow => 0x07#8
  | .illegalCommand => 0x08#8

/-- The register ERR_CODE: CODE in [7:0], SUB in [15:8] (R28, R241). -/
def ErrRec.codeWord (e : ErrRec) : Word := zext (e.sub ++ e.code.toByte)

end Sys2Proof.Machine
end

