-- ==== Sys2Proof/Machine/Flags.lean ====
section
/-! DEFINITION. The flags: the word of STATUS, its write-1-to-clear bits (spec/10_state.md R22, R27), IRQ_EN (R31)
and the interrupt line (spec/60_exceptions.md R244). -/

namespace Sys2Proof.Machine

/-- STATUS as the host reads it: BUSY [0], DONE [1], ERR [2], TREE_VALID [3], CODES_VALID [4], ACC_ERR [5] (R27). -/
def State.statusWord (s : State) : Word :=
  zext (BitVec.ofBool s.accErr ++ BitVec.ofBool s.codesValid ++ BitVec.ofBool s.treeValid ++ BitVec.ofBool s.err ++
    BitVec.ofBool s.done ++ BitVec.ofBool s.isBusy)

/-- A host write to STATUS: bit 1 clears DONE, bit 5 clears ACC_ERR, every other bit is ignored (R27). -/
def State.writeStatus (s : State) (v : Word) : State :=
  let t := if v.getLsbD 1 then s.acknowledgeDone else s
  if v.getLsbD 5 then { t with accErr := false } else t

/-- A rejected host write sets the sticky flag ACC_ERR (R66, R67, R70, R247). -/
def State.accessError (s : State) : State := { s with accErr := true }

/-- IRQ_EN as the host reads it: DONE_IE [0] (R31). -/
def State.irqEnWord (s : State) : Word := zext (BitVec.ofBool s.doneIE)

/-- The interrupt output: `irq = STATUS.DONE AND IRQ_EN.DONE_IE`, a level (R244). -/
def State.irq (s : State) : Bool := s.done && s.doneIE

end Sys2Proof.Machine
end

