-- ==== Sys2Proof/Machine/HostAccess.lean ====
section
/-! DEFINITION. The host's accesses (spec/20_memory.md R66 to R76): one read or one write of a 32-bit word. -/

namespace Sys2Proof.Machine

/-- An element of an array as the host reads it: zero-extended (R63), or any value of its width if nothing has written
it since reset (U1). -/
def State.readElement {n : Nat} (s : State) (a : Addr) (v : Option (BitVec n)) : Word :=
  match v with
  | some b => zext b
  | none => unwrittenElement n s.resets a

/-- Word `f` of slot `i` of the node window (R72). -/
def State.nodeWindow (s : State) (a : Addr) (i f : Nat) : Word :=
  if i < s.nodeCount.toNat then
    match Store.read s.mem.node i with
    | some nd => nd.word f
    | none => unwrittenElement (nodeWordWidth f) s.resets a
  else emptyNodeWord f

/-- CODE_LEN[s] of the code window (R73). -/
def State.codeLenWindow (s : State) (a : Addr) (sym : Nat) : Word :=
  if s.codesValid then
    match Store.read s.mem.code sym with
    | some c => zext (BitVec.ofNat 8 c.bits.length)
    | none => unwrittenElement 8 s.resets a
  else 0#32

/-- CODE_BITS[s][w] of the code window (R73). -/
def State.codeBitsWindow (s : State) (a : Addr) (sym w : Nat) : Word :=
  if s.codesValid then
    match Store.read s.mem.code sym with
    | some c => c.word w
    | none => unwrittenElement 32 s.resets a
  else 0#32

/-- The value of a region in IDLE (R76). -/
def State.readRegion (s : State) (a : Addr) : Region → Word
  | .id => Config.idValue
  | .version => Config.versionValue
  | .cfgMsgDepth => BitVec.ofNat 32 s.params.msgDepth
  | .cfgBitDepth => BitVec.ofNat 32 s.params.bitDepth
  | .cmd => 0#32
  | .status => s.statusWord
  | .errCode => s.errRec.codeWord
  | .errPos => s.errRec.pos
  | .errInfo => s.errRec.info
  | .irqEn => s.irqEnWord
  | .msgLen => s.msgLen
  | .bitLen => s.bitLen
  | .decLen => s.decLen
  | .root => zext s.root
  | .nodeCount => zext s.nodeCount
  | .leafCount => zext s.leafCount
  | .freq i => s.readElement a (Store.read s.mem.freq i)
  | .codeLen sym => s.codeLenWindow a sym
  | .codeBits sym w => s.codeBitsWindow a sym w
  | .node i f => s.nodeWindow a i f
  | .msg i => s.readElement a (Store.read s.mem.msg i)
  | .dec i => s.readElement a (Store.read s.mem.dec i)
  | .bits i => s.readElement a (Store.read s.mem.bits i)
  | .reserved => 0#32

/-- `HostRead(a)` (R76): the `rdata` of a read. It changes no state (R68). While BUSY = 1 most reads return any value
(R70, U2). -/
def State.hostRead (s : State) (a : Addr) : Word :=
  if s.isBusy && !(region s.params a).readableWhileBusy then Config.busyRead s.draws
  else s.readRegion a (region s.params a)

/-- An offer of a command word while BUSY = 0: it is accepted (R71). How long the command takes is a free value
(R14). -/
def State.acceptCommand (s : State) (v : Word) : State :=
  let wait := Config.latency v s.nodeCount.toNat s.msgLen.toNat s.bitLen.toNat s.draws
  { s.accept v wait with draws := s.draws + 1 }

/-- A write to a region while BUSY = 0 (R67, R69, R71, R76). The low bits are stored (R63). -/
def State.writeRegion (s : State) (v : Word) : Region → State
  | .cmd => s.acceptCommand v
  | .status => s.writeStatus v
  | .irqEn => { s with doneIE := v.getLsbD 0 }
  | .freq i => { s with mem := { s.mem with freq := Store.write s.mem.freq i v } }
  | .msg i => { s with mem := { s.mem with msg := Store.write s.mem.msg i (v.setWidth 8) } }
  | .bits i => { s with mem := { s.mem with bits := Store.write s.mem.bits i (v.setWidth 8) } }
  | .msgLen => { s with msgLen := v }
  | .bitLen => { s with bitLen := v }
  | .id | .version | .cfgMsgDepth | .cfgBitDepth | .errCode | .errPos | .errInfo | .decLen | .root | .nodeCount
  | .leafCount | .codeLen _ | .codeBits _ _ | .node _ _ | .dec _ | .reserved => s.accessError

/-- A write to a region while BUSY = 1: only STATUS and IRQ_EN take it (R70). -/
def State.writeRegionBusy (s : State) (v : Word) : Region → State
  | .status => s.writeStatus v
  | .irqEn => { s with doneIE := v.getLsbD 0 }
  | .id | .version | .cfgMsgDepth | .cfgBitDepth | .cmd | .errCode | .errPos | .errInfo | .msgLen | .bitLen | .decLen
  | .root | .nodeCount | .leafCount | .freq _ | .codeLen _ | .codeBits _ _ | .node _ _ | .msg _ | .dec _ | .bits _
  | .reserved => s.accessError

/-- `HostWrite(a, v)` (R76). -/
def State.hostWrite (s : State) (a : Addr) (v : Word) : State :=
  if s.isBusy then s.writeRegionBusy v (region s.params a) else s.writeRegion v (region s.params a)

end Sys2Proof.Machine
end

