-- ==== Sys2Proof/Machine/HostAgent.lean ====
section
/-! DEFINITION. The host agent on one clock edge with `rst` = 0: the bus handshake (spec/20_memory.md R61) and the
progress of the host program (spec/30_encoding.md R106, R107). -/

namespace Sys2Proof.Machine

/-- The host program after its current write is acknowledged. -/
def afterWrite : List HostOp → List HostOp
  | .write _ _ :: rest => rest
  | ops => ops

/-- The host program after its current read returns `v`: a POLL repeats until `(rdata & mask) = value` (R106). -/
def afterRead (v : Word) : List HostOp → List HostOp
  | .read _ :: rest => rest
  | .poll a mask value :: rest => if v &&& mask = value then rest else .poll a mask value :: rest
  | ops => ops

/-- The edge in which a request is acknowledged: the access takes effect and `ack` = 1. The host holds the request in the
cycle of the `ack` and drops or changes it in the next (R61; `State.quiet`). -/
def State.acknowledge (s : State) : Access → State
  | .write a v =>
    { s.hostWrite a v with
      bus := { s.bus with ack := true, rdata := none }, program := afterWrite s.program }
  | .read a =>
    { s with
      bus := { s.bus with ack := true, rdata := some (s.hostRead a) }
      program := afterRead (s.hostRead a) s.program
      draws := s.draws + 1 }

/-- The host raises `req`, to be acknowledged after at least one edge (R61). -/
def State.request (s : State) (acc : Access) : State :=
  { s with
    bus := { s.bus with request := some acc }, ackLeft := Config.ackDelay s.draws, draws := s.draws + 1 }

/-- The edge in which no request is outstanding: the host begins its next operation at once (DESIGN CHOICE, log entry
10), or waits. -/
def State.issue (s : State) : State :=
  match s.program with
  | [] => s
  | .write a v :: _ => s.request (.write a v)
  | .read a :: _ => s.request (.read a)
  | .poll a _ _ :: _ => s.request (.read a)
  | .waitIrq :: rest => if s.irq then { s with program := rest } else s
  | .reset _ :: _ => { s with bus := { s.bus with rst := true } }

/-- The host's part of one edge. -/
def State.hostEdge (s : State) : State :=
  match s.bus.request with
  | none => s.issue
  | some acc => if s.ackLeft = 0 then s.acknowledge acc else { s with ackLeft := s.ackLeft - 1 }

end Sys2Proof.Machine
end

