-- ==== Sys2Proof/Machine/Step.lean ====
section
/-! DEFINITION. One rising edge of the clock, in which at most one agent acts (spec/20_memory.md R60, R81, R82). -/

namespace Sys2Proof.Machine

/-- One rising edge. `rst` comes first (R270). A running command whose time has come completes (R240). Otherwise the
host's part of the edge takes place, and a running command comes one edge nearer to its completion (R283). -/
def step (s : State) : Host.Outcome State Fault Refusal :=
  if s.bus.rst then .next s.resetEdge
  else
    match s.phase with
    | .idle => .next s.quiet.hostEdge
    | .busy op _ =>
      if s.latencyLeft = 0 then exec op s.quiet
      else .next { s.quiet with latencyLeft := s.latencyLeft - 1 }.hostEdge

/-- `s` with the command word accepted and its completion due, so that the very next step runs it: the block fetches
nothing (R21), and a command comes to run by a host write to CMD, for which this stands. -/
def State.withFetchWord (s : State) (nbits w : Nat) : State :=
  { s.accept (BitVec.ofNat 32 (w % 2 ^ nbits)) 0 with bus := { s.bus with rst := false } }

end Sys2Proof.Machine
end

