-- ==== Sys2Proof/Machine/HostProgram.lean ====
section
/-! DEFINITION. Host programs (spec/30_encoding.md R106, R107): the addresses their notation names, the expansions of
the pseudo-instructions, and the sequences that stand for the API (spec/00_scope.md R6). -/

namespace Sys2Proof.Machine

/-! ### Addresses (R65, R106) -/

def addrCMD : Addr := 0x00004#19
def addrSTATUS : Addr := 0x00005#19
def addrIRQEN : Addr := 0x00009#19
def addrMSGLEN : Addr := 0x0000C#19
def addrBITLEN : Addr := 0x0000D#19
def addrFREQ (s : Byte) : Addr := 0x00100#19 + s.setWidth 19
def addrCODELEN (s : Byte) : Addr := 0x00200#19 + s.setWidth 19
def addrCODEBITS (s : Byte) (w : Nat) : Addr := BitVec.ofNat 19 (0x00400 + 8 * s.toNat + w)
def addrNODE (i f : Nat) : Addr := BitVec.ofNat 19 (0x01000 + 4 * i + f)
def addrMSG (i : Nat) : Addr := BitVec.ofNat 19 (0x10000 + i)
def addrDEC (i : Nat) : Addr := BitVec.ofNat 19 (0x20000 + i)
def addrBITS (i : Nat) : Addr := BitVec.ofNat 19 (0x40000 + i)

/-! ### Pseudo-instructions (R107) -/

/-- `NOP`, `BUILD`, `GENCODE`, `ENCODE`, `DECODE`, `CLEAR`, or an illegal word: `WR CMD, w`. -/
def opCommand (i : Instr) : HostOp := .write addrCMD (Sys2Proof.encode i)

/-- `WAIT`: poll STATUS until BUSY = 0. -/
def opWait : HostOp := .poll addrSTATUS 0x1#32 0x0#32

/-- `RUN <cmd>` -/
def progRun (i : Instr) : List HostOp := [opCommand i, opWait]

/-- `WR base+i, v` for consecutive values. -/
def writesFrom (addr : Nat → Addr) : Nat → List Word → List HostOp
  | _, [] => []
  | i, v :: vs => .write (addr i) v :: writesFrom addr (i + 1) vs

/-- `LOADMSG "<text>"` -/
def progLoadMsg (text : List Byte) : List HostOp :=
  writesFrom addrMSG 0 (text.map zext) ++ [.write addrMSGLEN (BitVec.ofNat 32 text.length)]

/-- `LOADFREQ` of the listed entries. -/
def progLoadFreq (entries : List (Byte × Word)) : List HostOp :=
  entries.map (fun e => .write (addrFREQ e.1) e.2)

/-- `LOADBITS "<0/1 text>"` -/
def progLoadBits (text : List Bool) : List HostOp :=
  writesFrom addrBITS 0 (text.map (fun b => if b then 0x31#32 else 0x30#32)) ++
    [.write addrBITLEN (BitVec.ofNat 32 text.length)]

/-! ### The API as programs (R6) -/

/-- The message's counts, as entries for the symbols that occur. -/
def countsOf (message : List Byte) : List (Byte × Word) :=
  message.dedup.map (fun c => (c, BitVec.ofNat 32 (message.count c)))

/-- `encode(message)` from a FREQ table of zeros: load, BUILD, GENCODE, ENCODE (R6). -/
def progEncode (message : List Byte) : List HostOp :=
  progLoadFreq (countsOf message) ++ progLoadMsg message ++ progRun .build ++ progRun .gencode ++ progRun .encode

/-- `decode(bit-string, tree)` with the tree of the last successful BUILD (R6). -/
def progDecode (bits : List Bool) : List HostOp := progLoadBits bits ++ progRun .decode

/-- The boot sequence after reset: CLEAR and wait (R275). -/
def progBoot : List HostOp := progRun .clear

end Sys2Proof.Machine
end

