-- ==== Sys2Proof/Safety.lean ====
section
/-! DEFINITION. The terms in which claims speak: legal sizes, trees and codewords (spec/41_tree_builder.md R130,
spec/42_code_table.md R152), what a bit-string parses to (spec/44_decoder.md R193), the invariant of the machine, and
when a host program has ended (spec/70_reset_and_hazards.md R285). -/

namespace Sys2Proof.Machine

/-- The legal ranges of the two open sizes (R12, R13). -/
abbrev Params.legal (p : Params) : Prop :=
  1 ≤ p.msgDepth ∧ p.msgDepth ≤ Config.msgDepthMax ∧ 1 ≤ p.bitDepth ∧ p.bitDepth ≤ Config.bitDepthMax

/-! ### Trees -/

/-- Node `j` is a child of node `i`. -/
def IsParent (look : Nat → Option Node) (i j : Nat) : Prop :=
  ∃ nd, look i = some nd ∧ nd.leaf = false ∧ (nd.left.toNat = j ∨ nd.right.toNat = j)

/-- A tree of `n` leaves in the node slots 0 to `2n - 2` (R130), its leaves in ascending symbol order (R123). `look`
reads a slot. -/
structure TreeShape (look : Nat → Option Node) (n : Nat) : Prop where
  /-- at least one leaf, at most one for each symbol -/
  count : 1 ≤ n ∧ n ≤ Config.nsym
  /-- R130 (a) -/
  leaf : ∀ i < n, ∃ nd, look i = some nd ∧ nd.leaf = true ∧ nd.left = Config.nil ∧ nd.right = Config.nil
  /-- R130 (b), (e) -/
  internal : ∀ i, n ≤ i → i < 2 * n - 1 → ∃ nd, look i = some nd ∧ nd.leaf = false ∧ nd.sym = 0#8 ∧
    nd.left.toNat < i ∧ nd.right.toNat < i ∧ nd.left ≠ nd.right
  /-- R130 (c) -/
  sum : ∀ i nd l r, n ≤ i → i < 2 * n - 1 → look i = some nd → look nd.left.toNat = some l →
    look nd.right.toNat = some r → nd.freq.toNat = l.freq.toNat + r.freq.toNat
  /-- R130 (d): every node other than the root has exactly one parent -/
  parent : ∀ j < 2 * n - 2, ∃ i, i < 2 * n - 1 ∧ IsParent look i j ∧
    ∀ i', i' < 2 * n - 1 → IsParent look i' j → i' = i
  /-- R130 (d): the root has none -/
  rootTop : ∀ i < 2 * n - 1, ¬ IsParent look i (2 * n - 2)
  /-- R123 -/
  ascending : ∀ i j ni nj, i < j → j < n → look i = some ni → look j = some nj → ni.sym.toNat < nj.sym.toNat

/-- Node `j` is in the priority structure when node `i` is created: it exists, and no node before `i` has it as a child
(R120, R124). -/
def Waiting (look : Nat → Option Node) (i j : Nat) : Prop := j < i ∧ ∀ k < i, ¬ IsParent look k j

/-- The key (frequency, index) of node `a` is less than that of node `b` (R18, R122). -/
def KeyBefore (look : Nat → Option Node) (a b : Nat) : Prop :=
  ∃ na nb, look a = some na ∧ look b = some nb ∧
    (na.freq.toNat < nb.freq.toNat ∨ (na.freq.toNat = nb.freq.toNat ∧ a < b))

/-- The node that a path of branches leads to: `false` is left, `true` is right (R152). A leaf has no branch. -/
def follow (look : Nat → Option Node) : Nat → List Bool → Option Nat
  | i, [] => some i
  | i, b :: path =>
    match look i with
    | none => none
    | some nd => if nd.leaf then none else follow look (if b then nd.right.toNat else nd.left.toNat) path

/-- `p` is the code of symbol `s` under the tree with the given root: the path to its leaf (R152), or the placeholder
`0` if that leaf is the root (R151). -/
def Codeword (look : Nat → Option Node) (root : Nat) (s : Byte) (p : List Bool) : Prop :=
  ∃ i nd, look i = some nd ∧ nd.leaf = true ∧ nd.sym = s ∧
    ((i = root ∧ p = [false]) ∨ (p ≠ [] ∧ follow look root p = some i))

/-- The code store holds the code table of the tree: for every symbol its codeword, and no code for a symbol that has
none (R153). -/
def IsCodeTable (look : Nat → Option Node) (root : Nat) (code : Store Code) : Prop :=
  ∀ s : Byte, ∃ c, Store.read code s.toNat = some c ∧ ∀ p, p ≠ [] → (c.bits = p ↔ Codeword look root s p)

/-- `bits` is the concatenation of codes of the symbols `syms`, in order (R173, R201). -/
def CodedAs (look : Nat → Option Node) (root : Nat) (syms : List Byte) (bits : List Bool) : Prop :=
  ∃ ps, List.Forall₂ (Codeword look root) syms ps ∧ bits = ps.flatten

/-- `path` is a path from the root that ends at no leaf: what a walk has open after a code and before the next (R193,
R196). -/
def OpenPath (look : Nat → Option Node) (root : Nat) (path : List Bool) : Prop :=
  path = [] ∨ ∃ i nd, follow look root path = some i ∧ look i = some nd ∧ nd.leaf = false

/-- The cells of BITS hold the bits, from index 0 on (R64). -/
def BitsHold (st : List Host.Cell) (bits : List Bool) : Prop :=
  ∀ (j : Nat) (b : Bool), bits[j]? = some b → Store.read st j = some (cellOf b)

/-- The array holds the values, from index 0 on. -/
def Holds {α : Type} (st : Store α) (vs : List α) : Prop :=
  ∀ (j : Nat) (v : α), vs[j]? = some v → Store.read st j = some v

/-! ### The inputs of the commands -/

/-- The sum of a frequency table, unbounded (R121). -/
def freqSum (fs : List Word) : Nat := (fs.map BitVec.toNat).sum

/-- The number of symbols whose entry is not 0: the leaves of the tree (R37, R123). -/
abbrev leafNumber (fs : List Word) : Nat := fs.countP (fun f => f != 0#32)

/-- FREQ holds the table `fs`, which passes BUILD's checks (R121). -/
structure Buildable (x : Inputs) (fs : List Word) : Prop where
  size : fs.length = 256
  table : Holds x.freq fs
  occupied : 0 < leafNumber fs
  fits : freqSum fs ≤ 0xFFFFFFFF

/-- The tree of `n` leaves that a command walks (R35, R130). -/
structure Walkable (x : Inputs) (n : Nat) : Prop where
  valid : x.treeValid = true
  shape : TreeShape (Store.read x.node) n
  root : x.root.toNat = 2 * n - 2

/-- The code store has the code `b` for the symbol `c` (R153). -/
def HasCode (st : Store Code) (c : Byte) (b : List Bool) : Prop :=
  Store.read st c.toNat = some { bits := b } ∧ b ≠ []

/-- ENCODE's checking pass has accepted the symbols `m`, whose codes are `codes` (R171, R172, R174). -/
structure EncodeAt (p : Params) (x : Inputs) (m : List Byte) (codes : List (List Bool)) : Prop where
  valid : x.codesValid = true
  range : x.msgLen.toNat ≤ p.msgDepth
  symbols : Holds x.msg m
  coded : List.Forall₂ (HasCode x.code) m codes
  fits : codes.flatten.length ≤ p.bitDepth

/-- DECODE has consumed the cells of `read`, the codes of `syms`, and then those of `path`, which ends at no leaf (R191,
R193). -/
structure DecodeAt (p : Params) (x : Inputs) (syms : List Byte) (read path : List Bool) : Prop where
  valid : x.treeValid = true
  range : x.bitLen.toNat ≤ p.bitDepth
  room : syms.length ≤ p.msgDepth
  coded : CodedAs (Store.read x.node) x.root.toNat syms read
  opened : OpenPath (Store.read x.node) x.root.toNat path
  cells : BitsHold x.bits (read ++ path)

/-- The reserved addresses (R65). -/
def Params.reserved (p : Params) (a : Nat) : Prop :=
  a = 0x0000A ∨ a = 0x0000B ∨ a = 0x0000F ∨ (0x00013 ≤ a ∧ a ≤ 0x000FF) ∨ (0x00300 ≤ a ∧ a ≤ 0x003FF) ∨
  (0x00C00 ≤ a ∧ a ≤ 0x00FFF) ∨ (0x01800 ≤ a ∧ a ≤ 0x0FFFF) ∨ (0x10000 + p.msgDepth ≤ a ∧ a ≤ 0x1FFFF) ∨
  (0x20000 + p.msgDepth ≤ a ∧ a ≤ 0x2FFFF) ∨ (0x30000 ≤ a ∧ a ≤ 0x3FFFF) ∨ 0x40000 + p.bitDepth ≤ a

/-- The read-only addresses (the column `host` of R65). -/
def Params.readOnly (p : Params) (a : Nat) : Prop :=
  a ≤ 0x00003 ∨ (0x00006 ≤ a ∧ a ≤ 0x00008) ∨ a = 0x0000E ∨ (0x00010 ≤ a ∧ a ≤ 0x00012) ∨
  (0x00200 ≤ a ∧ a ≤ 0x002FF) ∨ (0x00400 ≤ a ∧ a ≤ 0x00BFF) ∨ (0x01000 ≤ a ∧ a ≤ 0x017FF) ∨
  (0x20000 ≤ a ∧ a < 0x20000 + p.msgDepth)

/-- A command accepted in this state and run to its completion (R240), with no host access in between. -/
def State.command (s : State) (i : Instr) : Host.Outcome State Fault Refusal :=
  exec i (s.accept (Sys2Proof.encode i) 0)

/-! ### The invariant of the machine -/

/-- TREE_VALID, ROOT, NODE_COUNT, LEAF_COUNT and NODE agree (R35 to R37, R130). -/
def TreeInv (s : State) : Prop :=
  if s.treeValid then
    ∃ n, TreeShape (Store.read s.mem.node) n ∧ s.leafCount.toNat = n ∧ s.nodeCount.toNat = 2 * n - 1 ∧
      s.root.toNat = 2 * n - 2
  else s.root = Config.nil ∧ s.nodeCount = 0#10 ∧ s.leafCount = 0#9

/-- CODES_VALID = 1 only over a tree (R154), and then CODE is the code table of the current tree (R27, R153). -/
def CodesInv (s : State) : Prop :=
  s.codesValid = true →
    s.treeValid = true ∧ IsCodeTable (Store.read s.mem.node) s.root.toNat s.mem.code

/-- A running command works from the inputs at its acceptance, which are the inputs as they still stand (R87); DONE,
ERR and the error record are clear while it runs (R240). -/
def PhaseInv (s : State) : Prop :=
  ∀ op x, s.phase = .busy op x → x = s.currentInputs ∧ s.done = false ∧ s.err = false

/-- ERR says whether the error record holds an error (R27, R28). -/
def ErrInv (s : State) : Prop :=
  if s.err then s.errRec.code ≠ .none else s.errRec = ErrRec.zero

/-- The access the host's current operation asks for. -/
def HostOp.access : HostOp → Option Access
  | .write a v => some (.write a v)
  | .read a => some (.read a)
  | .poll a _ _ => some (.read a)
  | .waitIrq => none
  | .reset _ => none

/-- A request that waits for its acknowledge is the host's current operation (R61); no request is held while `rst` = 1
(R272, log entries 10 and 17); `ack` = 1 only while its request is held, and `rdata` has a value only with it (R60, R61). -/
def HostInv (s : State) : Prop :=
  (∀ acc, s.bus.request = some acc →
    s.bus.rst = false ∧ (s.bus.ack = false → s.program.head?.bind HostOp.access = some acc)) ∧
  (s.bus.rst = true → ∃ k rest, s.program = .reset k :: rest) ∧
  (s.bus.ack = true → ∃ acc, s.bus.request = some acc) ∧
  (s.bus.ack = false → s.bus.rdata = none)

/-- The invariant of the machine. -/
structure Inv (s : State) : Prop where
  params : s.params.legal
  mem : Memory.wf s.params s.mem
  tree : TreeInv s
  codes : CodesInv s
  phase : PhaseInv s
  err : ErrInv s
  /-- DEC_LEN never exceeds MSG_DEPTH (R34) -/
  dec : s.decLen.toNat ≤ s.params.msgDepth
  host : HostInv s

/-! ### Runs -/

/-- No line of the host program that is left makes an access: a WAITIRQ is none (R107), nor is a pulse of `rst`. -/
abbrev NoAccessLeft (ops : List HostOp) : Prop := ∀ op ∈ ops, op.access = none

/-- A host program has ended: its last access is performed and PHASE = IDLE (R285). The last access is performed on the
edge of its `ack` (R61). -/
def State.ended (s : State) : Prop := NoAccessLeft s.program ∧ s.outstanding = none ∧ s.phase = .idle

/-- The result of a program that has ended: what the host could read then (R285). -/
def State.result (s : State) (a : Addr) : Word := s.hostRead a

/-- The run from `s` ends after `k` steps, in `t`: `t` is its first state in which the program has ended (R285). -/
def EndsAfter (k : Nat) (s t : State) : Prop :=
  Host.Core.run Sys2Proof.core k s = .next t ∧ t.ended ∧
    ∀ j u, j < k → Host.Core.run Sys2Proof.core j s = .next u → ¬ u.ended

/-- `k` steps reach a next state: no command read an element that nothing has written (U1). -/
def SafeFor (k : Nat) (s : State) : Prop :=
  match k with
  | 0 => True
  | k + 1 => ∃ t, step s = .next t ∧ SafeFor k t

end Sys2Proof.Machine
end

