-- ==== Sys2Proof/WellFormed.lean ====
section
/-! DEFINITION. Which terms of `Instr` stand for a command word (spec/30_encoding.md R100, R104). -/

namespace Sys2Proof

/-- An instruction is well formed iff its words exist: an `illegal w` must carry an illegal word. -/
def Instr.wellFormed : Instr → Bool
  | .nop => true
  | .build => true
  | .gencode => true
  | .encode => true
  | .decode => true
  | .clear => true
  | .illegal w => illegalWord w

end Sys2Proof
end

