-- ==== Sys2Proof/Certificates/Slice0/Obligations.lean ====
section
/-! DEFINITION. The statements for the provers. Each docstring names the rules of spec/ that its statement formalises.
A free value is never assumed to have a value; where a statement follows the model's own reading, it names the log entry. -/

open Sys2Proof Sys2Proof.Machine

/-! ### Encoding -/

/-- R103: each command has exactly one legal word; R104: other words are illegal. Words written out from the table. -/
def Obligations.CommandWordsDecode : Prop :=
  decode 0b00000000000000000000000000000000#32 = .nop ∧
  decode 0b00000000000000000000000000000001#32 = .build ∧
  decode 0b00000000000000000000000000000010#32 = .gencode ∧
  decode 0b00000000000000000000000000000011#32 = .encode ∧
  decode 0b00000000000000000000000000000100#32 = .decode ∧
  decode 0b00000000000000000000000000000101#32 = .clear ∧
  decode 0b00000000000000000000000000000110#32 = .illegal 0b00000000000000000000000000000110#32 ∧
  decode 0b00000000000000000000000000010001#32 = .illegal 0b00000000000000000000000000010001#32

/-- R100: RSVD = `w[31:4]` is checked first, then OPCODE = `w[3:0]` selects the command. -/
def Obligations.DecodeFollowsTheOpcodeMap : Prop :=
  ∀ w : Word,
    (w.toNat / 16 ≠ 0 → decode w = .illegal w ∧ illegalSub w = 2#8) ∧
    (w.toNat / 16 = 0 → w.toNat % 16 = 0x0 → decode w = .nop) ∧
    (w.toNat / 16 = 0 → w.toNat % 16 = 0x1 → decode w = .build) ∧
    (w.toNat / 16 = 0 → w.toNat % 16 = 0x2 → decode w = .gencode) ∧
    (w.toNat / 16 = 0 → w.toNat % 16 = 0x3 → decode w = .encode) ∧
    (w.toNat / 16 = 0 → w.toNat % 16 = 0x4 → decode w = .decode) ∧
    (w.toNat / 16 = 0 → w.toNat % 16 = 0x5 → decode w = .clear) ∧
    (w.toNat / 16 = 0 → 0x6 ≤ w.toNat % 16 → decode w = .illegal w ∧ illegalSub w = 1#8)

/-- Decoding the word of a well-formed instruction gives the instruction (R103, R104). -/
def Obligations.DecodeOfEncodeIsIdentity : Prop :=
  ∀ i : Instr, i.wellFormed = true → decode (encode i) = i

/-- Every word decodes to a well-formed instruction whose word it is: a word has one meaning (R103, R105). -/
def Obligations.EncodeOfDecodeIsIdentity : Prop :=
  ∀ w : Word, (decode w).wellFormed = true ∧ encode (decode w) = w

/-! ### The clock edge -/

/-- One edge: reset first, then the completion of a command whose time has come, else the host's part of the edge
(R240, R270; the model's order of the two agents is log entry 1). -/
def Obligations.StepRunsTheAcceptedCommand : Prop :=
  ∀ s : State,
    (s.bus.rst = true → step s = .next s.resetEdge) ∧
    (s.bus.rst = false → s.phase = .idle → step s = .next s.quiet.hostEdge) ∧
    (∀ op x, s.bus.rst = false → s.phase = .busy op x → s.latencyLeft = 0 →
      step s = exec op s.quiet ∧ s.quiet.inputs = x) ∧
    (∀ op x k, s.bus.rst = false → s.phase = .busy op x → s.latencyLeft = k + 1 →
      step s = .next { s.quiet with latencyLeft := k }.hostEdge)

/-- The decoder's instruction of a word offered to CMD is the one that runs (R71, R100; log entry 7 for
`withFetchWord`). -/
def Obligations.FetchedWordRunsNext : Prop :=
  ∀ (s : State) (w : Word),
    decodeTableWord 32 w.toNat = some (decode w) ∧
    (s.withFetchWord 32 w.toNat).inputs = s.currentInputs ∧
    step (s.withFetchWord 32 w.toNat) = exec (decode w) (s.withFetchWord 32 w.toNat).quiet

/-- R240, `Accept`, with its frame: a CMD write in IDLE is accepted, whatever the word (R71). The wait and the counter
of free values are the model's own (log entry 1). -/
def Obligations.CommandIsAccepted : Prop :=
  ∀ (s : State) (w : Word), s.phase = .idle →
    ∃ wait draws, s.hostWrite addrCMD w =
      { s with
        phase := .busy (decode w) s.currentInputs, done := false, err := false, errRec := ErrRec.zero
        latencyLeft := wait, draws := draws }

/-- R14, R283: the wait is bounded by a function of the command and the input lengths, and every accepted command
reaches its completion step: after `latencyLeft` edges (the model's count of them, log entry 1), in which it keeps its
operation and inputs, comes exec of it. What that step answers is said by `CompletionUnderTheInvariant`; a host program
that holds a reset is left to `ResetEdge`. -/
def Obligations.EveryCommandReachesItsCompletion : Prop :=
  (∃ bound : Word → Nat → Nat → Nat → Nat, ∀ (s : State) (w : Word), s.phase = .idle →
    (s.hostWrite addrCMD w).latencyLeft ≤ bound w s.nodeCount.toNat s.msgLen.toNat s.bitLen.toNat) ∧
  ∀ (s : State) (op : Instr) (x : Inputs), s.phase = .busy op x → s.bus.rst = false →
    (∀ k, HostOp.reset k ∉ s.program) →
    ∃ u : State, Host.Core.run Sys2Proof.core s.latencyLeft s = .next u ∧ u.phase = .busy op x ∧
      step u = exec op u.quiet ∧ u.quiet.inputs = x ∧
      ∀ t, step u = .next t → t.phase = .idle ∧ t.done = true

/-- R240, U1, D36: from a state of the invariant the completion of a running command answers a next state, or ends the
run at an element of FREQ, MSG or BITS that nothing has written; no other fault arises there (log entry 12). -/
def Obligations.CompletionUnderTheInvariant : Prop :=
  ∀ (i : Instr) (s : State) (x : Inputs), Inv s → s.phase = .busy i x →
    (∃ t, exec i s = .next t ∧ t.phase = .idle ∧ t.done = true) ∨
    (i = .build ∧ ∃ k, k < 256 ∧ Store.read s.mem.freq k = none ∧ exec i s = .fault (.unwrittenFreq k)) ∨
    (i = .encode ∧ ∃ k, k < s.msgLen.toNat ∧ Store.read s.mem.msg k = none ∧ exec i s = .fault (.unwrittenMsg k)) ∨
    (i = .decode ∧ ∃ k, k < s.bitLen.toNat ∧ Store.read s.mem.bits k = none ∧ exec i s = .fault (.unwrittenBits k))

/-- R244: `irq` is DONE and DONE_IE; every completion raises it if it is enabled, a W1C write of DONE and an acceptance
drop it, and a write of 0 to DONE_IE masks it. -/
def Obligations.InterruptLine : Prop :=
  (∀ s : State, s.irq = (s.done && s.doneIE)) ∧
  (∀ (i : Instr) (s t : State), exec i s = .next t → t.irq = s.doneIE) ∧
  (∀ (s : State) (v : Word), v.getLsbD 1 = true → (s.hostWrite addrSTATUS v).irq = false) ∧
  (∀ (s : State) (w : Word), s.phase = .idle → (s.hostWrite addrCMD w).irq = false) ∧
  (∀ (s : State) (v : Word), (s.hostWrite addrIRQEN v).irq = (s.done && v.getLsbD 0))

/-! ### Control commands -/

/-- R220, with its frame. The second clause: acceptance cleared the error record, so NOP leaves it 0. -/
def Obligations.NopCompletes : Prop :=
  (∀ s : State, exec .nop s = .next { s with phase := .idle, done := true, err := false }) ∧
  (∀ s : State, ∃ t, s.command .nop = .next t ∧
    t = { s with phase := .idle, done := true, err := false, errRec := ErrRec.zero, latencyLeft := 0 })

/-- R221, with its frame: FREQ is all 0, the tree, the code table and DEC_LEN are discarded, nothing else changes. -/
def Obligations.ClearDiscards : Prop :=
  ∀ s : State, ∃ t, exec .clear s = .next t ∧
    t = { s with
          phase := .idle, done := true, err := false, treeValid := false, codesValid := false
          root := 0x1FF#9, nodeCount := 0#10, leafCount := 0#9, decLen := 0#32
          mem := { s.mem with freq := t.mem.freq } } ∧
    (∀ k, k < 256 → Store.read t.mem.freq k = some 0#32) ∧
    (∀ k, 256 ≤ k → Store.read t.mem.freq k = Store.read s.mem.freq k)

/-- R222, with its frame: an illegal word fails with ILLEGAL_COMMAND, SUB 2 if `w[31:4] != 0`, else SUB 1, and ERR_INFO
is the whole word. -/
def Obligations.IllegalWordFails : Prop :=
  ∀ (s : State) (w : Word), exec (.illegal w) s = .next
    { s with
      phase := .idle, done := true, err := true
      errRec := { code := .illegalCommand, sub := if w.toNat / 16 ≠ 0 then 2#8 else 1#8, pos := 0#32, info := w } }

/-! ### Errors and frames -/

/-- R241: a command that ends with ERR = 1 changed STATUS.BUSY, DONE, ERR and the error record, and nothing else. -/
def Obligations.FailedCommandKeepsState : Prop :=
  ∀ (i : Instr) (s t : State), exec i s = .next t → t.err = true →
    t = { s with phase := .idle, done := true, err := true, errRec := t.errRec } ∧ t.errRec.code ≠ .none

/-- What a completion can change, command by command (the outputs of R102). -/
def Obligations.CommandFrame : Prop :=
  ∀ (i : Instr) (s t : State), exec i s = .next t →
    t.phase = .idle ∧ t.done = true ∧ t.params = s.params ∧ t.accErr = s.accErr ∧ t.doneIE = s.doneIE ∧
    t.msgLen = s.msgLen ∧ t.mem.msg = s.mem.msg ∧ t.bus = s.bus ∧ t.program = s.program ∧
    t.latencyLeft = s.latencyLeft ∧ t.ackLeft = s.ackLeft ∧ t.draws = s.draws ∧ t.resets = s.resets ∧
    (t.err = false → t.errRec = s.errRec) ∧
    (i ≠ .clear → t.mem.freq = s.mem.freq) ∧
    (i ≠ .build → t.mem.node = s.mem.node) ∧
    (i ≠ .build → i ≠ .clear → t.root = s.root ∧ t.nodeCount = s.nodeCount ∧ t.leafCount = s.leafCount ∧
      t.treeValid = s.treeValid) ∧
    (i ≠ .gencode → t.mem.code = s.mem.code) ∧
    (i ≠ .build → i ≠ .gencode → i ≠ .clear → t.codesValid = s.codesValid) ∧
    (i ≠ .encode → t.mem.bits = s.mem.bits ∧ t.bitLen = s.bitLen) ∧
    (i ≠ .decode → t.mem.dec = s.mem.dec) ∧
    (i ≠ .decode → i ≠ .clear → t.decLen = s.decLen)

/-- U1, D36: a command that reads an element nothing has written since reset ends the run: BUILD at the first such FREQ
entry, ENCODE and DECODE when they come to it (log entry 4 for the order of the checks). -/
def Obligations.UnwrittenInputStops : Prop :=
  (∀ (s : State) (k : Nat), k < 256 → Store.read s.inputs.freq k = none →
    (∀ j, j < k → Store.read s.inputs.freq j ≠ none) → exec .build s = .fault (.unwrittenFreq k)) ∧
  (∀ (s : State) (m : List Byte) (codes : List (List Bool)), EncodeAt s.params s.inputs m codes →
    m.length < s.inputs.msgLen.toNat → Store.read s.inputs.msg m.length = none →
    exec .encode s = .fault (.unwrittenMsg m.length)) ∧
  (∀ (s : State) (syms : List Byte) (read path : List Bool), DecodeAt s.params s.inputs syms read path →
    (read ++ path).length < s.inputs.bitLen.toNat → Store.read s.inputs.bits (read ++ path).length = none →
    exec .decode s = .fault (.unwrittenBits (read ++ path).length))

/-! ### BUILD -/

/-- R121: EMPTY_INPUT if every entry is 0; else FREQ_OVERFLOW at the first symbol at which the running sum exceeds
0xFFFFFFFF. -/
def Obligations.BuildChecksItsInput : Prop :=
  (∀ s : State, (∀ k, k < 256 → Store.read s.inputs.freq k = some 0#32) →
    exec .build s = .next
      { s with
        phase := .idle, done := true, err := true
        errRec := { code := .emptyInput, sub := 1#8, pos := 0#32, info := 0#32 } }) ∧
  (∀ (s : State) (fs : List Word) (k : Nat), fs.length = 256 → Holds s.inputs.freq fs → k < 256 →
    freqSum (fs.take k) ≤ 0xFFFFFFFF → 0xFFFFFFFF < freqSum (fs.take (k + 1)) →
    exec .build s = .next
      { s with
        phase := .idle, done := true, err := true
        errRec :=
          { code := .freqOverflow, sub := 0#8, pos := BitVec.ofNat 32 k, info := BitVec.ofNat 32 (leafNumber fs) } })

/-- R125, R126, R127, with the frame: with `n` symbols present, BUILD sets ROOT to 2n - 2, NODE_COUNT to 2n - 1 and
LEAF_COUNT to n, TREE_VALID to 1, CODES_VALID to 0, and writes only the slots 0 to 2n - 2. -/
def Obligations.BuildSucceeds : Prop :=
  ∀ (s : State) (fs : List Word) (n : Nat), Buildable s.inputs fs → n = leafNumber fs →
    ∃ t, exec .build s = .next t ∧
      t = { s with
            phase := .idle, done := true, err := false, treeValid := true, codesValid := false
            root := BitVec.ofNat 9 (2 * n - 2), nodeCount := BitVec.ofNat 10 (2 * n - 1)
            leafCount := BitVec.ofNat 9 n, mem := { s.mem with node := t.mem.node } } ∧
      (∀ i, i < 2 * n - 1 → ∃ nd, Store.read t.mem.node i = some nd) ∧
      (∀ i, 2 * n - 1 ≤ i → Store.read t.mem.node i = Store.read s.mem.node i)

/-- R123: the symbol `k` with a nonzero entry `f` is the leaf whose index is the number of such symbols below `k`. -/
def Obligations.BuildMakesTheLeaves : Prop :=
  ∀ (s : State) (fs : List Word), Buildable s.inputs fs →
    ∃ t, exec .build s = .next t ∧
      ∀ (k : Nat) (f : Word), fs[k]? = some f → f ≠ 0#32 →
        Store.read t.mem.node (leafNumber (fs.take k)) =
          some { freq := f, leaf := true, sym := BitVec.ofNat 8 k, left := 0x1FF#9, right := 0x1FF#9 }

/-- R130: the structural invariant of the tree BUILD leaves. -/
def Obligations.BuildLeavesATree : Prop :=
  ∀ (s : State) (fs : List Word) (n : Nat), Buildable s.inputs fs → n = leafNumber fs →
    ∃ t, exec .build s = .next t ∧ TreeShape (Store.read t.mem.node) n ∧
      t.nodeCount.toNat = 2 * n - 1 ∧ t.leafCount.toNat = n ∧ t.root.toNat = 2 * n - 2

/-- R122, R124: node `i` (n ≤ i) has as children the two nodes with the least keys (frequency, index) among those that
wait when it is created: the least is `left`, the next is `right`, and its frequency is their sum. After n - 1 merges one
node waits, the root, and there are 2n - 1 nodes. -/
def Obligations.MergesTakeTheLeastKeys : Prop :=
  ∀ (s : State) (fs : List Word) (n : Nat), Buildable s.inputs fs → n = leafNumber fs →
    ∃ t, exec .build s = .next t ∧ t.nodeCount.toNat = 2 * n - 1 ∧ t.root.toNat = 2 * n - 2 ∧
      (∀ j, Waiting (Store.read t.mem.node) (2 * n - 1) j ↔ j = 2 * n - 2) ∧
      ∀ i, n ≤ i → i < 2 * n - 1 →
        ∃ nd l r, Store.read t.mem.node i = some nd ∧ nd.leaf = false ∧
          Store.read t.mem.node nd.left.toNat = some l ∧ Store.read t.mem.node nd.right.toNat = some r ∧
          nd.freq.toNat = l.freq.toNat + r.freq.toNat ∧
          Waiting (Store.read t.mem.node) i nd.left.toNat ∧ Waiting (Store.read t.mem.node) i nd.right.toNat ∧
          KeyBefore (Store.read t.mem.node) nd.left.toNat nd.right.toNat ∧
          ∀ j, Waiting (Store.read t.mem.node) i j → j ≠ nd.left.toNat → j ≠ nd.right.toNat →
            KeyBefore (Store.read t.mem.node) nd.right.toNat j

/-- R131: the root's frequency is the sum of all FREQ entries, and no node's is larger. -/
def Obligations.RootFrequencyIsTheTotal : Prop :=
  ∀ (s : State) (fs : List Word) (n : Nat), Buildable s.inputs fs → n = leafNumber fs →
    ∃ t r, exec .build s = .next t ∧ Store.read t.mem.node t.root.toNat = some r ∧
      r.freq.toNat = freqSum fs ∧ freqSum fs ≤ 0xFFFFFFFF ∧
      ∀ i nd, i < 2 * n - 1 → Store.read t.mem.node i = some nd → nd.freq.toNat ≤ r.freq.toNat

/-- R133: the frequencies of the internal nodes do not decrease with the index, and the height is at most n - 1. -/
def Obligations.MergeOrder : Prop :=
  ∀ (s : State) (fs : List Word) (n : Nat), Buildable s.inputs fs → n = leafNumber fs →
    ∃ t, exec .build s = .next t ∧
      (∀ i nd nd', n ≤ i → i + 1 < 2 * n - 1 → Store.read t.mem.node i = some nd →
        Store.read t.mem.node (i + 1) = some nd' → nd.freq.toNat ≤ nd'.freq.toNat) ∧
      (∀ p j, follow (Store.read t.mem.node) t.root.toNat p = some j → p.length ≤ n - 1)

/-! ### GENCODE -/

/-- R154, with its frame: without a tree GENCODE fails with NOT_READY, SUB 1, and CODES_VALID, which stays, is 0 then. -/
def Obligations.GencodeNeedsATree : Prop :=
  (∀ s : State, s.inputs.treeValid = false → exec .gencode s = .next
    { s with
      phase := .idle, done := true, err := true
      errRec := { code := .notReady, sub := 1#8, pos := 0#32, info := 0#32 } }) ∧
  (∀ s : State, Inv s → s.treeValid = false → s.codesValid = false)

/-- R151, R152, R153, with the frame: CODE becomes the code table of the tree, and CODES_VALID = 1. -/
def Obligations.GencodeMakesTheCodeTable : Prop :=
  ∀ (s : State) (n : Nat), Walkable s.inputs n →
    ∃ t, exec .gencode s = .next t ∧
      t = { s with
            phase := .idle, done := true, err := false, codesValid := true
            mem := { s.mem with code := t.mem.code } } ∧
      IsCodeTable (Store.read s.inputs.node) s.inputs.root.toNat t.mem.code ∧
      (∀ k, 256 ≤ k → Store.read t.mem.code k = Store.read s.mem.code k)

/-- R151, R157: a code's length is its leaf's depth, between 1 and 255; the code of a lone leaf is `0`. -/
def Obligations.CodeLengthIsDepth : Prop :=
  ∀ (s : State) (n : Nat), Walkable s.inputs n →
    ∃ t, exec .gencode s = .next t ∧
      (∀ p i nd, follow (Store.read s.inputs.node) s.inputs.root.toNat p = some i →
        Store.read s.inputs.node i = some nd → nd.leaf = true →
        ∃ c, Store.read t.mem.code nd.sym.toNat = some c ∧ (n = 1 → c.bits = [false]) ∧
          (2 ≤ n → c.bits.length = p.length) ∧ 1 ≤ c.bits.length ∧ c.bits.length ≤ 255)

/-- R158: no code is a prefix of another. -/
def Obligations.CodesArePrefixFree : Prop :=
  ∀ (s : State) (n : Nat), Walkable s.inputs n →
    ∃ t, exec .gencode s = .next t ∧
      ∀ (a b : Byte) (ca cb : Code), Store.read t.mem.code a.toNat = some ca → Store.read t.mem.code b.toNat = some cb →
        ca.bits ≠ [] → cb.bits ≠ [] → a ≠ b → ¬ ca.bits <+: cb.bits

/-- R159: the sum of 2^(-len) over the coded symbols, in units of 2^(-255), is 1; for a lone leaf it is 1/2. -/
def Obligations.KraftSum : Prop :=
  ∀ (s : State) (n : Nat), Walkable s.inputs n →
    ∃ (t : State) (table : List Code), exec .gencode s = .next t ∧ table.length = 256 ∧ Holds t.mem.code table ∧
      (table.map (fun c => if c.bits = [] then 0 else 2 ^ (255 - c.bits.length))).sum =
        if n = 1 then 2 ^ 254 else 2 ^ 255

/-- R134, R160: over BUILD's own counts, the encoded length is the sum of the internal nodes' frequencies, and for a lone
leaf the number of symbols. -/
def Obligations.EncodedLengthIsInternalWeight : Prop :=
  ∀ (s : State) (fs : List Word) (n : Nat), Buildable s.inputs fs → n = leafNumber fs →
    ∃ (t u : State) (nodes : List Node) (table : List Code),
      exec .build s = .next t ∧ t.command .gencode = .next u ∧
      nodes.length = 2 * n - 1 ∧ Holds t.mem.node nodes ∧ table.length = 256 ∧ Holds u.mem.code table ∧
      (List.zipWith (fun f c => f.toNat * c.bits.length) fs table).sum =
        if n = 1 then freqSum fs else ((nodes.drop n).map (fun nd => nd.freq.toNat)).sum

/-! ### ENCODE -/

/-- R171, with the frame: the pre-checks in their order. -/
def Obligations.EncodePreChecks : Prop :=
  (∀ s : State, s.inputs.codesValid = false → exec .encode s = .next
    { s with
      phase := .idle, done := true, err := true
      errRec := { code := .notReady, sub := 2#8, pos := 0#32, info := 0#32 } }) ∧
  (∀ s : State, s.inputs.codesValid = true → s.params.msgDepth < s.inputs.msgLen.toNat → exec .encode s = .next
    { s with
      phase := .idle, done := true, err := true
      errRec := { code := .lengthRange, sub := 1#8, pos := 0#32, info := s.inputs.msgLen } }) ∧
  (∀ s : State, s.inputs.codesValid = true → s.inputs.msgLen = 0#32 → exec .encode s = .next
    { s with
      phase := .idle, done := true, err := true
      errRec := { code := .emptyInput, sub := 2#8, pos := 0#32, info := 0#32 } })

/-- R173, R178, with the frame: the bit-string is the concatenation of the symbols' codes, one cell 0x30 or 0x31 for
each bit, and BIT_LEN is its length; the cells above keep their values. -/
def Obligations.EncodeConcatenatesCodes : Prop :=
  ∀ (s : State) (m : List Byte) (codes : List (List Bool)), EncodeAt s.params s.inputs m codes → m ≠ [] →
    s.inputs.msgLen.toNat = m.length →
    ∃ t, exec .encode s = .next t ∧
      t = { s with
            phase := .idle, done := true, err := false, bitLen := BitVec.ofNat 32 codes.flatten.length
            mem := { s.mem with bits := t.mem.bits } } ∧
      (∀ j b, codes.flatten[j]? = some b → Store.read t.mem.bits j = some (if b then 0x31#8 else 0x30#8)) ∧
      (∀ j, codes.flatten.length ≤ j → Store.read t.mem.bits j = Store.read s.mem.bits j)

/-- R172, R174, with the frame: the first symbol in message order that has no code, or whose code does not fit in
BIT_DEPTH cells, fails the command. -/
def Obligations.EncodeReportsTheFirstBadSymbol : Prop :=
  (∀ (s : State) (m : List Byte) (codes : List (List Bool)) (c : Byte), EncodeAt s.params s.inputs m codes →
    m.length < s.inputs.msgLen.toNat → Store.read s.inputs.msg m.length = some c →
    Store.read s.inputs.code c.toNat = some { bits := [] } → exec .encode s = .next
      { s with
        phase := .idle, done := true, err := true
        errRec := { code := .symbolMissing, sub := 0#8, pos := BitVec.ofNat 32 m.length, info := zext c } }) ∧
  (∀ (s : State) (m : List Byte) (codes : List (List Bool)) (c : Byte) (b : List Bool),
    EncodeAt s.params s.inputs m codes → m.length < s.inputs.msgLen.toNat →
    Store.read s.inputs.msg m.length = some c → HasCode s.inputs.code c b →
    s.params.bitDepth < codes.flatten.length + b.length → exec .encode s = .next
      { s with
        phase := .idle, done := true, err := true
        errRec := { code := .capacity, sub := 1#8, pos := BitVec.ofNat 32 m.length,
                    info := BitVec.ofNat 32 codes.flatten.length } })

/-! ### DECODE -/

/-- R191, with the frame: the pre-checks in their order. -/
def Obligations.DecodePreChecks : Prop :=
  (∀ s : State, s.inputs.treeValid = false → exec .decode s = .next
    { s with
      phase := .idle, done := true, err := true
      errRec := { code := .notReady, sub := 1#8, pos := 0#32, info := 0#32 } }) ∧
  (∀ s : State, s.inputs.treeValid = true → s.params.bitDepth < s.inputs.bitLen.toNat → exec .decode s = .next
    { s with
      phase := .idle, done := true, err := true
      errRec := { code := .lengthRange, sub := 2#8, pos := 0#32, info := s.inputs.bitLen } })

/-- R193, R195, with the frame: a concatenation of codes decodes to its symbols, in order; the cells above keep their
values. -/
def Obligations.DecodeReadsCodes : Prop :=
  ∀ (s : State) (syms : List Byte) (bits : List Bool), DecodeAt s.params s.inputs syms bits [] →
    s.inputs.bitLen.toNat = bits.length →
    ∃ t, exec .decode s = .next t ∧
      t = { s with
            phase := .idle, done := true, err := false, decLen := BitVec.ofNat 32 syms.length
            mem := { s.mem with dec := t.mem.dec } } ∧
      Holds t.mem.dec syms ∧ (∀ j, syms.length ≤ j → Store.read t.mem.dec j = Store.read s.mem.dec j)

/-- R192, with the frame: the first cell that is not 0x30 or 0x31 fails the command. -/
def Obligations.DecodeReportsABadCell : Prop :=
  ∀ (s : State) (syms : List Byte) (read path : List Bool) (b : Byte), DecodeAt s.params s.inputs syms read path →
    (read ++ path).length < s.inputs.bitLen.toNat → Store.read s.inputs.bits (read ++ path).length = some b →
    b ≠ 0x30#8 → b ≠ 0x31#8 → exec .decode s = .next
      { s with
        phase := .idle, done := true, err := true
        errRec := { code := .malformed, sub := 1#8, pos := BitVec.ofNat 32 (read ++ path).length, info := zext b } }

/-- R194, with the frame: under a leaf root each cell 0x30 emits the root's symbol, and a cell 0x31 fails the
command. -/
def Obligations.DecodeUnderALoneLeaf : Prop :=
  ∀ (s : State) (nd : Node) (k : Nat), s.inputs.treeValid = true → s.inputs.bitLen.toNat ≤ s.params.bitDepth →
    Store.read s.inputs.node s.inputs.root.toNat = some nd → nd.leaf = true → k ≤ s.params.msgDepth →
    (∀ j, j < k → Store.read s.inputs.bits j = some 0x30#8) →
    (s.inputs.bitLen.toNat = k → ∃ t, exec .decode s = .next t ∧ t.err = false ∧ t.decLen = BitVec.ofNat 32 k ∧
      ∀ j, j < k → Store.read t.mem.dec j = some nd.sym) ∧
    (k < s.inputs.bitLen.toNat → Store.read s.inputs.bits k = some 0x31#8 → exec .decode s = .next
      { s with
        phase := .idle, done := true, err := true
        errRec := { code := .malformed, sub := 3#8, pos := BitVec.ofNat 32 k, info := 0x31#32 } })

/-- R196, with the frame: a bit-string that ends inside a code fails the command, and under two or more leaves this is
the only malformation of a string of 0x30 and 0x31 cells. -/
def Obligations.DecodeReportsATruncatedPath : Prop :=
  (∀ (s : State) (n : Nat) (syms : List Byte) (read path : List Bool), Walkable s.inputs n →
    DecodeAt s.params s.inputs syms read path → path ≠ [] → s.inputs.bitLen.toNat = (read ++ path).length →
    exec .decode s = .next
      { s with
        phase := .idle, done := true, err := true
        errRec := { code := .malformed, sub := 2#8, pos := s.inputs.bitLen, info := BitVec.ofNat 32 syms.length } }) ∧
  (∀ (s t : State) (n : Nat) (bits : List Bool), Walkable s.inputs n → 2 ≤ n → BitsHold s.inputs.bits bits →
    s.inputs.bitLen.toNat = bits.length → exec .decode s = .next t → t.err = true → t.errRec.code = .malformed →
    t.errRec.sub = 2#8)

/-- R197, with the frame: the cell that completes a code after MSG_DEPTH symbols fails the command. -/
def Obligations.DecodeReportsTooManySymbols : Prop :=
  ∀ (s : State) (syms : List Byte) (read code : List Bool) (c : Byte), DecodeAt s.params s.inputs syms read [] →
    syms.length = s.params.msgDepth → Codeword (Store.read s.inputs.node) s.inputs.root.toNat c code →
    BitsHold s.inputs.bits (read ++ code) → (read ++ code).length ≤ s.inputs.bitLen.toNat →
    exec .decode s = .next
      { s with
        phase := .idle, done := true, err := true
        errRec := { code := .capacity, sub := 2#8, pos := BitVec.ofNat 32 ((read ++ code).length - 1),
                    info := BitVec.ofNat 32 s.params.msgDepth } }

/-- R201: a string of bits decodes with success exactly if it is a concatenation of codes (of no more symbols than
MSG_DEPTH), and it is a concatenation in one way only. -/
def Obligations.DecodeIsAUniqueParse : Prop :=
  ∀ (s : State) (n : Nat) (bits : List Bool), Walkable s.inputs n → s.params.legal → BitsHold s.inputs.bits bits →
    s.inputs.bitLen.toNat = bits.length → bits.length ≤ s.params.bitDepth →
    (∃ t, exec .decode s = .next t ∧
      (t.err = false ↔ ∃ syms, syms.length ≤ s.params.msgDepth ∧
        CodedAs (Store.read s.inputs.node) s.inputs.root.toNat syms bits) ∧
      (t.err = false → ∃ syms, CodedAs (Store.read s.inputs.node) s.inputs.root.toNat syms bits ∧
        t.decLen.toNat = syms.length ∧ Holds t.mem.dec syms)) ∧
    (∀ a b, CodedAs (Store.read s.inputs.node) s.inputs.root.toNat a bits →
      CodedAs (Store.read s.inputs.node) s.inputs.root.toNat b bits → a = b)

/-- R202, R196: under a tree of two or more leaves, bits other than the code of a message decode to another message, or
the command fails as truncated, or for want of room. -/
def Obligations.TamperedBitsAreNoticed : Prop :=
  ∀ (s : State) (n : Nat) (m : List Byte) (bits bits' : List Bool), Walkable s.inputs n → 2 ≤ n → s.params.legal →
    CodedAs (Store.read s.inputs.node) s.inputs.root.toNat m bits → bits' ≠ bits → BitsHold s.inputs.bits bits' →
    s.inputs.bitLen.toNat = bits'.length → bits'.length ≤ s.params.bitDepth →
    ∃ t, exec .decode s = .next t ∧
      ((t.err = false ∧ ∃ m', t.decLen.toNat = m'.length ∧ Holds t.mem.dec m' ∧ m' ≠ m) ∨
       (t.err = true ∧ t.errRec.code = .malformed ∧ t.errRec.sub = 2#8 ∧ t.errRec.pos = s.inputs.bitLen) ∨
       (t.err = true ∧ t.errRec.code = .capacity ∧ t.errRec.sub = 2#8))

/-- R200, R177: BUILD on a message's counts, GENCODE and ENCODE succeed (ENCODE may lack room), and a DECODE in any later
idle state with the same tree and the same bits gives the message back. -/
def Obligations.RoundTrip : Prop :=
  ∀ (s : State) (m : List Byte), s.params.legal → m ≠ [] → m.length ≤ s.params.msgDepth →
    Holds s.mem.msg m → s.msgLen.toNat = m.length →
    (∀ c : Byte, Store.read s.mem.freq c.toNat = some (BitVec.ofNat 32 (m.count c))) →
    ∃ t1 t2 t3, s.command .build = .next t1 ∧ t1.err = false ∧ t1.command .gencode = .next t2 ∧ t2.err = false ∧
      t2.command .encode = .next t3 ∧ (t3.err = true → t3.errRec.code = .capacity) ∧
      (t3.err = false → ∀ u : State, u.phase = .idle → u.params = t3.params → u.treeValid = t3.treeValid →
        u.root = t3.root → u.mem.node = t3.mem.node → u.bitLen = t3.bitLen → u.mem.bits = t3.mem.bits →
        ∃ t4, u.command .decode = .next t4 ∧ t4.err = false ∧ t4.decLen.toNat = m.length ∧ Holds t4.mem.dec m)

/-! ### The host's accesses -/

/-- R27: the fields of STATUS as the host reads them, in any phase, and its write-1-to-clear bits. -/
def Obligations.StatusRegister : Prop :=
  ∀ s : State,
    ((s.hostRead 0x00005#19).getLsbD 0 = true ↔ s.phase ≠ .idle) ∧
    (s.hostRead 0x00005#19).getLsbD 1 = s.done ∧ (s.hostRead 0x00005#19).getLsbD 2 = s.err ∧
    (s.hostRead 0x00005#19).getLsbD 3 = s.treeValid ∧ (s.hostRead 0x00005#19).getLsbD 4 = s.codesValid ∧
    (s.hostRead 0x00005#19).getLsbD 5 = s.accErr ∧ (∀ k, 6 ≤ k → (s.hostRead 0x00005#19).getLsbD k = false) ∧
    (∀ v : Word, s.hostWrite 0x00005#19 v =
      { s with
        done := if v.getLsbD 1 then false else s.done, accErr := if v.getLsbD 5 then false else s.accErr })

/-- R23 to R26, R28 to R37: what the host reads in each register; while a command runs, only those that R70 lists. -/
def Obligations.RegistersRead : Prop :=
  ∀ s : State,
    (s.hostRead 0x00000#19 = 0x48554646#32 ∧ s.hostRead 0x00001#19 = 0x00000001#32 ∧
      s.hostRead 0x00002#19 = BitVec.ofNat 32 s.params.msgDepth ∧
      s.hostRead 0x00003#19 = BitVec.ofNat 32 s.params.bitDepth ∧ s.hostRead 0x00004#19 = 0#32 ∧
      s.hostRead 0x00009#19 = if s.doneIE then 1#32 else 0#32) ∧
    (s.phase = .idle →
      (s.hostRead 0x00006#19).toNat = 256 * s.errRec.sub.toNat + s.errRec.code.toByte.toNat ∧
      s.hostRead 0x00007#19 = s.errRec.pos ∧ s.hostRead 0x00008#19 = s.errRec.info ∧
      s.hostRead 0x0000C#19 = s.msgLen ∧ s.hostRead 0x0000D#19 = s.bitLen ∧ s.hostRead 0x0000E#19 = s.decLen ∧
      (s.hostRead 0x00010#19).toNat = s.root.toNat ∧ (s.hostRead 0x00011#19).toNat = s.nodeCount.toNat ∧
      (s.hostRead 0x00012#19).toNat = s.leafCount.toNat)

/-- R66: a reserved address reads 0 in any phase, and a write to it is ignored and sets ACC_ERR. -/
def Obligations.ReservedAddresses : Prop :=
  ∀ (s : State) (a : Addr) (v : Word), s.params.reserved a.toNat →
    s.hostRead a = 0#32 ∧ s.hostWrite a v = { s with accErr := true }

/-- R67: a write to a read-only address is ignored and sets ACC_ERR; STATUS is not read-only in this sense, and CMD reads
0. -/
def Obligations.ReadOnlyAddresses : Prop :=
  (∀ (s : State) (a : Addr) (v : Word), s.params.legal → s.params.readOnly a.toNat →
    s.hostWrite a v = { s with accErr := true }) ∧
  (∀ s : State, ¬ s.params.readOnly addrSTATUS.toNat ∧ (∀ v, (s.hostWrite addrSTATUS v).accErr = true → s.accErr = true) ∧
    s.hostRead addrCMD = 0#32)

/-- R70: while a command runs, every write but those to STATUS and IRQ_EN is ignored and sets ACC_ERR; those two take
effect as in IDLE; the registers R70 lists, and reserved addresses, read as in IDLE (STATUS with BUSY = 1); every other
read gives a free value, whatever it is (U2, log entry 2). -/
def Obligations.AccessWhileBusy : Prop :=
  ∀ (s : State) (op : Instr) (x : Inputs), s.phase = .busy op x →
    (∀ (a : Addr) (v : Word), a ≠ 0x00005#19 → a ≠ 0x00009#19 → s.hostWrite a v = { s with accErr := true }) ∧
    (∀ (a : Addr) (v : Word), a = 0x00005#19 ∨ a = 0x00009#19 →
      s.hostWrite a v = { { s with phase := .idle }.hostWrite a v with phase := s.phase }) ∧
    (∀ a : Addr, a.toNat ≤ 4 ∨ a.toNat = 9 ∨ s.params.reserved a.toNat →
      s.hostRead a = { s with phase := .idle }.hostRead a) ∧
    (s.hostRead 0x00005#19).toNat = ({ s with phase := .idle }.hostRead 0x00005#19).toNat + 1 ∧
    (∀ a : Addr, ¬ (a.toNat ≤ 5 ∨ a.toNat = 9 ∨ s.params.reserved a.toNat) → s.hostRead a = Config.busyRead s.draws)

/-- R69, R63: a write to a read-write element that R70 does not reject stores its low bits there, and every other address
reads as before (none but the element changes). IRQ_EN takes the write in any phase. -/
def Obligations.WritesStoreAndReadBack : Prop :=
  (∀ (s : State) (v : Word), s.hostWrite 0x00009#19 v = { s with doneIE := v.getLsbD 0 }) ∧
  ∀ (s : State) (a : Addr) (v : Word), s.phase = .idle → s.params.legal →
    ((0x100 ≤ a.toNat ∧ a.toNat < 0x200) ∨ a = 0x0000C#19 ∨ a = 0x0000D#19 → (s.hostWrite a v).hostRead a = v) ∧
    ((0x10000 ≤ a.toNat ∧ a.toNat < 0x10000 + s.params.msgDepth) ∨
      (0x40000 ≤ a.toNat ∧ a.toNat < 0x40000 + s.params.bitDepth) →
        ((s.hostWrite a v).hostRead a).toNat = v.toNat % 256) ∧
    (a = 0x00009#19 → ((s.hostWrite a v).hostRead a).toNat = v.toNat % 2) ∧
    ((0x100 ≤ a.toNat ∧ a.toNat < 0x200) ∨ a = 0x0000C#19 ∨ a = 0x0000D#19 ∨ a = 0x00009#19 ∨
      (0x10000 ≤ a.toNat ∧ a.toNat < 0x10000 + s.params.msgDepth) ∨
      (0x40000 ≤ a.toNat ∧ a.toNat < 0x40000 + s.params.bitDepth) →
        (∀ b : Addr, b ≠ a → (s.hostWrite a v).hostRead b = s.hostRead b) ∧
        s.hostWrite a v =
          { s with
            msgLen := (s.hostWrite a v).msgLen, bitLen := (s.hostWrite a v).bitLen
            doneIE := (s.hostWrite a v).doneIE
            mem := { s.mem with
                     freq := (s.hostWrite a v).mem.freq, msg := (s.hostWrite a v).mem.msg
                     bits := (s.hostWrite a v).mem.bits } })

/-- R63, R74, R76: what a host read of an array element gives in IDLE: the element, zero-extended, whoever wrote it; and
of an element that nothing has written since reset a value of the element's width (U1; which one it is, is a free value,
log entry 3). -/
def Obligations.ArraysRead : Prop :=
  ∀ s : State, s.phase = .idle → s.params.legal →
    (∀ (c : Byte) (f : Word), Store.read s.mem.freq c.toNat = some f → s.hostRead (addrFREQ c) = f) ∧
    (∀ i, i < s.params.msgDepth →
      (∀ b : Byte, Store.read s.mem.msg i = some b → (s.hostRead (addrMSG i)).toNat = b.toNat) ∧
      (∀ b : Byte, Store.read s.mem.dec i = some b → (s.hostRead (addrDEC i)).toNat = b.toNat) ∧
      (Store.read s.mem.msg i = none → (s.hostRead (addrMSG i)).toNat < 256) ∧
      (Store.read s.mem.dec i = none → (s.hostRead (addrDEC i)).toNat < 256)) ∧
    (∀ i, i < s.params.bitDepth →
      (∀ b : Byte, Store.read s.mem.bits i = some b → (s.hostRead (addrBITS i)).toNat = b.toNat) ∧
      (Store.read s.mem.bits i = none → (s.hostRead (addrBITS i)).toNat < 256))

/-- R72: the node window. -/
def Obligations.NodeWindow : Prop :=
  ∀ (s : State) (i : Nat), s.phase = .idle → i < 512 →
    (∀ nd : Node, i < s.nodeCount.toNat → Store.read s.mem.node i = some nd →
      s.hostRead (addrNODE i 0) = nd.freq ∧
      (s.hostRead (addrNODE i 1)).toNat = (if nd.leaf then 256 else 0) + nd.sym.toNat ∧
      (s.hostRead (addrNODE i 2)).toNat = nd.left.toNat ∧ (s.hostRead (addrNODE i 3)).toNat = nd.right.toNat) ∧
    (s.nodeCount.toNat ≤ i →
      s.hostRead (addrNODE i 0) = 0x00000000#32 ∧ s.hostRead (addrNODE i 1) = 0x00000000#32 ∧
      s.hostRead (addrNODE i 2) = 0x000001FF#32 ∧ s.hostRead (addrNODE i 3) = 0x000001FF#32)

/-- R73: the code window; code bit `32 w + b` is bit `b` of word `w`. -/
def Obligations.CodeWindow : Prop :=
  ∀ (s : State) (c : Byte), s.phase = .idle →
    (∀ code : Code, s.codesValid = true → Store.read s.mem.code c.toNat = some code → code.bits.length ≤ 255 →
      (s.hostRead (addrCODELEN c)).toNat = code.bits.length ∧
      ∀ w b, w < 8 → b < 32 →
        (s.hostRead (addrCODEBITS c w)).getLsbD b = code.bits.getD (32 * w + b) false) ∧
    (s.codesValid = false → s.hostRead (addrCODELEN c) = 0#32 ∧
      ∀ w, w < 8 → s.hostRead (addrCODEBITS c w) = 0#32)

/-- R40 (d), U3: no host read in IDLE depends on node slots from NODE_COUNT on, nor on the code store while
CODES_VALID = 0. -/
def Obligations.HiddenStorageIsInvisible : Prop :=
  ∀ (s : State) (node : Store Node) (code : Store Code), s.phase = .idle →
    (∀ i, i < s.nodeCount.toNat → Store.read node i = Store.read s.mem.node i) →
    (s.codesValid = true → code = s.mem.code) →
    ∀ a : Addr, { s with mem := { s.mem with node := node, code := code } }.hostRead a = s.hostRead a

/-- R61, R62, R68: an access takes effect on the edge that acknowledges it: a write as `HostWrite` says, a read only on
the bus and in the host's program (`draws` and `latencyLeft` are the model's own counters, log entries 1 and 2). The
request is still held in the cycle of its `ack`. -/
def Obligations.AccessTakesEffectAtAck : Prop :=
  ∀ s : State, s.bus.rst = false → (s.phase = .idle ∨ s.latencyLeft ≠ 0) → s.ackLeft = 0 →
    (∀ a v, s.outstanding = some (.write a v) → ∃ t, step s = .next t ∧
      t = { s.hostWrite a v with
            bus := { rst := false, request := some (.write a v), ack := true, rdata := none }
            program := afterWrite s.program, latencyLeft := t.latencyLeft } ∧
      (s.phase = .idle → t.latencyLeft = (s.hostWrite a v).latencyLeft) ∧
      (s.phase ≠ .idle → t.latencyLeft + 1 = s.latencyLeft)) ∧
    (∀ a, s.outstanding = some (.read a) → ∃ t, step s = .next t ∧
      t = { s with
            bus := { rst := false, request := some (.read a), ack := true, rdata := some (s.hostRead a) }
            program := afterRead (s.hostRead a) s.program, draws := t.draws, latencyLeft := t.latencyLeft } ∧
      (s.phase = .idle → t.hostRead a = s.hostRead a))

/-- R61: every request is acknowledged after finitely many edges, also while a command runs, unless the run ends before
(U1). The host holds it up to and in the cycle of the `ack`, and in the next cycle drops it or raises that of its next
line. Two edges beyond `ackLeft` suffice, since at most one completion comes first (log entry 1). -/
def Obligations.EveryRequestIsAcknowledged : Prop :=
  ∀ (s : State) (acc : Access), s.outstanding = some acc → s.bus.rst = false →
    (∃ f, Host.Core.run Sys2Proof.core (s.ackLeft + 2) s = .fault f) ∨
    (∃ k u, k ≤ s.ackLeft + 2 ∧ Host.Core.run Sys2Proof.core k s = .next u ∧ u.bus.ack = true ∧
      u.bus.request = some acc ∧
      (∀ j v, j < k → Host.Core.run Sys2Proof.core j s = .next v → v.bus.request = some acc ∧ v.bus.ack = false) ∧
      ∀ t, step u = .next t → t.bus.ack = false ∧
        (t.bus.request = none ∨
          ∃ op rest acc', u.program = op :: rest ∧ op.access = some acc' ∧ t.bus.request = some acc'))

/-- R106, R107: how the host's program goes on: WR and RD are one access each, POLL repeats until the masked value
agrees, WAITIRQ waits for `irq` without an access. That the next line begins on the very next edge, in IDLE and while a
command runs alike, and that `rst` is driven by a line of the program, is the model's choice (log entry 10). -/
def Obligations.HostProgramNotation : Prop :=
  (∀ (a : Addr) (v x : Word) (rest : List HostOp),
    afterWrite (.write a v :: rest) = rest ∧ afterRead x (.read a :: rest) = rest) ∧
  (∀ (a : Addr) (mask v x : Word) (rest : List HostOp),
    afterRead x (.poll a mask v :: rest) = if x &&& mask = v then rest else .poll a mask v :: rest) ∧
  ∀ s : State, s.phase = .idle ∨ s.latencyLeft ≠ 0 → s.bus.rst = false → s.outstanding = none →
    (∀ op acc rest, s.program = op :: rest → op.access = some acc →
      ∃ t, step s = .next t ∧
        t = { s with
              bus := { rst := false, request := some acc, ack := false, rdata := none }
              ackLeft := t.ackLeft, draws := t.draws, latencyLeft := t.latencyLeft }) ∧
    (∀ rest, s.program = .waitIrq :: rest →
      ∃ t, step s = .next t ∧
        t = { s with
              bus := { rst := false, request := none, ack := false, rdata := none }
              program := if s.done && s.doneIE then rest else s.program, latencyLeft := t.latencyLeft }) ∧
    (∀ k rest, s.program = .reset k :: rest →
      ∃ t, step s = .next t ∧
        t = { s with
              bus := { rst := true, request := none, ack := false, rdata := none }, latencyLeft := t.latencyLeft }) ∧
    (s.program = [] →
      ∃ t, step s = .next t ∧
        t = { s with
              bus := { rst := false, request := none, ack := false, rdata := none }, latencyLeft := t.latencyLeft })

/-- R285, R107: a run ends on the edge that performs its last access if the block is idle then, else with the completion
of the command; lines that are left and make no access, a WAITIRQ or a reset, do not put the end off, and until a reset
the result stays as it is then. -/
def Obligations.EndOfARun : Prop :=
  (∀ (s : State) (a : Addr) (v : Word) (rest : List HostOp), s.phase = .idle → s.bus.rst = false → s.ackLeft = 0 →
    NoAccessLeft rest →
    (s.outstanding = some (.read a) → s.program = .read a :: rest →
      ∃ t, EndsAfter 1 s t ∧ t.program = rest ∧ ∀ b, t.result b = s.hostRead b) ∧
    (s.outstanding = some (.write a v) → s.program = .write a v :: rest → a ≠ addrCMD →
      ∃ t, EndsAfter 1 s t ∧ t.program = rest ∧ ∀ b, t.result b = (s.hostWrite a v).hostRead b)) ∧
  (∀ (s t : State) (op : Instr) (x : Inputs), s.phase = .busy op x → s.bus.rst = false → s.latencyLeft = 0 →
    s.outstanding = none → NoAccessLeft s.program → exec op s.quiet = .next t →
    EndsAfter 1 s t ∧ t.program = s.program) ∧
  (∀ s : State, s.ended → s.bus.rst = false → (∀ k, HostOp.reset k ∉ s.program) →
    ∃ t, step s = .next t ∧ t.ended ∧ t.bus.rst = false ∧ (∀ k, HostOp.reset k ∉ t.program) ∧
      ∀ a, t.result a = s.result a)

/-! ### Reset -/

/-- R270 to R272: an edge with `rst` = 1: the command, the request and every array content are gone, every register has
its reset value (R274), the sizes stay. The windows and registers read as R274 says, the ports as log entry 9. -/
def Obligations.ResetEdge : Prop :=
  ∀ s : State, s.bus.rst = true →
    ∃ t, step s = .next t ∧ t.phase = .idle ∧ t.params = s.params ∧ t.mem = Memory.unspecified ∧
      t.bus.request = none ∧ t.bus.ack = false ∧ t.irq = false ∧
      t.hostRead 0x00000#19 = 0x48554646#32 ∧ t.hostRead 0x00001#19 = 0x00000001#32 ∧
      t.hostRead 0x00002#19 = BitVec.ofNat 32 s.params.msgDepth ∧
      t.hostRead 0x00003#19 = BitVec.ofNat 32 s.params.bitDepth ∧
      t.hostRead 0x00005#19 = 0#32 ∧ t.hostRead 0x00006#19 = 0#32 ∧ t.hostRead 0x00007#19 = 0#32 ∧
      t.hostRead 0x00008#19 = 0#32 ∧ t.hostRead 0x00009#19 = 0#32 ∧ t.hostRead 0x0000C#19 = 0#32 ∧
      t.hostRead 0x0000D#19 = 0#32 ∧ t.hostRead 0x0000E#19 = 0#32 ∧ t.hostRead 0x00010#19 = 0x000001FF#32 ∧
      t.hostRead 0x00011#19 = 0#32 ∧ t.hostRead 0x00012#19 = 0#32 ∧
      (∀ i, i < 512 → t.hostRead (addrNODE i 0) = 0#32 ∧ t.hostRead (addrNODE i 1) = 0#32 ∧
        t.hostRead (addrNODE i 2) = 0x000001FF#32 ∧ t.hostRead (addrNODE i 3) = 0x000001FF#32) ∧
      (∀ c : Byte, t.hostRead (addrCODELEN c) = 0#32 ∧ ∀ w, w < 8 → t.hostRead (addrCODEBITS c w) = 0#32)

/-! ### Invariants and whole-machine rules -/

/-- The invariant holds right after reset (R270, R274). -/
def Obligations.InvariantAtReset : Prop := Inv State.reset

/-- The invariant is kept by every step: memory in its form, tree and counts in agreement (R35 to R37, R130), the code
table that of the current tree (R27, R153), the snapshot true (R87), the error record in agreement with ERR. -/
def Obligations.StepKeepsTheInvariant : Prop :=
  ∀ s t : State, Inv s → step s = .next t → Inv t

/-- From every state whose memory has its canonical form, every step keeps it, and the sizes with it (R25, R38). -/
def Obligations.StepKeepsTheMemoryForm : Prop :=
  ∀ s t : State, Memory.wf s.params s.mem → step s = .next t → t.params = s.params ∧ Memory.wf t.params t.mem

/-- R22: each flag changes only by the events its row lists. -/
def Obligations.FlagsChangeOnlyAsListed : Prop :=
  ∀ s t : State, Inv s → step s = .next t →
    (s.phase = .idle → t.phase ≠ .idle → ∃ w, s.outstanding = some (.write addrCMD w)) ∧
    (s.phase ≠ .idle → t.phase = .idle → s.bus.rst = true ∨ t.done = true) ∧
    (s.done = false → t.done = true → s.phase ≠ .idle ∧ t.phase = .idle) ∧
    (s.done = true → t.done = false → s.bus.rst = true ∨ (s.phase = .idle ∧ t.phase ≠ .idle) ∨
      ∃ v, s.outstanding = some (.write addrSTATUS v) ∧ v.getLsbD 1 = true) ∧
    (s.err = false → t.err = true → s.phase ≠ .idle ∧ t.phase = .idle) ∧
    (s.err = true → t.err = false → s.bus.rst = true ∨ (s.phase = .idle ∧ t.phase ≠ .idle)) ∧
    (s.treeValid = false → t.treeValid = true → t.err = false ∧ ∃ x, s.phase = .busy .build x) ∧
    (s.treeValid = true → t.treeValid = false → s.bus.rst = true ∨ ∃ x, s.phase = .busy .clear x) ∧
    (s.codesValid = false → t.codesValid = true → t.err = false ∧ ∃ x, s.phase = .busy .gencode x) ∧
    (s.codesValid = true → t.codesValid = false → s.bus.rst = true ∨
      ∃ x, s.phase = .busy .clear x ∨ (s.phase = .busy .build x ∧ t.err = false)) ∧
    (s.accErr = false → t.accErr = true → ∃ a v, s.outstanding = some (.write a v) ∧
      (s.params.reserved a.toNat ∨ s.params.readOnly a.toNat ∨
        (s.phase ≠ .idle ∧ a ≠ addrSTATUS ∧ a ≠ addrIRQEN))) ∧
    (s.accErr = true → t.accErr = false → s.bus.rst = true ∨
      ∃ v, s.outstanding = some (.write addrSTATUS v) ∧ v.getLsbD 5 = true)
end

