-- ==== Sys2Proof/Laws/State.lean ====
section
/-! SUPPORT. For each update of the state, what each field is after it. Every lemma holds by definition; with them no
later proof unfolds a record update. -/

namespace Sys2Proof.Machine

variable (s : State)

/-! ### `State.accept` -/

@[simp] theorem State.accept_params (w : Word) (wait : Nat) : (s.accept w wait).params = s.params := rfl
@[simp] theorem State.accept_phase (w : Word) (wait : Nat) : (s.accept w wait).phase = .busy (Sys2Proof.decode w) s.currentInputs := rfl
@[simp] theorem State.accept_done (w : Word) (wait : Nat) : (s.accept w wait).done = false := rfl
@[simp] theorem State.accept_err (w : Word) (wait : Nat) : (s.accept w wait).err = false := rfl
@[simp] theorem State.accept_treeValid (w : Word) (wait : Nat) : (s.accept w wait).treeValid = s.treeValid := rfl
@[simp] theorem State.accept_codesValid (w : Word) (wait : Nat) : (s.accept w wait).codesValid = s.codesValid := rfl
@[simp] theorem State.accept_accErr (w : Word) (wait : Nat) : (s.accept w wait).accErr = s.accErr := rfl
@[simp] theorem State.accept_errRec (w : Word) (wait : Nat) : (s.accept w wait).errRec = ErrRec.zero := rfl
@[simp] theorem State.accept_doneIE (w : Word) (wait : Nat) : (s.accept w wait).doneIE = s.doneIE := rfl
@[simp] theorem State.accept_msgLen (w : Word) (wait : Nat) : (s.accept w wait).msgLen = s.msgLen := rfl
@[simp] theorem State.accept_bitLen (w : Word) (wait : Nat) : (s.accept w wait).bitLen = s.bitLen := rfl
@[simp] theorem State.accept_decLen (w : Word) (wait : Nat) : (s.accept w wait).decLen = s.decLen := rfl
@[simp] theorem State.accept_root (w : Word) (wait : Nat) : (s.accept w wait).root = s.root := rfl
@[simp] theorem State.accept_nodeCount (w : Word) (wait : Nat) : (s.accept w wait).nodeCount = s.nodeCount := rfl
@[simp] theorem State.accept_leafCount (w : Word) (wait : Nat) : (s.accept w wait).leafCount = s.leafCount := rfl
@[simp] theorem State.accept_mem (w : Word) (wait : Nat) : (s.accept w wait).mem = s.mem := rfl
@[simp] theorem State.accept_bus (w : Word) (wait : Nat) : (s.accept w wait).bus = s.bus := rfl
@[simp] theorem State.accept_program (w : Word) (wait : Nat) : (s.accept w wait).program = s.program := rfl
@[simp] theorem State.accept_latencyLeft (w : Word) (wait : Nat) : (s.accept w wait).latencyLeft = wait := rfl
@[simp] theorem State.accept_ackLeft (w : Word) (wait : Nat) : (s.accept w wait).ackLeft = s.ackLeft := rfl
@[simp] theorem State.accept_draws (w : Word) (wait : Nat) : (s.accept w wait).draws = s.draws := rfl
@[simp] theorem State.accept_resets (w : Word) (wait : Nat) : (s.accept w wait).resets = s.resets := rfl

/-! ### `State.complete` -/

@[simp] theorem State.complete_params : (s.complete).params = s.params := rfl
@[simp] theorem State.complete_phase : (s.complete).phase = .idle := rfl
@[simp] theorem State.complete_done : (s.complete).done = true := rfl
@[simp] theorem State.complete_err : (s.complete).err = s.err := rfl
@[simp] theorem State.complete_treeValid : (s.complete).treeValid = s.treeValid := rfl
@[simp] theorem State.complete_codesValid : (s.complete).codesValid = s.codesValid := rfl
@[simp] theorem State.complete_accErr : (s.complete).accErr = s.accErr := rfl
@[simp] theorem State.complete_errRec : (s.complete).errRec = s.errRec := rfl
@[simp] theorem State.complete_doneIE : (s.complete).doneIE = s.doneIE := rfl
@[simp] theorem State.complete_msgLen : (s.complete).msgLen = s.msgLen := rfl
@[simp] theorem State.complete_bitLen : (s.complete).bitLen = s.bitLen := rfl
@[simp] theorem State.complete_decLen : (s.complete).decLen = s.decLen := rfl
@[simp] theorem State.complete_root : (s.complete).root = s.root := rfl
@[simp] theorem State.complete_nodeCount : (s.complete).nodeCount = s.nodeCount := rfl
@[simp] theorem State.complete_leafCount : (s.complete).leafCount = s.leafCount := rfl
@[simp] theorem State.complete_mem : (s.complete).mem = s.mem := rfl
@[simp] theorem State.complete_bus : (s.complete).bus = s.bus := rfl
@[simp] theorem State.complete_program : (s.complete).program = s.program := rfl
@[simp] theorem State.complete_latencyLeft : (s.complete).latencyLeft = s.latencyLeft := rfl
@[simp] theorem State.complete_ackLeft : (s.complete).ackLeft = s.ackLeft := rfl
@[simp] theorem State.complete_draws : (s.complete).draws = s.draws := rfl
@[simp] theorem State.complete_resets : (s.complete).resets = s.resets := rfl

/-! ### `State.succeed` -/

@[simp] theorem State.succeed_params : (s.succeed).params = s.params := rfl
@[simp] theorem State.succeed_phase : (s.succeed).phase = .idle := rfl
@[simp] theorem State.succeed_done : (s.succeed).done = true := rfl
@[simp] theorem State.succeed_err : (s.succeed).err = false := rfl
@[simp] theorem State.succeed_treeValid : (s.succeed).treeValid = s.treeValid := rfl
@[simp] theorem State.succeed_codesValid : (s.succeed).codesValid = s.codesValid := rfl
@[simp] theorem State.succeed_accErr : (s.succeed).accErr = s.accErr := rfl
@[simp] theorem State.succeed_errRec : (s.succeed).errRec = s.errRec := rfl
@[simp] theorem State.succeed_doneIE : (s.succeed).doneIE = s.doneIE := rfl
@[simp] theorem State.succeed_msgLen : (s.succeed).msgLen = s.msgLen := rfl
@[simp] theorem State.succeed_bitLen : (s.succeed).bitLen = s.bitLen := rfl
@[simp] theorem State.succeed_decLen : (s.succeed).decLen = s.decLen := rfl
@[simp] theorem State.succeed_root : (s.succeed).root = s.root := rfl
@[simp] theorem State.succeed_nodeCount : (s.succeed).nodeCount = s.nodeCount := rfl
@[simp] theorem State.succeed_leafCount : (s.succeed).leafCount = s.leafCount := rfl
@[simp] theorem State.succeed_mem : (s.succeed).mem = s.mem := rfl
@[simp] theorem State.succeed_bus : (s.succeed).bus = s.bus := rfl
@[simp] theorem State.succeed_program : (s.succeed).program = s.program := rfl
@[simp] theorem State.succeed_latencyLeft : (s.succeed).latencyLeft = s.latencyLeft := rfl
@[simp] theorem State.succeed_ackLeft : (s.succeed).ackLeft = s.ackLeft := rfl
@[simp] theorem State.succeed_draws : (s.succeed).draws = s.draws := rfl
@[simp] theorem State.succeed_resets : (s.succeed).resets = s.resets := rfl

/-! ### `State.recordError` -/

@[simp] theorem State.recordError_params (e : ErrRec) : (s.recordError e).params = s.params := rfl
@[simp] theorem State.recordError_phase (e : ErrRec) : (s.recordError e).phase = .idle := rfl
@[simp] theorem State.recordError_done (e : ErrRec) : (s.recordError e).done = true := rfl
@[simp] theorem State.recordError_err (e : ErrRec) : (s.recordError e).err = true := rfl
@[simp] theorem State.recordError_treeValid (e : ErrRec) : (s.recordError e).treeValid = s.treeValid := rfl
@[simp] theorem State.recordError_codesValid (e : ErrRec) : (s.recordError e).codesValid = s.codesValid := rfl
@[simp] theorem State.recordError_accErr (e : ErrRec) : (s.recordError e).accErr = s.accErr := rfl
@[simp] theorem State.recordError_errRec (e : ErrRec) : (s.recordError e).errRec = e := rfl
@[simp] theorem State.recordError_doneIE (e : ErrRec) : (s.recordError e).doneIE = s.doneIE := rfl
@[simp] theorem State.recordError_msgLen (e : ErrRec) : (s.recordError e).msgLen = s.msgLen := rfl
@[simp] theorem State.recordError_bitLen (e : ErrRec) : (s.recordError e).bitLen = s.bitLen := rfl
@[simp] theorem State.recordError_decLen (e : ErrRec) : (s.recordError e).decLen = s.decLen := rfl
@[simp] theorem State.recordError_root (e : ErrRec) : (s.recordError e).root = s.root := rfl
@[simp] theorem State.recordError_nodeCount (e : ErrRec) : (s.recordError e).nodeCount = s.nodeCount := rfl
@[simp] theorem State.recordError_leafCount (e : ErrRec) : (s.recordError e).leafCount = s.leafCount := rfl
@[simp] theorem State.recordError_mem (e : ErrRec) : (s.recordError e).mem = s.mem := rfl
@[simp] theorem State.recordError_bus (e : ErrRec) : (s.recordError e).bus = s.bus := rfl
@[simp] theorem State.recordError_program (e : ErrRec) : (s.recordError e).program = s.program := rfl
@[simp] theorem State.recordError_latencyLeft (e : ErrRec) : (s.recordError e).latencyLeft = s.latencyLeft := rfl
@[simp] theorem State.recordError_ackLeft (e : ErrRec) : (s.recordError e).ackLeft = s.ackLeft := rfl
@[simp] theorem State.recordError_draws (e : ErrRec) : (s.recordError e).draws = s.draws := rfl
@[simp] theorem State.recordError_resets (e : ErrRec) : (s.recordError e).resets = s.resets := rfl

/-! ### `State.acknowledgeDone` -/

@[simp] theorem State.acknowledgeDone_params : (s.acknowledgeDone).params = s.params := rfl
@[simp] theorem State.acknowledgeDone_phase : (s.acknowledgeDone).phase = s.phase := rfl
@[simp] theorem State.acknowledgeDone_done : (s.acknowledgeDone).done = false := rfl
@[simp] theorem State.acknowledgeDone_err : (s.acknowledgeDone).err = s.err := rfl
@[simp] theorem State.acknowledgeDone_treeValid : (s.acknowledgeDone).treeValid = s.treeValid := rfl
@[simp] theorem State.acknowledgeDone_codesValid : (s.acknowledgeDone).codesValid = s.codesValid := rfl
@[simp] theorem State.acknowledgeDone_accErr : (s.acknowledgeDone).accErr = s.accErr := rfl
@[simp] theorem State.acknowledgeDone_errRec : (s.acknowledgeDone).errRec = s.errRec := rfl
@[simp] theorem State.acknowledgeDone_doneIE : (s.acknowledgeDone).doneIE = s.doneIE := rfl
@[simp] theorem State.acknowledgeDone_msgLen : (s.acknowledgeDone).msgLen = s.msgLen := rfl
@[simp] theorem State.acknowledgeDone_bitLen : (s.acknowledgeDone).bitLen = s.bitLen := rfl
@[simp] theorem State.acknowledgeDone_decLen : (s.acknowledgeDone).decLen = s.decLen := rfl
@[simp] theorem State.acknowledgeDone_root : (s.acknowledgeDone).root = s.root := rfl
@[simp] theorem State.acknowledgeDone_nodeCount : (s.acknowledgeDone).nodeCount = s.nodeCount := rfl
@[simp] theorem State.acknowledgeDone_leafCount : (s.acknowledgeDone).leafCount = s.leafCount := rfl
@[simp] theorem State.acknowledgeDone_mem : (s.acknowledgeDone).mem = s.mem := rfl
@[simp] theorem State.acknowledgeDone_bus : (s.acknowledgeDone).bus = s.bus := rfl
@[simp] theorem State.acknowledgeDone_program : (s.acknowledgeDone).program = s.program := rfl
@[simp] theorem State.acknowledgeDone_latencyLeft : (s.acknowledgeDone).latencyLeft = s.latencyLeft := rfl
@[simp] theorem State.acknowledgeDone_ackLeft : (s.acknowledgeDone).ackLeft = s.ackLeft := rfl
@[simp] theorem State.acknowledgeDone_draws : (s.acknowledgeDone).draws = s.draws := rfl
@[simp] theorem State.acknowledgeDone_resets : (s.acknowledgeDone).resets = s.resets := rfl

/-! ### `State.accessError` -/

@[simp] theorem State.accessError_params : (s.accessError).params = s.params := rfl
@[simp] theorem State.accessError_phase : (s.accessError).phase = s.phase := rfl
@[simp] theorem State.accessError_done : (s.accessError).done = s.done := rfl
@[simp] theorem State.accessError_err : (s.accessError).err = s.err := rfl
@[simp] theorem State.accessError_treeValid : (s.accessError).treeValid = s.treeValid := rfl
@[simp] theorem State.accessError_codesValid : (s.accessError).codesValid = s.codesValid := rfl
@[simp] theorem State.accessError_accErr : (s.accessError).accErr = true := rfl
@[simp] theorem State.accessError_errRec : (s.accessError).errRec = s.errRec := rfl
@[simp] theorem State.accessError_doneIE : (s.accessError).doneIE = s.doneIE := rfl
@[simp] theorem State.accessError_msgLen : (s.accessError).msgLen = s.msgLen := rfl
@[simp] theorem State.accessError_bitLen : (s.accessError).bitLen = s.bitLen := rfl
@[simp] theorem State.accessError_decLen : (s.accessError).decLen = s.decLen := rfl
@[simp] theorem State.accessError_root : (s.accessError).root = s.root := rfl
@[simp] theorem State.accessError_nodeCount : (s.accessError).nodeCount = s.nodeCount := rfl
@[simp] theorem State.accessError_leafCount : (s.accessError).leafCount = s.leafCount := rfl
@[simp] theorem State.accessError_mem : (s.accessError).mem = s.mem := rfl
@[simp] theorem State.accessError_bus : (s.accessError).bus = s.bus := rfl
@[simp] theorem State.accessError_program : (s.accessError).program = s.program := rfl
@[simp] theorem State.accessError_latencyLeft : (s.accessError).latencyLeft = s.latencyLeft := rfl
@[simp] theorem State.accessError_ackLeft : (s.accessError).ackLeft = s.ackLeft := rfl
@[simp] theorem State.accessError_draws : (s.accessError).draws = s.draws := rfl
@[simp] theorem State.accessError_resets : (s.accessError).resets = s.resets := rfl

/-! ### `State.quiet` -/

@[simp] theorem State.quiet_params : (s.quiet).params = s.params := rfl
@[simp] theorem State.quiet_phase : (s.quiet).phase = s.phase := rfl
@[simp] theorem State.quiet_done : (s.quiet).done = s.done := rfl
@[simp] theorem State.quiet_err : (s.quiet).err = s.err := rfl
@[simp] theorem State.quiet_treeValid : (s.quiet).treeValid = s.treeValid := rfl
@[simp] theorem State.quiet_codesValid : (s.quiet).codesValid = s.codesValid := rfl
@[simp] theorem State.quiet_accErr : (s.quiet).accErr = s.accErr := rfl
@[simp] theorem State.quiet_errRec : (s.quiet).errRec = s.errRec := rfl
@[simp] theorem State.quiet_doneIE : (s.quiet).doneIE = s.doneIE := rfl
@[simp] theorem State.quiet_msgLen : (s.quiet).msgLen = s.msgLen := rfl
@[simp] theorem State.quiet_bitLen : (s.quiet).bitLen = s.bitLen := rfl
@[simp] theorem State.quiet_decLen : (s.quiet).decLen = s.decLen := rfl
@[simp] theorem State.quiet_root : (s.quiet).root = s.root := rfl
@[simp] theorem State.quiet_nodeCount : (s.quiet).nodeCount = s.nodeCount := rfl
@[simp] theorem State.quiet_leafCount : (s.quiet).leafCount = s.leafCount := rfl
@[simp] theorem State.quiet_mem : (s.quiet).mem = s.mem := rfl
@[simp] theorem State.quiet_bus : (s.quiet).bus = { s.bus with request := s.outstanding, ack := false, rdata := none } := rfl
@[simp] theorem State.quiet_program : (s.quiet).program = s.program := rfl
@[simp] theorem State.quiet_latencyLeft : (s.quiet).latencyLeft = s.latencyLeft := rfl
@[simp] theorem State.quiet_ackLeft : (s.quiet).ackLeft = s.ackLeft := rfl
@[simp] theorem State.quiet_draws : (s.quiet).draws = s.draws := rfl
@[simp] theorem State.quiet_resets : (s.quiet).resets = s.resets := rfl

/-! ### `State.request` -/

@[simp] theorem State.request_params (acc : Access) : (s.request acc).params = s.params := rfl
@[simp] theorem State.request_phase (acc : Access) : (s.request acc).phase = s.phase := rfl
@[simp] theorem State.request_done (acc : Access) : (s.request acc).done = s.done := rfl
@[simp] theorem State.request_err (acc : Access) : (s.request acc).err = s.err := rfl
@[simp] theorem State.request_treeValid (acc : Access) : (s.request acc).treeValid = s.treeValid := rfl
@[simp] theorem State.request_codesValid (acc : Access) : (s.request acc).codesValid = s.codesValid := rfl
@[simp] theorem State.request_accErr (acc : Access) : (s.request acc).accErr = s.accErr := rfl
@[simp] theorem State.request_errRec (acc : Access) : (s.request acc).errRec = s.errRec := rfl
@[simp] theorem State.request_doneIE (acc : Access) : (s.request acc).doneIE = s.doneIE := rfl
@[simp] theorem State.request_msgLen (acc : Access) : (s.request acc).msgLen = s.msgLen := rfl
@[simp] theorem State.request_bitLen (acc : Access) : (s.request acc).bitLen = s.bitLen := rfl
@[simp] theorem State.request_decLen (acc : Access) : (s.request acc).decLen = s.decLen := rfl
@[simp] theorem State.request_root (acc : Access) : (s.request acc).root = s.root := rfl
@[simp] theorem State.request_nodeCount (acc : Access) : (s.request acc).nodeCount = s.nodeCount := rfl
@[simp] theorem State.request_leafCount (acc : Access) : (s.request acc).leafCount = s.leafCount := rfl
@[simp] theorem State.request_mem (acc : Access) : (s.request acc).mem = s.mem := rfl
@[simp] theorem State.request_bus (acc : Access) : (s.request acc).bus = { s.bus with request := some acc } := rfl
@[simp] theorem State.request_program (acc : Access) : (s.request acc).program = s.program := rfl
@[simp] theorem State.request_latencyLeft (acc : Access) : (s.request acc).latencyLeft = s.latencyLeft := rfl
@[simp] theorem State.request_ackLeft (acc : Access) : (s.request acc).ackLeft = Config.ackDelay s.draws := rfl
@[simp] theorem State.request_draws (acc : Access) : (s.request acc).draws = s.draws + 1 := rfl
@[simp] theorem State.request_resets (acc : Access) : (s.request acc).resets = s.resets := rfl

/-! ### `State.commitClear` -/

@[simp] theorem State.commitClear_params : (s.commitClear).params = s.params := rfl
@[simp] theorem State.commitClear_phase : (s.commitClear).phase = s.phase := rfl
@[simp] theorem State.commitClear_done : (s.commitClear).done = s.done := rfl
@[simp] theorem State.commitClear_err : (s.commitClear).err = s.err := rfl
@[simp] theorem State.commitClear_treeValid : (s.commitClear).treeValid = false := rfl
@[simp] theorem State.commitClear_codesValid : (s.commitClear).codesValid = false := rfl
@[simp] theorem State.commitClear_accErr : (s.commitClear).accErr = s.accErr := rfl
@[simp] theorem State.commitClear_errRec : (s.commitClear).errRec = s.errRec := rfl
@[simp] theorem State.commitClear_doneIE : (s.commitClear).doneIE = s.doneIE := rfl
@[simp] theorem State.commitClear_msgLen : (s.commitClear).msgLen = s.msgLen := rfl
@[simp] theorem State.commitClear_bitLen : (s.commitClear).bitLen = s.bitLen := rfl
@[simp] theorem State.commitClear_decLen : (s.commitClear).decLen = 0#32 := rfl
@[simp] theorem State.commitClear_root : (s.commitClear).root = Config.nil := rfl
@[simp] theorem State.commitClear_nodeCount : (s.commitClear).nodeCount = 0#10 := rfl
@[simp] theorem State.commitClear_leafCount : (s.commitClear).leafCount = 0#9 := rfl
@[simp] theorem State.commitClear_mem : (s.commitClear).mem = { s.mem with freq := Store.writePrefix s.mem.freq (List.replicate Config.nsym 0#32) } := rfl
@[simp] theorem State.commitClear_bus : (s.commitClear).bus = s.bus := rfl
@[simp] theorem State.commitClear_program : (s.commitClear).program = s.program := rfl
@[simp] theorem State.commitClear_latencyLeft : (s.commitClear).latencyLeft = s.latencyLeft := rfl
@[simp] theorem State.commitClear_ackLeft : (s.commitClear).ackLeft = s.ackLeft := rfl
@[simp] theorem State.commitClear_draws : (s.commitClear).draws = s.draws := rfl
@[simp] theorem State.commitClear_resets : (s.commitClear).resets = s.resets := rfl

/-! ### `State.commitBuild` -/

@[simp] theorem State.commitBuild_params (n : Nat) (t : BuiltTree) : (s.commitBuild n t).params = s.params := rfl
@[simp] theorem State.commitBuild_phase (n : Nat) (t : BuiltTree) : (s.commitBuild n t).phase = s.phase := rfl
@[simp] theorem State.commitBuild_done (n : Nat) (t : BuiltTree) : (s.commitBuild n t).done = s.done := rfl
@[simp] theorem State.commitBuild_err (n : Nat) (t : BuiltTree) : (s.commitBuild n t).err = s.err := rfl
@[simp] theorem State.commitBuild_treeValid (n : Nat) (t : BuiltTree) : (s.commitBuild n t).treeValid = true := rfl
@[simp] theorem State.commitBuild_codesValid (n : Nat) (t : BuiltTree) : (s.commitBuild n t).codesValid = false := rfl
@[simp] theorem State.commitBuild_accErr (n : Nat) (t : BuiltTree) : (s.commitBuild n t).accErr = s.accErr := rfl
@[simp] theorem State.commitBuild_errRec (n : Nat) (t : BuiltTree) : (s.commitBuild n t).errRec = s.errRec := rfl
@[simp] theorem State.commitBuild_doneIE (n : Nat) (t : BuiltTree) : (s.commitBuild n t).doneIE = s.doneIE := rfl
@[simp] theorem State.commitBuild_msgLen (n : Nat) (t : BuiltTree) : (s.commitBuild n t).msgLen = s.msgLen := rfl
@[simp] theorem State.commitBuild_bitLen (n : Nat) (t : BuiltTree) : (s.commitBuild n t).bitLen = s.bitLen := rfl
@[simp] theorem State.commitBuild_decLen (n : Nat) (t : BuiltTree) : (s.commitBuild n t).decLen = s.decLen := rfl
@[simp] theorem State.commitBuild_root (n : Nat) (t : BuiltTree) : (s.commitBuild n t).root = BitVec.ofNat 9 t.root := rfl
@[simp] theorem State.commitBuild_nodeCount (n : Nat) (t : BuiltTree) : (s.commitBuild n t).nodeCount = BitVec.ofNat 10 t.nodes.length := rfl
@[simp] theorem State.commitBuild_leafCount (n : Nat) (t : BuiltTree) : (s.commitBuild n t).leafCount = BitVec.ofNat 9 n := rfl
@[simp] theorem State.commitBuild_mem (n : Nat) (t : BuiltTree) : (s.commitBuild n t).mem = { s.mem with node := Store.writePrefix s.mem.node t.nodes } := rfl
@[simp] theorem State.commitBuild_bus (n : Nat) (t : BuiltTree) : (s.commitBuild n t).bus = s.bus := rfl
@[simp] theorem State.commitBuild_program (n : Nat) (t : BuiltTree) : (s.commitBuild n t).program = s.program := rfl
@[simp] theorem State.commitBuild_latencyLeft (n : Nat) (t : BuiltTree) : (s.commitBuild n t).latencyLeft = s.latencyLeft := rfl
@[simp] theorem State.commitBuild_ackLeft (n : Nat) (t : BuiltTree) : (s.commitBuild n t).ackLeft = s.ackLeft := rfl
@[simp] theorem State.commitBuild_draws (n : Nat) (t : BuiltTree) : (s.commitBuild n t).draws = s.draws := rfl
@[simp] theorem State.commitBuild_resets (n : Nat) (t : BuiltTree) : (s.commitBuild n t).resets = s.resets := rfl

/-! ### `State.commitGencode` -/

@[simp] theorem State.commitGencode_params (table : List Code) : (s.commitGencode table).params = s.params := rfl
@[simp] theorem State.commitGencode_phase (table : List Code) : (s.commitGencode table).phase = s.phase := rfl
@[simp] theorem State.commitGencode_done (table : List Code) : (s.commitGencode table).done = s.done := rfl
@[simp] theorem State.commitGencode_err (table : List Code) : (s.commitGencode table).err = s.err := rfl
@[simp] theorem State.commitGencode_treeValid (table : List Code) : (s.commitGencode table).treeValid = s.treeValid := rfl
@[simp] theorem State.commitGencode_codesValid (table : List Code) : (s.commitGencode table).codesValid = true := rfl
@[simp] theorem State.commitGencode_accErr (table : List Code) : (s.commitGencode table).accErr = s.accErr := rfl
@[simp] theorem State.commitGencode_errRec (table : List Code) : (s.commitGencode table).errRec = s.errRec := rfl
@[simp] theorem State.commitGencode_doneIE (table : List Code) : (s.commitGencode table).doneIE = s.doneIE := rfl
@[simp] theorem State.commitGencode_msgLen (table : List Code) : (s.commitGencode table).msgLen = s.msgLen := rfl
@[simp] theorem State.commitGencode_bitLen (table : List Code) : (s.commitGencode table).bitLen = s.bitLen := rfl
@[simp] theorem State.commitGencode_decLen (table : List Code) : (s.commitGencode table).decLen = s.decLen := rfl
@[simp] theorem State.commitGencode_root (table : List Code) : (s.commitGencode table).root = s.root := rfl
@[simp] theorem State.commitGencode_nodeCount (table : List Code) : (s.commitGencode table).nodeCount = s.nodeCount := rfl
@[simp] theorem State.commitGencode_leafCount (table : List Code) : (s.commitGencode table).leafCount = s.leafCount := rfl
@[simp] theorem State.commitGencode_mem (table : List Code) : (s.commitGencode table).mem = { s.mem with code := Store.writePrefix s.mem.code table } := rfl
@[simp] theorem State.commitGencode_bus (table : List Code) : (s.commitGencode table).bus = s.bus := rfl
@[simp] theorem State.commitGencode_program (table : List Code) : (s.commitGencode table).program = s.program := rfl
@[simp] theorem State.commitGencode_latencyLeft (table : List Code) : (s.commitGencode table).latencyLeft = s.latencyLeft := rfl
@[simp] theorem State.commitGencode_ackLeft (table : List Code) : (s.commitGencode table).ackLeft = s.ackLeft := rfl
@[simp] theorem State.commitGencode_draws (table : List Code) : (s.commitGencode table).draws = s.draws := rfl
@[simp] theorem State.commitGencode_resets (table : List Code) : (s.commitGencode table).resets = s.resets := rfl

/-! ### `State.commitEncode` -/

@[simp] theorem State.commitEncode_params (bits : List Bool) : (s.commitEncode bits).params = s.params := rfl
@[simp] theorem State.commitEncode_phase (bits : List Bool) : (s.commitEncode bits).phase = s.phase := rfl
@[simp] theorem State.commitEncode_done (bits : List Bool) : (s.commitEncode bits).done = s.done := rfl
@[simp] theorem State.commitEncode_err (bits : List Bool) : (s.commitEncode bits).err = s.err := rfl
@[simp] theorem State.commitEncode_treeValid (bits : List Bool) : (s.commitEncode bits).treeValid = s.treeValid := rfl
@[simp] theorem State.commitEncode_codesValid (bits : List Bool) : (s.commitEncode bits).codesValid = s.codesValid := rfl
@[simp] theorem State.commitEncode_accErr (bits : List Bool) : (s.commitEncode bits).accErr = s.accErr := rfl
@[simp] theorem State.commitEncode_errRec (bits : List Bool) : (s.commitEncode bits).errRec = s.errRec := rfl
@[simp] theorem State.commitEncode_doneIE (bits : List Bool) : (s.commitEncode bits).doneIE = s.doneIE := rfl
@[simp] theorem State.commitEncode_msgLen (bits : List Bool) : (s.commitEncode bits).msgLen = s.msgLen := rfl
@[simp] theorem State.commitEncode_bitLen (bits : List Bool) : (s.commitEncode bits).bitLen = BitVec.ofNat 32 bits.length := rfl
@[simp] theorem State.commitEncode_decLen (bits : List Bool) : (s.commitEncode bits).decLen = s.decLen := rfl
@[simp] theorem State.commitEncode_root (bits : List Bool) : (s.commitEncode bits).root = s.root := rfl
@[simp] theorem State.commitEncode_nodeCount (bits : List Bool) : (s.commitEncode bits).nodeCount = s.nodeCount := rfl
@[simp] theorem State.commitEncode_leafCount (bits : List Bool) : (s.commitEncode bits).leafCount = s.leafCount := rfl
@[simp] theorem State.commitEncode_mem (bits : List Bool) : (s.commitEncode bits).mem = { s.mem with bits := Store.writePrefix s.mem.bits (bits.map cellOf) } := rfl
@[simp] theorem State.commitEncode_bus (bits : List Bool) : (s.commitEncode bits).bus = s.bus := rfl
@[simp] theorem State.commitEncode_program (bits : List Bool) : (s.commitEncode bits).program = s.program := rfl
@[simp] theorem State.commitEncode_latencyLeft (bits : List Bool) : (s.commitEncode bits).latencyLeft = s.latencyLeft := rfl
@[simp] theorem State.commitEncode_ackLeft (bits : List Bool) : (s.commitEncode bits).ackLeft = s.ackLeft := rfl
@[simp] theorem State.commitEncode_draws (bits : List Bool) : (s.commitEncode bits).draws = s.draws := rfl
@[simp] theorem State.commitEncode_resets (bits : List Bool) : (s.commitEncode bits).resets = s.resets := rfl

/-! ### `State.commitDecode` -/

@[simp] theorem State.commitDecode_params (out : List Byte) : (s.commitDecode out).params = s.params := rfl
@[simp] theorem State.commitDecode_phase (out : List Byte) : (s.commitDecode out).phase = s.phase := rfl
@[simp] theorem State.commitDecode_done (out : List Byte) : (s.commitDecode out).done = s.done := rfl
@[simp] theorem State.commitDecode_err (out : List Byte) : (s.commitDecode out).err = s.err := rfl
@[simp] theorem State.commitDecode_treeValid (out : List Byte) : (s.commitDecode out).treeValid = s.treeValid := rfl
@[simp] theorem State.commitDecode_codesValid (out : List Byte) : (s.commitDecode out).codesValid = s.codesValid := rfl
@[simp] theorem State.commitDecode_accErr (out : List Byte) : (s.commitDecode out).accErr = s.accErr := rfl
@[simp] theorem State.commitDecode_errRec (out : List Byte) : (s.commitDecode out).errRec = s.errRec := rfl
@[simp] theorem State.commitDecode_doneIE (out : List Byte) : (s.commitDecode out).doneIE = s.doneIE := rfl
@[simp] theorem State.commitDecode_msgLen (out : List Byte) : (s.commitDecode out).msgLen = s.msgLen := rfl
@[simp] theorem State.commitDecode_bitLen (out : List Byte) : (s.commitDecode out).bitLen = s.bitLen := rfl
@[simp] theorem State.commitDecode_decLen (out : List Byte) : (s.commitDecode out).decLen = BitVec.ofNat 32 out.length := rfl
@[simp] theorem State.commitDecode_root (out : List Byte) : (s.commitDecode out).root = s.root := rfl
@[simp] theorem State.commitDecode_nodeCount (out : List Byte) : (s.commitDecode out).nodeCount = s.nodeCount := rfl
@[simp] theorem State.commitDecode_leafCount (out : List Byte) : (s.commitDecode out).leafCount = s.leafCount := rfl
@[simp] theorem State.commitDecode_mem (out : List Byte) : (s.commitDecode out).mem = { s.mem with dec := Store.writePrefix s.mem.dec out } := rfl
@[simp] theorem State.commitDecode_bus (out : List Byte) : (s.commitDecode out).bus = s.bus := rfl
@[simp] theorem State.commitDecode_program (out : List Byte) : (s.commitDecode out).program = s.program := rfl
@[simp] theorem State.commitDecode_latencyLeft (out : List Byte) : (s.commitDecode out).latencyLeft = s.latencyLeft := rfl
@[simp] theorem State.commitDecode_ackLeft (out : List Byte) : (s.commitDecode out).ackLeft = s.ackLeft := rfl
@[simp] theorem State.commitDecode_draws (out : List Byte) : (s.commitDecode out).draws = s.draws := rfl
@[simp] theorem State.commitDecode_resets (out : List Byte) : (s.commitDecode out).resets = s.resets := rfl

/-! ### `State.resetEdge` -/

@[simp] theorem State.resetEdge_params : (s.resetEdge).params = s.params := rfl
@[simp] theorem State.resetEdge_phase : (s.resetEdge).phase = State.reset.phase := rfl
@[simp] theorem State.resetEdge_done : (s.resetEdge).done = State.reset.done := rfl
@[simp] theorem State.resetEdge_err : (s.resetEdge).err = State.reset.err := rfl
@[simp] theorem State.resetEdge_treeValid : (s.resetEdge).treeValid = State.reset.treeValid := rfl
@[simp] theorem State.resetEdge_codesValid : (s.resetEdge).codesValid = State.reset.codesValid := rfl
@[simp] theorem State.resetEdge_accErr : (s.resetEdge).accErr = State.reset.accErr := rfl
@[simp] theorem State.resetEdge_errRec : (s.resetEdge).errRec = State.reset.errRec := rfl
@[simp] theorem State.resetEdge_doneIE : (s.resetEdge).doneIE = State.reset.doneIE := rfl
@[simp] theorem State.resetEdge_msgLen : (s.resetEdge).msgLen = State.reset.msgLen := rfl
@[simp] theorem State.resetEdge_bitLen : (s.resetEdge).bitLen = State.reset.bitLen := rfl
@[simp] theorem State.resetEdge_decLen : (s.resetEdge).decLen = State.reset.decLen := rfl
@[simp] theorem State.resetEdge_root : (s.resetEdge).root = State.reset.root := rfl
@[simp] theorem State.resetEdge_nodeCount : (s.resetEdge).nodeCount = State.reset.nodeCount := rfl
@[simp] theorem State.resetEdge_leafCount : (s.resetEdge).leafCount = State.reset.leafCount := rfl
@[simp] theorem State.resetEdge_mem : (s.resetEdge).mem = State.reset.mem := rfl
@[simp] theorem State.resetEdge_bus : (s.resetEdge).bus = { State.reset.bus with rst := (afterResetEdge s.program).1 } := rfl
@[simp] theorem State.resetEdge_program : (s.resetEdge).program = (afterResetEdge s.program).2 := rfl
@[simp] theorem State.resetEdge_latencyLeft : (s.resetEdge).latencyLeft = State.reset.latencyLeft := rfl
@[simp] theorem State.resetEdge_ackLeft : (s.resetEdge).ackLeft = State.reset.ackLeft := rfl
@[simp] theorem State.resetEdge_draws : (s.resetEdge).draws = s.draws := rfl
@[simp] theorem State.resetEdge_resets : (s.resetEdge).resets = s.resets + 1 := rfl

end Sys2Proof.Machine
end

