-- ==== Sys2Proof/Laws/Store.lean ====
section
/-! SUPPORT. What reading an element gives after each write, and that every write keeps the canonical form. -/

namespace Sys2Proof.Machine

variable {α : Type}

@[simp] theorem Store.read_nil (i : Nat) : Store.read ([] : Store α) i = none := rfl

@[simp] theorem Store.read_cons (j : Nat) (v : α) (st : Store α) (i : Nat) :
    Store.read ((j, v) :: st) i = if j = i then some v else Store.read st i := rfl

/-- An element that is read is listed. -/
theorem Store.mem_of_read {st : Store α} {i : Nat} {v : α} (h : Store.read st i = some v) : (i, v) ∈ st := by
  induction st with
  | nil => simp at h
  | cons c st ih =>
    obtain ⟨j, u⟩ := c
    by_cases hj : j = i
    · simp_all
    · simp only [Store.read_cons, if_neg hj] at h
      exact List.mem_cons_of_mem _ (ih h)

/-- An index below all listed ones is not listed. -/
theorem Store.read_eq_none {st : Store α} {i : Nat} (h : ∀ c ∈ st, i ≠ c.1) : Store.read st i = none := by
  induction st with
  | nil => rfl
  | cons c st ih =>
    obtain ⟨j, u⟩ := c
    have hj : ¬ j = i := fun e => h (j, u) (by simp) e.symm
    simp only [Store.read_cons, if_neg hj]
    exact ih fun c hc => h c (List.mem_cons_of_mem _ hc)

/-- In the canonical form, a listed element is what a read gives. -/
theorem Store.read_of_mem {size : Nat} {st : Store α} (hw : Store.wf size st) {i : Nat} {v : α} (h : (i, v) ∈ st) :
    Store.read st i = some v := by
  induction st with
  | nil => simp at h
  | cons c st ih =>
    obtain ⟨j, u⟩ := c
    obtain ⟨hp, hb⟩ := hw
    rw [List.pairwise_cons] at hp
    rcases List.mem_cons.mp h with h | h
    · cases h; simp
    · have : j < i := hp.1 _ h
      simp only [Store.read_cons, if_neg (Nat.ne_of_lt this)]
      exact ih ⟨hp.2, fun c hc => hb c (List.mem_cons_of_mem _ hc)⟩ h

/-! ### `Store.write` -/

@[simp] theorem Store.read_write_same (st : Store α) (i : Nat) (v : α) : Store.read (Store.write st i v) i = some v := by
  induction st with
  | nil => simp [Store.write]
  | cons c st ih =>
    obtain ⟨j, u⟩ := c
    rw [Store.write]
    split
    · simp
    · split
      · simp
      · rename_i h
        simp [Ne.symm h, ih]

theorem Store.read_write_other (st : Store α) {i k : Nat} (v : α) (h : k ≠ i) :
    Store.read (Store.write st i v) k = Store.read st k := by
  induction st with
  | nil => simp [Store.write, Ne.symm h]
  | cons c st ih =>
    obtain ⟨j, u⟩ := c
    rw [Store.write]
    split
    · simp [Ne.symm h]
    · split
      · rename_i e; subst e; simp [Ne.symm h]
      · simp [ih]

theorem Store.mem_write {st : Store α} {i : Nat} {v : α} {c : Nat × α} (h : c ∈ Store.write st i v) :
    c = (i, v) ∨ c ∈ st := by
  induction st with
  | nil => simpa [Store.write] using h
  | cons d st ih =>
    obtain ⟨j, u⟩ := d
    rw [Store.write] at h
    split at h
    · simpa using h
    · split at h
      · rcases List.mem_cons.mp h with h | h
        · exact .inl h
        · exact .inr (List.mem_cons_of_mem _ h)
      · rcases List.mem_cons.mp h with h | h
        · exact .inr (by simp [h])
        · exact (ih h).imp_right (List.mem_cons_of_mem _)

/-- A write inside the array keeps the canonical form. -/
theorem Store.wf_write {size : Nat} {st : Store α} (hw : Store.wf size st) {i : Nat} (hi : i < size) (v : α) :
    Store.wf size (Store.write st i v) := by
  obtain ⟨hp, hb⟩ := hw
  refine ⟨?_, fun c hc => ?_⟩
  · clear hb
    induction st with
    | nil => simp [Store.write]
    | cons c st ih =>
      obtain ⟨j, u⟩ := c
      have hp' := List.pairwise_cons.mp hp
      rw [Store.write]
      split
      · rename_i hij
        refine List.pairwise_cons.mpr ⟨fun d hd => ?_, hp⟩
        rcases List.mem_cons.mp hd with rfl | hd
        · exact hij
        · exact Nat.lt_trans hij (hp'.1 d hd)
      · split
        · rename_i e; subst e
          exact List.pairwise_cons.mpr ⟨fun d hd => hp'.1 d hd, hp'.2⟩
        · rename_i h1 h2
          refine List.pairwise_cons.mpr ⟨fun d hd => ?_, ih hp'.2⟩
          rcases Store.mem_write hd with rfl | hd
          · simp only; omega
          · exact hp'.1 d hd
  · rcases Store.mem_write hc with rfl | hc
    · exact hi
    · exact hb c hc

/-! ### `Store.ofList` -/

theorem Store.read_ofList (start : Nat) (vs : List α) (i : Nat) :
    Store.read (Store.ofList start vs) i = if start ≤ i then vs[i - start]? else none := by
  induction vs generalizing start with
  | nil => simp [Store.ofList]
  | cons v vs ih =>
    rw [Store.ofList, Store.read_cons, ih]
    by_cases h : start = i
    · subst h; simp
    · by_cases h' : start ≤ i
      · obtain ⟨k, rfl⟩ : ∃ k, i = start + 1 + k := ⟨i - (start + 1), by omega⟩
        have e : start + 1 + k - start = k + 1 := by omega
        have e' : start + 1 + k - (start + 1) = k := by omega
        rw [if_neg h, if_pos (by omega), if_pos h', e, e', List.getElem?_cons_succ]
      · rw [if_neg h, if_neg (by omega), if_neg h']

theorem Store.mem_ofList {start : Nat} {vs : List α} {c : Nat × α} (h : c ∈ Store.ofList start vs) :
    start ≤ c.1 ∧ c.1 < start + vs.length ∧ c.2 ∈ vs := by
  induction vs generalizing start with
  | nil => simp [Store.ofList] at h
  | cons v vs ih =>
    rw [Store.ofList] at h
    rcases List.mem_cons.mp h with rfl | h
    · simp
    · obtain ⟨h1, h2, h3⟩ := ih h
      refine ⟨by omega, by simp only [List.length_cons]; omega, List.mem_cons_of_mem _ h3⟩

theorem Store.pairwise_ofList (start : Nat) (vs : List α) :
    (Store.ofList start vs).Pairwise (fun a b => a.1 < b.1) := by
  induction vs generalizing start with
  | nil => simp [Store.ofList]
  | cons v vs ih =>
    rw [Store.ofList]
    refine List.pairwise_cons.mpr ⟨fun c hc => ?_, ih _⟩
    have := (Store.mem_ofList hc).1
    simp only; omega

/-! ### `Store.writePrefix` -/

theorem Store.read_append (st st' : Store α) (i : Nat) :
    Store.read (st ++ st') i = (Store.read st i).or (Store.read st' i) := by
  induction st with
  | nil => simp
  | cons c st ih =>
    obtain ⟨j, u⟩ := c
    by_cases h : j = i <;> simp [h, ih]

theorem Store.read_filter_ge (st : Store α) {n i : Nat} (h : n ≤ i) :
    Store.read (st.filter (fun c => n ≤ c.1)) i = Store.read st i := by
  induction st with
  | nil => rfl
  | cons c st ih =>
    obtain ⟨j, u⟩ := c
    by_cases hj : n ≤ j
    · simp [hj, ih]
    · have : ¬ j = i := by omega
      simp [hj, ih, this]

/-- A command's write to elements 0 to `vs.length - 1`: these read as written, all others as before. -/
theorem Store.read_writePrefix (st : Store α) (vs : List α) (i : Nat) :
    Store.read (Store.writePrefix st vs) i = if i < vs.length then vs[i]? else Store.read st i := by
  rw [Store.writePrefix, Store.read_append, Store.read_ofList]
  by_cases h : i < vs.length
  · simp [h]
  · rw [Store.read_filter_ge st (by omega : vs.length ≤ i)]
    simp [h]

theorem Store.read_writePrefix_lt (st : Store α) (vs : List α) {i : Nat} (h : i < vs.length) :
    Store.read (Store.writePrefix st vs) i = some vs[i] := by
  rw [Store.read_writePrefix, if_pos h, List.getElem?_eq_getElem h]

theorem Store.read_writePrefix_ge (st : Store α) (vs : List α) {i : Nat} (h : vs.length ≤ i) :
    Store.read (Store.writePrefix st vs) i = Store.read st i := by
  rw [Store.read_writePrefix, if_neg (by omega)]

theorem Store.mem_writePrefix {st : Store α} {vs : List α} {c : Nat × α} (h : c ∈ Store.writePrefix st vs) :
    c.2 ∈ vs ∨ c ∈ st := by
  rw [Store.writePrefix] at h
  rcases List.mem_append.mp h with h | h
  · exact .inl (Store.mem_ofList h).2.2
  · exact .inr (List.mem_filter.mp h).1

/-- A prefix that fits keeps the canonical form. -/
theorem Store.wf_writePrefix {size : Nat} {st : Store α} (hw : Store.wf size st) {vs : List α}
    (hv : vs.length ≤ size) : Store.wf size (Store.writePrefix st vs) := by
  rw [Store.writePrefix]
  refine ⟨List.pairwise_append.mpr ⟨Store.pairwise_ofList 0 vs, hw.1.filter _, fun a ha b hb => ?_⟩, fun c hc => ?_⟩
  · have h1 := (Store.mem_ofList ha).2.1
    have h2 := (List.mem_filter.mp hb).2
    simp only [decide_eq_true_eq] at h2
    omega
  · rcases List.mem_append.mp hc with h | h
    · have := (Store.mem_ofList h).2.1
      omega
    · exact hw.2 c (List.mem_filter.mp h).1

/-- Two stores in canonical form that read alike are equal. -/
theorem Store.ext_of_wf {size : Nat} {st st' : Store α} (hw : Store.wf size st) (hw' : Store.wf size st')
    (h : ∀ i, Store.read st i = Store.read st' i) : st = st' := by
  refine List.Perm.eq_of_pairwise (le := fun a b : Nat × α => a.1 < b.1) ?_ hw.1 hw'.1 ?_
  · intro a b _ _ h1 h2; exact absurd h1 (by omega)
  · have nd : ∀ {l : Store α}, Store.wf size l → l.Nodup := fun h =>
      h.1.imp (fun hlt e => by subst e; exact Nat.lt_irrefl _ hlt)
    refine (List.perm_ext_iff_of_nodup (nd hw) (nd hw')).mpr fun c => ⟨fun hc => ?_, fun hc => ?_⟩
    · exact Store.mem_of_read ((h c.1).symm.trans (Store.read_of_mem hw hc))
    · exact Store.mem_of_read ((h c.1).trans (Store.read_of_mem hw' hc))

end Sys2Proof.Machine
end

