-- ==== Sys2Proof/Laws/Ops.lean ====
section
/-! SUPPORT. What the shared operations of a command can do. -/

namespace Sys2Proof.Machine

/-! ### Sequencing -/

theorem Stop.bind_ok {α β : Type} (a : α) (f : α → Except Stop β) : (Except.ok a >>= f) = f a := rfl

theorem Stop.bind_error {α β : Type} (e : Stop) (f : α → Except Stop β) :
    ((Except.error e : Except Stop α) >>= f) = Except.error e := rfl

theorem Stop.pure_ok {α : Type} (a : α) : (pure a : Except Stop α) = Except.ok a := rfl

/-- A sequence that succeeds: both parts succeed. -/
theorem Stop.bind_eq_ok {α β : Type} {x : Except Stop α} {f : α → Except Stop β} {b : β} :
    (x >>= f) = .ok b ↔ ∃ a, x = .ok a ∧ f a = .ok b := by
  cases x with
  | ok a => simp [Stop.bind_ok]
  | error e => simp [Stop.bind_error]

theorem raise_ne_ok {α : Type} {c : ErrCode} {s : Byte} {p i : Word} {a : α} : raise c s p i ≠ .ok a := by
  simp [raise]

/-- A read inside a command gives the element, or the run has no defined result. -/
theorem memRead_ok {α : Type} {st : Store α} {i : Nat} {f : Fault} {v : α} :
    memRead st i f = .ok v ↔ Store.read st i = some v := by
  unfold memRead
  split <;> simp_all

theorem memRead_of_read {α : Type} {st : Store α} {i : Nat} {v : α} (h : Store.read st i = some v) (f : Fault) :
    memRead st i f = .ok v := memRead_ok.mpr h

theorem memRead_of_none {α : Type} {st : Store α} {i : Nat} (h : Store.read st i = none) (f : Fault) :
    memRead st i f = .error (.undefined f) := by
  unfold memRead
  rw [h]

/-- A completed command committed, or recorded its error. -/
theorem State.finish_next {α : Type} {s t : State} {r : Except Stop α} {commit : α → State → State}
    (h : s.finish r commit = .next t) :
    (∃ a, r = .ok a ∧ t = (commit a s).succeed) ∨ (∃ e, r = .error (.raise e) ∧ t = s.recordError e) := by
  cases r with
  | ok a => exact .inl ⟨a, rfl, by simpa [State.finish] using h.symm⟩
  | error e =>
    cases e with
    | raise e => exact .inr ⟨e, rfl, by simpa [State.finish] using h.symm⟩
    | undefined f => simp [State.finish] at h

/-- A completed command did not end in an error: it committed. -/
theorem State.finish_next_ok {α : Type} {s t : State} {r : Except Stop α} {commit : α → State → State}
    (h : s.finish r commit = .next t) (he : t.err = false) : ∃ a, r = .ok a ∧ t = (commit a s).succeed := by
  rcases State.finish_next h with h | ⟨e, -, rfl⟩
  · exact h
  · simp at he

/-- A command that faults read what nothing has written. -/
theorem State.finish_fault {α : Type} {s : State} {f : Fault} {r : Except Stop α} {commit : α → State → State}
    (h : s.finish r commit = .fault f) : r = .error (.undefined f) := by
  cases r with
  | ok a => simp [State.finish] at h
  | error e =>
    cases e with
    | raise e => simp [State.finish] at h
    | undefined g => simpa [State.finish] using h

/-- No command is refused. -/
theorem State.finish_not_refused {α : Type} {s : State} {r : Except Stop α} {commit : α → State → State}
    {q : Refusal} : s.finish r commit ≠ .refused q := by
  cases r with
  | ok a => simp [State.finish]
  | error e => cases e <;> simp [State.finish]

theorem State.inputs_idle {s : State} (h : s.phase = .idle) : s.inputs = s.currentInputs := by
  rw [State.inputs, h]

theorem State.inputs_busy {s : State} {op : Instr} {x : Inputs} (h : s.phase = .busy op x) : s.inputs = x := by
  rw [State.inputs, h]

@[simp] theorem State.inputs_accept (s : State) (w : Word) (wait : Nat) : (s.accept w wait).inputs = s.currentInputs :=
  rfl

@[simp] theorem State.inputs_quiet (s : State) : s.quiet.inputs = s.inputs := rfl

/-- What `outstanding` says of the ports: the request waits for its acknowledge. -/
theorem State.outstanding_eq_some {s : State} {acc : Access} :
    s.outstanding = some acc ↔ s.bus.request = some acc ∧ s.bus.ack = false := by
  unfold State.outstanding
  cases s.bus.ack <;> simp

@[simp] theorem State.outstanding_quiet (s : State) : s.quiet.outstanding = s.outstanding := rfl

end Sys2Proof.Machine
end

