-- ==== Sys2Proof/Laws/TreeBuilder.lean ====
section
/-! SUPPORT. BUILD: the extraction takes the least key, and the merge loop keeps what R130 to R133 say of the nodes. -/

namespace Sys2Proof.Machine

/-! ### Extraction (R122) -/

/-- Whatever is extracted is an entry, and the rest are the others. -/
theorem extractMin_perm {q : List QueueItem} {m : QueueItem} {rest : List QueueItem}
    (h : extractMin q = some (m, rest)) : q.Perm (m :: rest) := by
  induction q generalizing m rest with
  | nil => simp [extractMin] at h
  | cons x xs ih =>
    rw [extractMin] at h
    split at h
    · rename_i hn
      have : xs = [] := by
        cases xs with
        | nil => rfl
        | cons y ys => rw [extractMin] at hn; split at hn <;> (try split at hn) <;> simp at hn
      obtain ⟨rfl, rfl⟩ := by simpa using h
      rw [this]
    · rename_i y ys he
      split at h
      · obtain ⟨rfl, rfl⟩ := by simpa using h
        exact List.Perm.refl _
      · obtain ⟨rfl, rfl⟩ := by simpa using h
        exact ((ih he).cons x).trans (List.Perm.swap _ _ _)

/-- A structure that is not empty gives an entry. -/
theorem extractMin_some {q : List QueueItem} (h : q ≠ []) : ∃ m rest, extractMin q = some (m, rest) := by
  cases q with
  | nil => exact absurd rfl h
  | cons x xs =>
    rw [extractMin]
    split
    · exact ⟨_, _, rfl⟩
    · split <;> exact ⟨_, _, rfl⟩

/-- The key order, as a relation on numbers (R18). -/
theorem QueueItem.before_iff (a b : QueueItem) :
    a.before b = true ↔ a.freq < b.freq ∨ (a.freq = b.freq ∧ a.index < b.index) := by
  simp [QueueItem.before]

/-- The entry extracted has the least frequency, and the least index among entries of that frequency (R122). -/
theorem extractMin_least {q : List QueueItem} {m : QueueItem} {rest : List QueueItem}
    (h : extractMin q = some (m, rest)) {x : QueueItem} (hx : x ∈ rest) : x.before m = false := by
  suffices ∀ y ∈ q, y.before m = false from
    this x ((extractMin_perm h).symm.subset (List.mem_cons_of_mem _ hx))
  clear hx x
  induction q generalizing m rest with
  | nil => simp [extractMin] at h
  | cons z zs ih =>
    rw [extractMin] at h
    split at h
    · rename_i hn
      have hz : zs = [] := by
        cases zs with
        | nil => rfl
        | cons y ys => obtain ⟨m', r', he⟩ := extractMin_some (List.cons_ne_nil y ys); rw [he] at hn; simp at hn
      obtain ⟨rfl, rfl⟩ := by simpa using h
      intro y hy
      rw [hz] at hy
      obtain rfl := by simpa using hy
      simp [QueueItem.before]
    · rename_i w ws he
      have hw := ih he
      intro y hy
      split at h
      · rename_i hb
        obtain ⟨rfl, rfl⟩ := by simpa using h
        rcases List.mem_cons.mp hy with rfl | hy
        · simp [QueueItem.before]
        · have h1 := hw y hy
          rw [QueueItem.before_iff] at hb
          rw [Bool.eq_false_iff, Ne, QueueItem.before_iff] at h1 ⊢
          omega
      · rename_i hb
        obtain ⟨rfl, rfl⟩ := by simpa using h
        rcases List.mem_cons.mp hy with rfl | hy
        · simpa using hb
        · exact hw y hy

theorem extractMin_freq_le {q : List QueueItem} {m : QueueItem} {rest : List QueueItem}
    (h : extractMin q = some (m, rest)) {x : QueueItem} (hx : x ∈ rest) : m.freq ≤ x.freq := by
  have := extractMin_least h hx
  rw [Bool.eq_false_iff, Ne, QueueItem.before_iff] at this
  omega

/-! ### The leaves (R123) -/

theorem leavesFrom_length (fs : List Word) (s : Nat) : (leavesFrom fs s).length = distinctSymbols fs := by
  induction fs generalizing s with
  | nil => rfl
  | cons f fs ih =>
    rw [leavesFrom, distinctSymbols, List.countP_cons]
    split
    · rename_i h; rw [ih]; simp [h, distinctSymbols]
    · rename_i h; simp [h, ih, distinctSymbols]

/-- Each leaf is the leaf of one symbol with a nonzero entry. -/
theorem mem_leavesFrom {fs : List Word} {s : Nat} {nd : Node} :
    nd ∈ leavesFrom fs s ↔ ∃ k f, fs[k]? = some f ∧ f ≠ 0#32 ∧ nd = leafNode f (s + k) := by
  induction fs generalizing s with
  | nil => simp [leavesFrom]
  | cons g fs ih =>
    have step : (∃ k f, (g :: fs)[k]? = some f ∧ f ≠ 0#32 ∧ nd = leafNode f (s + k)) ↔
        (g ≠ 0#32 ∧ nd = leafNode g s) ∨ ∃ k f, fs[k]? = some f ∧ f ≠ 0#32 ∧ nd = leafNode f (s + 1 + k) := by
      constructor
      · rintro ⟨k, f, h1, h2, h3⟩
        cases k with
        | zero => simp at h1; subst h1; exact .inl ⟨h2, by simpa using h3⟩
        | succ k => exact .inr ⟨k, f, by simpa using h1, h2, by rw [h3]; congr 1; omega⟩
      · rintro (⟨h1, h2⟩ | ⟨k, f, h1, h2, h3⟩)
        · exact ⟨0, g, by simp, h1, by simpa using h2⟩
        · exact ⟨k + 1, f, by simpa using h1, h2, by rw [h3]; congr 1; omega⟩
    rw [step, leavesFrom]
    split
    · rename_i h; simp [h, ih]
    · rename_i h; simp [h, ih]

/-- The leaves stand in ascending symbol order. -/
theorem leavesFrom_ascending {fs : List Word} {s : Nat} (hs : s + fs.length ≤ 256) :
    (leavesFrom fs s).Pairwise (fun a b => a.sym.toNat < b.sym.toNat) := by
  induction fs generalizing s with
  | nil => simp [leavesFrom]
  | cons f fs ih =>
    simp only [List.length_cons] at hs
    rw [leavesFrom]
    split
    · exact ih (by omega)
    · refine List.pairwise_cons.mpr ⟨fun nd hnd => ?_, ih (by omega)⟩
      obtain ⟨k, g, hk, -, rfl⟩ := mem_leavesFrom.mp hnd
      have : k < fs.length := (List.getElem?_eq_some_iff.mp hk).1
      simp only [leafNode, BitVec.toNat_ofNat]
      rw [Nat.mod_eq_of_lt (by omega), Nat.mod_eq_of_lt (by omega)]
      omega

@[simp] theorem freqSum_nil : freqSum [] = 0 := rfl

@[simp] theorem freqSum_cons (f : Word) (fs : List Word) : freqSum (f :: fs) = f.toNat + freqSum fs := rfl

theorem leavesFrom_sum (fs : List Word) (s : Nat) :
    ((leavesFrom fs s).map (fun nd => nd.freq.toNat)).sum = freqSum fs := by
  induction fs generalizing s with
  | nil => rfl
  | cons f fs ih =>
    rw [leavesFrom]
    split
    · rename_i h; simp [h, ih]
    · simp [ih, leafNode]

theorem leavesFrom_pos {fs : List Word} {s : Nat} {nd : Node} (h : nd ∈ leavesFrom fs s) : 0 < nd.freq.toNat := by
  obtain ⟨k, f, -, hf, rfl⟩ := mem_leavesFrom.mp h
  simp only [leafNode]
  exact Nat.pos_of_ne_zero fun e => hf (BitVec.eq_of_toNat_eq (by simpa using e))

/-! ### The overflow check (R121) -/

/-- The check passes iff the whole sum fits. -/
theorem firstOverflow_none {fs : List Word} {s acc : Nat} :
    firstOverflow fs s acc = none ↔ (fs = [] ∨ acc + freqSum fs ≤ Config.freqMax) := by
  induction fs generalizing s acc with
  | nil => simp [firstOverflow]
  | cons f fs ih =>
    rw [firstOverflow]
    split
    · rename_i h; simp; omega
    · rename_i h
      rw [ih]
      simp only [freqSum_cons, List.cons_ne_nil, false_or]
      constructor
      · rintro (rfl | h')
        · simp only [freqSum_nil]; omega
        · omega
      · intro h'; exact .inr (by omega)

/-- The check reports the first symbol at which the running sum exceeds the largest frequency. -/
theorem firstOverflow_some {fs : List Word} {s acc k : Nat} :
    firstOverflow fs s acc = some k → s ≤ k ∧ k - s < fs.length ∧ Config.freqMax < acc + freqSum (fs.take (k - s + 1)) ∧
      ∀ j, j < k - s → acc + freqSum (fs.take (j + 1)) ≤ Config.freqMax := by
  induction fs generalizing s acc with
  | nil => simp [firstOverflow]
  | cons f fs ih =>
    rw [firstOverflow]
    split
    · rename_i h
      intro e
      obtain rfl : s = k := by simpa using e
      simp
      omega
    · rename_i h
      intro e
      obtain ⟨h1, h2, h3, h4⟩ := ih e
      have e' : k - s = k - (s + 1) + 1 := by omega
      refine ⟨by omega, by simp only [List.length_cons]; omega, ?_, fun j hj => ?_⟩
      · rw [e', List.take_succ_cons, freqSum_cons]; omega
      · cases j with
        | zero => simp; omega
        | succ j =>
          rw [List.take_succ_cons, freqSum_cons]
          have := h4 j (by omega)
          omega

/-! ### The merge loop (R124) -/

/-- The slots of a list of nodes. -/
abbrev lookIn (nodes : List Node) : Nat → Option Node := fun i => nodes[i]?

/-- What holds between two merges of a tree of `n` leaves whose frequencies sum to `total`. -/
structure MergeInv (n total : Nat) (nodes : List Node) (q : List QueueItem) : Prop where
  count : 1 ≤ n ∧ n ≤ 256
  fits : total ≤ Config.freqMax
  size : nodes.length + q.length = 2 * n
  atLeast : n ≤ nodes.length
  pos : q ≠ []
  nodup : (q.map QueueItem.index).Nodup
  item : ∀ x ∈ q, ∃ nd, nodes[x.index]? = some nd ∧ nd.freq.toNat = x.freq
  weight : (q.map QueueItem.freq).sum = total
  leaf : ∀ i < n, ∃ nd, nodes[i]? = some nd ∧ nd.leaf = true ∧ nd.left = Config.nil ∧ nd.right = Config.nil
  internal : ∀ (i : Nat) (nd : Node), n ≤ i → nodes[i]? = some nd → nd.leaf = false ∧ nd.sym = 0#8 ∧
    nd.left.toNat < i ∧ nd.right.toNat < i ∧ nd.left ≠ nd.right
  sum : ∀ (i : Nat) (nd l r : Node), n ≤ i → nodes[i]? = some nd → nodes[nd.left.toNat]? = some l → nodes[nd.right.toNat]? = some r →
    nd.freq.toNat = l.freq.toNat + r.freq.toNat
  top : ∀ x ∈ q, ∀ i, ¬ IsParent (lookIn nodes) i x.index
  parent : ∀ j, j < nodes.length → j ∉ q.map QueueItem.index →
    ∃ i, i < nodes.length ∧ IsParent (lookIn nodes) i j ∧ ∀ i', IsParent (lookIn nodes) i' j → i' = i
  newest : n < nodes.length → nodes.length - 1 ∈ q.map QueueItem.index
  order : ∀ (i : Nat) (a b : Node), n ≤ i → nodes[i]? = some a → nodes[i + 1]? = some b → a.freq.toNat ≤ b.freq.toNat
  next : ∀ nd : Node, n < nodes.length → nodes[nodes.length - 1]? = some nd →
    q.Pairwise (fun x y => nd.freq.toNat ≤ x.freq + y.freq)
  below : ∀ (i : Nat) (nd : Node), nodes[i]? = some nd → nd.freq.toNat ≤ total

theorem IsParent.append {nodes : List Node} {nd : Node} {i j : Nat} :
    IsParent (lookIn (nodes ++ [nd])) i j ↔
      IsParent (lookIn nodes) i j ∨
        (i = nodes.length ∧ nd.leaf = false ∧ (nd.left.toNat = j ∨ nd.right.toNat = j)) := by
  unfold IsParent lookIn
  constructor
  · rintro ⟨m, h1, h2⟩
    rw [List.getElem?_append] at h1
    split at h1
    · exact .inl ⟨m, h1, h2⟩
    · rename_i hi
      obtain ⟨h, rfl⟩ : i - nodes.length = 0 ∧ nd = m := by
        rcases Nat.eq_zero_or_pos (i - nodes.length) with h | h
        · rw [h] at h1; exact ⟨h, by simpa using h1⟩
        · rw [List.getElem?_eq_none (by simp; omega)] at h1; simp at h1
      exact .inr ⟨by omega, h2⟩
  · rintro (⟨m, h1, h2⟩ | ⟨rfl, h2⟩)
    · exact ⟨m, by rw [List.getElem?_append_left (List.getElem?_eq_some_iff.mp h1).1]; exact h1, h2⟩
    · exact ⟨nd, by simp, h2⟩

theorem getElem?_append_one {nodes : List Node} {nd m : Node} {i : Nat} :
    (nodes ++ [nd])[i]? = some m ↔ nodes[i]? = some m ∨ (i = nodes.length ∧ nd = m) := by
  rw [List.getElem?_append]
  split
  · rename_i h
    constructor
    · exact .inl
    · rintro (h' | ⟨rfl, -⟩)
      · exact h'
      · omega
  · rename_i h
    constructor
    · intro e
      rcases Nat.eq_zero_or_pos (i - nodes.length) with h' | h'
      · rw [h'] at e; exact .inr ⟨by omega, by simpa using e⟩
      · rw [List.getElem?_eq_none (by simp; omega)] at e; simp at e
    · rintro (h' | ⟨rfl, rfl⟩)
      · exact absurd (List.getElem?_eq_some_iff.mp h').1 h
      · simp

/-- One merge keeps the invariant. -/
theorem MergeInv.merge {n total : Nat} {nodes : List Node} {q q1 q2 : List QueueItem} {a b : QueueItem}
    (h : MergeInv n total nodes q) (ha : extractMin q = some (a, q1)) (hb : extractMin q1 = some (b, q2)) :
    MergeInv n total (nodes ++ [internalNode a b])
      ({ freq := a.freq + b.freq, index := nodes.length } :: q2) := by
  have pa := extractMin_perm ha
  have pb := extractMin_perm hb
  have perm : q.Perm (a :: b :: q2) := pa.trans (pb.cons a)
  have hlen : q.length = q2.length + 2 := by simpa using perm.length_eq
  have hsz := h.size
  have hcnt := h.count
  have hnl : nodes.length ≤ 510 := by omega
  have hmem : ∀ x, x ∈ q ↔ x = a ∨ x = b ∨ x ∈ q2 := fun x => by rw [perm.mem_iff]; simp
  have hidx : ∀ x ∈ q, x.index < nodes.length := fun x hx => by
    obtain ⟨nd, h1, -⟩ := h.item x hx
    exact (List.getElem?_eq_some_iff.mp h1).1
  have haq : a ∈ q := (hmem a).mpr (.inl rfl)
  have hbq : b ∈ q := (hmem b).mpr (.inr (.inl rfl))
  have hai := hidx a haq
  have hbi := hidx b hbq
  have hnd : (a.index :: b.index :: q2.map QueueItem.index).Nodup :=
    (perm.map QueueItem.index).nodup_iff.mp h.nodup
  have hab : a.index ≠ b.index := fun e => by
    rw [List.nodup_cons] at hnd
    exact hnd.1 (by simp [e])
  have hsum : a.freq + b.freq + (q2.map QueueItem.freq).sum = total := by
    rw [← h.weight, (perm.map QueueItem.freq).sum_nat]
    simp; omega
  have hfits := h.fits
  have hmax : Config.freqMax < 2 ^ 32 := by decide
  have hfreq : (internalNode a b).freq.toNat = a.freq + b.freq := by
    simp only [internalNode, BitVec.toNat_ofNat]
    exact Nat.mod_eq_of_lt (by omega)
  have hleft : (internalNode a b).left.toNat = a.index := by
    simp only [internalNode, BitVec.toNat_ofNat]
    exact Nat.mod_eq_of_lt (by omega)
  have hright : (internalNode a b).right.toNat = b.index := by
    simp only [internalNode, BitVec.toNat_ofNat]
    exact Nat.mod_eq_of_lt (by omega)
  have hle1 : ∀ x ∈ q1, a.freq ≤ x.freq := fun x hx => extractMin_freq_le ha hx
  have hle2 : ∀ x ∈ q2, b.freq ≤ x.freq := fun x hx => extractMin_freq_le hb hx
  have hab' : a.freq ≤ b.freq := hle1 b (pb.symm.subset (by simp))
  refine
    { count := h.count
      fits := h.fits
      size := by simp; omega
      atLeast := by have := h.atLeast; simp; omega
      pos := by simp
      nodup := ?_
      item := ?_
      weight := by simpa using hsum
      leaf := ?_
      internal := ?_
      sum := ?_
      top := ?_
      parent := ?_
      newest := fun _ => by simp
      order := ?_
      next := ?_
      below := ?_ }
  · -- nodup
    rw [List.map_cons, List.nodup_cons]
    refine ⟨fun hm => ?_, (List.nodup_cons.mp (List.nodup_cons.mp hnd).2).2⟩
    obtain ⟨x, hx, e⟩ := List.mem_map.mp hm
    have := hidx x ((hmem x).mpr (.inr (.inr hx)))
    simp only at e
    omega
  · -- item
    intro x hx
    rcases List.mem_cons.mp hx with rfl | hx
    · exact ⟨internalNode a b, by simp, hfreq⟩
    · obtain ⟨nd, h1, h2⟩ := h.item x ((hmem x).mpr (.inr (.inr hx)))
      exact ⟨nd, getElem?_append_one.mpr (.inl h1), h2⟩
  · -- leaf
    intro i hi
    obtain ⟨nd, h1, h2⟩ := h.leaf i hi
    exact ⟨nd, getElem?_append_one.mpr (.inl h1), h2⟩
  · -- internal
    intro i nd hi he
    rcases getElem?_append_one.mp he with he | ⟨rfl, rfl⟩
    · exact h.internal i nd hi he
    · refine ⟨rfl, rfl, by omega, by omega, fun e => hab ?_⟩
      rw [← hleft, ← hright, e]
  · -- sum
    intro i nd l r hi he hl hr
    rcases getElem?_append_one.mp he with he | ⟨rfl, rfl⟩
    · have hin := h.internal i nd hi he
      have hilt : i < nodes.length := (List.getElem?_eq_some_iff.mp he).1
      rcases getElem?_append_one.mp hl with hl | ⟨e, -⟩
      · rcases getElem?_append_one.mp hr with hr | ⟨e, -⟩
        · exact h.sum i nd l r hi he hl hr
        · omega
      · omega
    · rw [hleft] at hl
      rw [hright] at hr
      obtain ⟨l', h1, h2⟩ := h.item a haq
      obtain ⟨r', h3, h4⟩ := h.item b hbq
      rcases getElem?_append_one.mp hl with hl | ⟨e, -⟩
      · rcases getElem?_append_one.mp hr with hr | ⟨e, -⟩
        · rw [h1] at hl; rw [h3] at hr
          obtain rfl := Option.some.inj hl
          obtain rfl := Option.some.inj hr
          omega
        · omega
      · omega
  · -- top
    intro x hx i hp
    rcases IsParent.append.mp hp with hp | ⟨rfl, -, hp⟩
    · rcases List.mem_cons.mp hx with rfl | hx
      · obtain ⟨nd, h1, h2, h3⟩ := hp
        have hilt : i < nodes.length := (List.getElem?_eq_some_iff.mp h1).1
        have hni : n ≤ i := by
          by_contra hc
          obtain ⟨nd', h1', h2', -⟩ := h.leaf i (by omega)
          simp only [lookIn] at h1
          rw [h1'] at h1
          obtain rfl := Option.some.inj h1
          simp [h2'] at h2
        have := h.internal i nd hni h1
        simp only at h3
        omega
      · exact h.top x ((hmem x).mpr (.inr (.inr hx))) i hp
    · rw [hleft, hright] at hp
      rcases List.mem_cons.mp hx with rfl | hx
      · simp only at hp; omega
      · rw [List.nodup_cons, List.nodup_cons] at hnd
        have hxi : x.index ∈ q2.map QueueItem.index := List.mem_map_of_mem hx
        rcases hp with hp | hp
        · exact hnd.1 (by rw [hp]; exact List.mem_cons_of_mem _ hxi)
        · exact hnd.2.1 (by rw [hp]; exact hxi)
  · -- parent
    intro j hj hjq
    simp only [List.length_append, List.length_singleton] at hj ⊢
    simp only [List.map_cons, List.mem_cons, not_or] at hjq
    have hjlt : j < nodes.length := by omega
    have old : ∀ i', IsParent (lookIn nodes) i' j → j ∉ q.map QueueItem.index := fun i' hp hm => by
      obtain ⟨x, hx, rfl⟩ := List.mem_map.mp hm
      exact h.top x hx i' hp
    by_cases hc : j = a.index ∨ j = b.index
    · have hjin : j ∈ q.map QueueItem.index := by
        rcases hc with rfl | rfl
        · exact List.mem_map_of_mem haq
        · exact List.mem_map_of_mem hbq
      refine ⟨nodes.length, by omega, IsParent.append.mpr (.inr ⟨rfl, rfl, ?_⟩), fun i' hp => ?_⟩
      · rw [hleft, hright]; rcases hc with e | e
        · exact .inl e.symm
        · exact .inr e.symm
      · rcases IsParent.append.mp hp with hp | ⟨e, -⟩
        · exact absurd hjin (old i' hp)
        · exact e
    · have hjout : j ∉ q.map QueueItem.index := fun hm => by
        rw [(perm.map QueueItem.index).mem_iff] at hm
        simp only [List.map_cons, List.mem_cons] at hm
        rcases hm with e | e | e
        · exact hc (.inl e)
        · exact hc (.inr e)
        · exact hjq.2 e
      obtain ⟨i, h1, h2, h3⟩ := h.parent j hjlt hjout
      refine ⟨i, by omega, IsParent.append.mpr (.inl h2), fun i' hp => ?_⟩
      rcases IsParent.append.mp hp with hp | ⟨-, -, hp⟩
      · exact h3 i' hp
      · rw [hleft, hright] at hp
        exact absurd (hp.imp Eq.symm Eq.symm) hc
  · -- order
    intro i x y hi hx hy
    rcases getElem?_append_one.mp hx with hx | ⟨rfl, rfl⟩
    · have hilt : i < nodes.length := (List.getElem?_eq_some_iff.mp hx).1
      rcases getElem?_append_one.mp hy with hy | ⟨e, rfl⟩
      · exact h.order i x y hi hx hy
      · rw [hfreq]
        have hnx := h.next x (by omega) (by rw [← e]; simpa using hx)
        have hs : (a :: b :: q2).Pairwise (fun u v => x.freq.toNat ≤ u.freq + v.freq) :=
          (perm.pairwise_iff (fun {u v} huv => by rw [Nat.add_comm]; exact huv)).mp hnx
        exact (List.pairwise_cons.mp hs).1 b (by simp)
    · rw [List.getElem?_eq_none (by simp)] at hy; simp at hy
  · -- next
    intro nd _ he
    have : (nodes ++ [internalNode a b]).length - 1 = nodes.length := by simp
    rw [this] at he
    obtain rfl : internalNode a b = nd := by simpa using he
    rw [hfreq]
    refine List.pairwise_cons.mpr ⟨fun y hy => ?_, ?_⟩
    · simp only; omega
    · exact List.pairwise_iff_forall_sublist.mpr fun {x y} hxy => by
        have hx : x ∈ q2 := hxy.subset (by simp)
        have hy : y ∈ q2 := hxy.subset (by simp)
        have := hle2 x hx
        have := hle2 y hy
        omega
  · -- below
    intro i nd he
    rcases getElem?_append_one.mp he with he | ⟨rfl, rfl⟩
    · exact h.below i nd he
    · rw [hfreq]; omega

/-- With enough rounds the loop ends with one entry left, whose node is the root and the newest node. -/
theorem MergeInv.mergeLoop {n total : Nat} {rounds : Nat} {nodes : List Node} {q : List QueueItem}
    (h : MergeInv n total nodes q) (hr : q.length ≤ rounds) :
    ∃ x, MergeInv n total (mergeLoop rounds nodes q).nodes [x] ∧ (mergeLoop rounds nodes q).root = x.index ∧
      nodes <+: (Machine.mergeLoop rounds nodes q).nodes := by
  induction rounds generalizing nodes q with
  | zero => exact absurd (List.length_eq_zero_iff.mp (by omega)) h.pos
  | succ rounds ih =>
    obtain ⟨a, q1, ha⟩ := extractMin_some h.pos
    rw [Machine.mergeLoop, ha]
    rcases hq : q1 with _ | ⟨y, ys⟩
    · refine ⟨a, ?_, rfl, List.prefix_refl _⟩
      have : q = [a] := by
        have := extractMin_perm ha
        rw [hq] at this
        exact List.perm_singleton.mp this
      rw [this] at h
      simpa [extractMin] using h
    · obtain ⟨b, q2, hb⟩ := extractMin_some (List.cons_ne_nil y ys)
      simp only [hb]
      rw [← hq] at hb
      have hlen : q.length = q2.length + 2 := by
        simpa using ((extractMin_perm ha).trans ((extractMin_perm hb).cons a)).length_eq
      obtain ⟨x, h1, h2, h3⟩ := ih (h.merge ha hb) (by simp; omega)
      exact ⟨x, h1, h2, (List.prefix_append nodes _).trans h3⟩

theorem queueFrom_length (k : Nat) (nds : List Node) : (queueFrom k nds).length = nds.length := by
  induction nds generalizing k with
  | nil => rfl
  | cons nd nds ih => simp [queueFrom, ih]

theorem queueFrom_index (k : Nat) (nds : List Node) :
    (queueFrom k nds).map QueueItem.index = List.range' k nds.length := by
  induction nds generalizing k with
  | nil => rfl
  | cons nd nds ih => simp [queueFrom, ih, List.range'_succ]

theorem queueFrom_freq (k : Nat) (nds : List Node) :
    (queueFrom k nds).map QueueItem.freq = nds.map (fun nd => nd.freq.toNat) := by
  induction nds generalizing k with
  | nil => rfl
  | cons nd nds ih => simp [queueFrom, ih]

theorem mem_queueFrom {k : Nat} {nds : List Node} {x : QueueItem} (h : x ∈ queueFrom k nds) :
    k ≤ x.index ∧ ∃ nd, nds[x.index - k]? = some nd ∧ nd.freq.toNat = x.freq := by
  induction nds generalizing k with
  | nil => simp [queueFrom] at h
  | cons nd nds ih =>
    rw [queueFrom] at h
    rcases List.mem_cons.mp h with rfl | h
    · simp
    · obtain ⟨h1, m, h2, h3⟩ := ih h
      refine ⟨by omega, m, ?_, h3⟩
      rw [show x.index - k = x.index - (k + 1) + 1 by omega, List.getElem?_cons_succ]
      exact h2

/-- The invariant holds before the first merge. -/
theorem mergeInv_start {fs : List Word} (hl : fs.length = 256) (hn : distinctSymbols fs ≠ 0)
    (hs : freqSum fs ≤ Config.freqMax) :
    MergeInv (distinctSymbols fs) (freqSum fs) (leavesFrom fs 0) (queueFrom 0 (leavesFrom fs 0)) := by
  have hlen := leavesFrom_length fs 0
  have hle : distinctSymbols fs ≤ 256 := by rw [← hl]; exact List.countP_le_length
  have isLeaf : ∀ (i : Nat) (nd : Node), (leavesFrom fs 0)[i]? = some nd → nd.leaf = true ∧ nd.left = Config.nil ∧ nd.right = Config.nil := by
    intro i nd h
    obtain ⟨k, f, -, -, rfl⟩ := mem_leavesFrom.mp (List.mem_of_getElem? h)
    exact ⟨rfl, rfl, rfl⟩
  have inRange : ∀ (i : Nat) (nd : Node), (leavesFrom fs 0)[i]? = some nd → i < distinctSymbols fs := fun i nd h => by
    rw [← hlen]; exact (List.getElem?_eq_some_iff.mp h).1
  have noParent : ∀ i j, ¬ IsParent (lookIn (leavesFrom fs 0)) i j := by
    rintro i j ⟨nd, h1, h2, -⟩
    rw [(isLeaf i nd h1).1] at h2
    exact absurd h2 (by simp)
  exact
    { count := ⟨by omega, hle⟩
      fits := hs
      size := by rw [queueFrom_length, hlen]; omega
      atLeast := by omega
      pos := fun e => by
        have := congrArg List.length e
        rw [queueFrom_length, hlen] at this
        exact hn this
      nodup := by rw [queueFrom_index]; exact List.nodup_range'
      item := fun x hx => by simpa using (mem_queueFrom hx).2
      weight := by rw [queueFrom_freq, leavesFrom_sum]
      leaf := fun i hi => by
        obtain ⟨nd, h⟩ : ∃ nd, (leavesFrom fs 0)[i]? = some nd := ⟨_, List.getElem?_eq_getElem (by omega)⟩
        exact ⟨nd, h, isLeaf i nd h⟩
      internal := fun i nd hi h => absurd (inRange i nd h) (by omega)
      sum := fun i nd l r hi h => absurd (inRange i nd h) (by omega)
      top := fun x _ i => noParent i _
      parent := fun j hj hjq => by
        rw [queueFrom_index] at hjq
        exact absurd (List.mem_range'_1.mpr (by omega)) hjq
      newest := fun h => by omega
      order := fun i a b hi h => absurd (inRange i a h) (by omega)
      next := fun nd h => by omega
      below := fun i nd h => by
        rw [← leavesFrom_sum fs 0]
        exact List.le_sum_of_mem (List.mem_map_of_mem (List.mem_of_getElem? h)) }

/-- The tree of a frequency table whose checks pass, at the end of the loop. -/
theorem treeOf_inv {fs : List Word} (hl : fs.length = 256) (hn : distinctSymbols fs ≠ 0)
    (hs : freqSum fs ≤ Config.freqMax) :
    ∃ x, MergeInv (distinctSymbols fs) (freqSum fs) (treeOf fs).nodes [x] ∧ (treeOf fs).root = x.index ∧
      leavesFrom fs 0 <+: (treeOf fs).nodes :=
  (mergeInv_start hl hn hs).mergeLoop (by rw [queueFrom_length])

theorem treeOf_length {fs : List Word} (hl : fs.length = 256) (hn : distinctSymbols fs ≠ 0)
    (hs : freqSum fs ≤ Config.freqMax) : (treeOf fs).nodes.length = 2 * distinctSymbols fs - 1 := by
  obtain ⟨x, h, -, -⟩ := treeOf_inv hl hn hs
  have := h.size
  simp at this
  omega

theorem treeOf_root {fs : List Word} (hl : fs.length = 256) (hn : distinctSymbols fs ≠ 0)
    (hs : freqSum fs ≤ Config.freqMax) : (treeOf fs).root = 2 * distinctSymbols fs - 2 := by
  obtain ⟨x, h, hr, -⟩ := treeOf_inv hl hn hs
  have hsz := h.size
  simp at hsz
  rw [hr]
  by_cases hlt : distinctSymbols fs < (treeOf fs).nodes.length
  · have := h.newest hlt
    simp at this
    omega
  · obtain ⟨nd, h1, -⟩ := h.item x (by simp)
    have := (List.getElem?_eq_some_iff.mp h1).1
    have := h.count
    omega

/-- A tree in one reading is a tree in any reading that agrees on its slots. -/
theorem TreeShape.congr {look look' : Nat → Option Node} {n : Nat} (h : TreeShape look n)
    (he : ∀ i < 2 * n - 1, look' i = look i) : TreeShape look' n := by
  have hc := h.count
  have par : ∀ i j, i < 2 * n - 1 → (IsParent look' i j ↔ IsParent look i j) := fun i j hi => by
    simp only [IsParent, he i hi]
  exact
    { count := h.count
      leaf := fun i hi => by rw [he i (by omega)]; exact h.leaf i hi
      internal := fun i hi hi' => by rw [he i hi']; exact h.internal i hi hi'
      sum := fun i nd l r hi hi' h1 h2 h3 => by
        rw [he i hi'] at h1
        obtain ⟨nd', h1', -, -, hl, hr, -⟩ := h.internal i hi hi'
        rw [h1'] at h1
        obtain rfl := Option.some.inj h1
        rw [he _ (by omega)] at h2 h3
        exact h.sum i nd' l r hi hi' h1' h2 h3
      parent := fun j hj => by
        obtain ⟨i, h1, h2, h3⟩ := h.parent j hj
        exact ⟨i, h1, (par i j h1).mpr h2, fun i' hi' hp => h3 i' hi' ((par i' j hi').mp hp)⟩
      rootTop := fun i hi hp => h.rootTop i hi ((par i _ hi).mp hp)
      ascending := fun i j ni nj hij hj h1 h2 => by
        rw [he i (by omega)] at h1
        rw [he j (by omega)] at h2
        exact h.ascending i j ni nj hij hj h1 h2 }

theorem prefix_getElem? {α : Type} {xs ys : List α} (h : xs <+: ys) {i : Nat} (hi : i < xs.length) : ys[i]? = xs[i]? := by
  obtain ⟨zs, rfl⟩ := h
  rw [List.getElem?_append_left hi]

end Sys2Proof.Machine
end

