-- ==== Sys2Proof/Laws/CodeTable.lean ====
section
/-! SUPPORT. GENCODE: paths in a tree are unique, the walk binds each leaf to its path, and the table holds the
bindings (R150 to R153). -/

namespace Sys2Proof.Machine

variable {look : Nat → Option Node} {n : Nat}

/-! ### Paths -/

@[simp] theorem follow_nil (look : Nat → Option Node) (i : Nat) : follow look i [] = some i := rfl

theorem follow_cons {look : Nat → Option Node} {i : Nat} {nd : Node} (h : look i = some nd) (hl : nd.leaf = false)
    (b : Bool) (p : List Bool) :
    follow look i (b :: p) = follow look (if b then nd.right.toNat else nd.left.toNat) p := by
  simp [follow, h, hl]

theorem follow_cons_some {look : Nat → Option Node} {i j : Nat} {b : Bool} {p : List Bool}
    (h : follow look i (b :: p) = some j) :
    ∃ nd, look i = some nd ∧ nd.leaf = false ∧
      follow look (if b then nd.right.toNat else nd.left.toNat) p = some j := by
  rw [follow] at h
  split at h
  · simp at h
  · rename_i nd hnd
    split at h
    · simp at h
    · rename_i hl
      exact ⟨nd, hnd, by simpa using hl, h⟩

theorem follow_append (look : Nat → Option Node) (i : Nat) (p q : List Bool) :
    follow look i (p ++ q) = (follow look i p).bind (fun j => follow look j q) := by
  induction p generalizing i with
  | nil => rfl
  | cons b p ih =>
    rw [List.cons_append, follow, follow]
    split
    · rfl
    · split
      · rfl
      · exact ih _

/-- The last branch of a path. -/
theorem follow_snoc_some {look : Nat → Option Node} {i j : Nat} {b : Bool} {p : List Bool}
    (h : follow look i (p ++ [b]) = some j) :
    ∃ k nd, follow look i p = some k ∧ look k = some nd ∧ nd.leaf = false ∧
      (if b then nd.right.toNat else nd.left.toNat) = j := by
  rw [follow_append] at h
  obtain ⟨k, h1, h2⟩ := Option.bind_eq_some_iff.mp h
  obtain ⟨nd, h3, h4, h5⟩ := follow_cons_some h2
  exact ⟨k, nd, h1, h3, h4, by simpa using h5⟩

/-- A path leads down: to a slot no higher, and strictly lower if it has a branch. -/
theorem TreeShape.follow_lt (h : TreeShape look n) {i j : Nat} (hi : i < 2 * n - 1) {p : List Bool}
    (hf : follow look i p = some j) : j + p.length ≤ i := by
  induction p generalizing i with
  | nil => simp at hf; simp [hf]
  | cons b p ih =>
    obtain ⟨nd, h1, h2, h3⟩ := follow_cons_some hf
    have hni : n ≤ i := by
      by_contra hc
      obtain ⟨nd', h1', h2', -⟩ := h.leaf i (by omega)
      rw [h1'] at h1
      obtain rfl := Option.some.inj h1
      simp [h2'] at h2
    obtain ⟨nd', h1', -, -, hl, hr, -⟩ := h.internal i hni hi
    rw [h1'] at h1
    obtain rfl := Option.some.inj h1
    have hc : (if b then nd'.right.toNat else nd'.left.toNat) < i := by split <;> assumption
    have := ih (by omega) h3
    simp only [List.length_cons]
    omega

/-- A node that is no leaf is an internal slot. -/
theorem TreeShape.internal_ge (h : TreeShape look n) {i : Nat} {nd : Node} (h1 : look i = some nd)
    (h2 : nd.leaf = false) : n ≤ i := by
  by_contra hc
  obtain ⟨nd', h1', h2', -⟩ := h.leaf i (by omega)
  rw [h1'] at h1
  obtain rfl := Option.some.inj h1
  simp [h2'] at h2

/-- A leaf of the tree is one of the slots 0 to `n - 1`. -/
theorem TreeShape.leaf_lt (h : TreeShape look n) {i : Nat} (hi : i < 2 * n - 1) {nd : Node} (h1 : look i = some nd)
    (h2 : nd.leaf = true) : i < n := by
  by_contra hc
  obtain ⟨nd', h1', h2', -⟩ := h.internal i (by omega) hi
  rw [h1'] at h1
  obtain rfl := Option.some.inj h1
  simp [h2'] at h2

/-- No path is longer than the number of internal nodes (R133). -/
theorem TreeShape.follow_length (h : TreeShape look n) {j : Nat} {p : List Bool}
    (hf : follow look (2 * n - 2) p = some j) : p.length ≤ n - 1 := by
  have hc := h.count
  rcases List.eq_nil_or_concat p with rfl | ⟨q, b, rfl⟩
  · simp
  · rw [List.concat_eq_append] at hf ⊢
    obtain ⟨k, nd, h1, h2, h3, -⟩ := follow_snoc_some hf
    have h4 := h.internal_ge h2 h3
    have h5 := h.follow_lt (by omega) h1
    simp only [List.length_append, List.length_singleton]
    omega

/-- Two paths from the root to the same node are the same (R130 (d)). -/
theorem TreeShape.follow_unique (h : TreeShape look n) {j : Nat} {p q : List Bool}
    (hp : follow look (2 * n - 2) p = some j) (hq : follow look (2 * n - 2) q = some j) : p = q := by
  have hc := h.count
  have edge : ∀ {r : List Bool} {b : Bool} {j : Nat}, follow look (2 * n - 2) (r ++ [b]) = some j →
      ∃ k nd, follow look (2 * n - 2) r = some k ∧ look k = some nd ∧ nd.leaf = false ∧ k < 2 * n - 1 ∧
        (if b then nd.right.toNat else nd.left.toNat) = j ∧ IsParent look k j := by
    intro r b j hr
    obtain ⟨k, nd, h1, h2, h3, h4⟩ := follow_snoc_some hr
    have := h.follow_lt (by omega) h1
    refine ⟨k, nd, h1, h2, h3, by omega, h4, nd, h2, h3, ?_⟩
    cases b
    · exact .inl (by simpa using h4)
    · exact .inr (by simpa using h4)
  induction p using List.reverseRecOn generalizing q j with
  | nil =>
    rcases List.eq_nil_or_concat q with rfl | ⟨q, c, rfl⟩
    · rfl
    · rw [List.concat_eq_append] at hq
      obtain ⟨k, nd, -, -, -, h1, -, h2⟩ := edge hq
      simp only [follow_nil, Option.some.injEq] at hp
      subst hp
      exact absurd h2 (h.rootTop k h1)
  | append_singleton p b ih =>
    obtain ⟨k, nd, h1, h2, h3, h4, h5, h6⟩ := edge hp
    rcases List.eq_nil_or_concat q with rfl | ⟨q, c, rfl⟩
    · simp only [follow_nil, Option.some.injEq] at hq
      subst hq
      exact absurd h6 (h.rootTop k h4)
    · rw [List.concat_eq_append] at hq ⊢
      obtain ⟨k', nd', h1', h2', h3', h4', h5', h6'⟩ := edge hq
      have hj : j < 2 * n - 2 := by
        have := h.follow_lt (by omega) hp
        simp only [List.length_append, List.length_singleton] at this
        omega
      obtain ⟨i, -, -, hu⟩ := h.parent j hj
      obtain rfl : k = k' := (hu k h4 h6).trans (hu k' h4' h6').symm
      rw [h2] at h2'
      obtain rfl := Option.some.inj h2'
      obtain ⟨m, hm, -, -, -, -, hne⟩ := h.internal k (h.internal_ge h2 h3) h4
      rw [h2] at hm
      obtain rfl := Option.some.inj hm
      rw [ih h1 h1']
      have : b = c := by
        cases b <;> cases c
        · rfl
        · exact absurd (BitVec.eq_of_toNat_eq (by simpa using h5.trans h5'.symm)) hne
        · exact absurd (BitVec.eq_of_toNat_eq (by simpa using h5'.trans h5.symm)) hne
        · rfl
      rw [this]

/-- A symbol stands at one leaf only (R132). -/
theorem TreeShape.leaf_of_sym (h : TreeShape look n) {i j : Nat} {ni nj : Node} (hi : i < n) (hj : j < n)
    (h1 : look i = some ni) (h2 : look j = some nj) (hs : ni.sym = nj.sym) : i = j := by
  rcases Nat.lt_trichotomy i j with hlt | rfl | hlt
  · have := h.ascending i j ni nj hlt hj h1 h2
    rw [hs] at this; omega
  · rfl
  · have := h.ascending j i nj ni hlt hi h2 h1
    rw [hs] at this; omega

/-- A symbol has at most one codeword. -/
theorem TreeShape.codeword_unique (h : TreeShape look n) {s : Byte} {p q : List Bool}
    (hp : Codeword look (2 * n - 2) s p) (hq : Codeword look (2 * n - 2) s q) : p = q := by
  have hc := h.count
  obtain ⟨i, ni, h1, h2, h3, h4⟩ := hp
  obtain ⟨j, nj, h1', h2', h3', h4'⟩ := hq
  have slot : ∀ {i : Nat} {r : List Bool}, ((i = 2 * n - 2 ∧ r = [false]) ∨
      (r ≠ [] ∧ follow look (2 * n - 2) r = some i)) → i < 2 * n - 1 := by
    rintro i r (⟨rfl, -⟩ | ⟨-, hf⟩)
    · omega
    · have := h.follow_lt (by omega) hf
      omega
  have hi := h.leaf_lt (slot h4) h1 h2
  have hj := h.leaf_lt (slot h4') h1' h2'
  obtain rfl : i = j := h.leaf_of_sym hi hj h1 h1' (h3.trans h3'.symm)
  have top : ∀ {r : List Bool}, i = 2 * n - 2 → r ≠ [] → follow look (2 * n - 2) r ≠ some i := by
    intro r e hr hf
    have := h.follow_lt (by omega) hf
    have : r.length = 0 := by omega
    exact hr (List.length_eq_zero_iff.mp this)
  rcases h4 with ⟨e, rfl⟩ | ⟨hne, hf⟩ <;> rcases h4' with ⟨e', rfl⟩ | ⟨hne', hf'⟩
  · rfl
  · exact absurd hf' (top e hne')
  · exact absurd hf (top e' hne)
  · exact h.follow_unique hf hf'

/-! ### The walk (R152) -/

/-- The walk from a node of a tree ends, and binds exactly the leaves below the node, each to the path that leads to
it. -/
theorem walk_ok {st : Store Node} (h : TreeShape (Store.read st) n) {depth i : Nat} (hi : i < 2 * n - 1)
    (hd : 1 ≤ depth) (hd' : i + 2 ≤ depth + n) (p : List Bool) :
    ∃ bs, walk st depth i p = .ok bs ∧ ∀ b, b ∈ bs ↔ ∃ q j nd, follow (Store.read st) i q = some j ∧
      Store.read st j = some nd ∧ nd.leaf = true ∧ b = { sym := nd.sym, bits := p ++ q } := by
  induction depth generalizing i p with
  | zero => omega
  | succ depth ih =>
    rw [walk]
    by_cases hin : i < n
    · obtain ⟨nd, h1, h2, -⟩ := h.leaf i hin
      rw [memRead_of_read h1, Stop.bind_ok, if_pos h2]
      refine ⟨_, rfl, fun b => ?_⟩
      constructor
      · intro hb
        obtain rfl := by simpa using hb
        exact ⟨[], i, nd, rfl, h1, h2, by simp⟩
      · rintro ⟨q, j, nd', hq, h3, -, rfl⟩
        cases q with
        | nil =>
          simp only [follow_nil, Option.some.injEq] at hq
          subst hq
          rw [h1] at h3
          obtain rfl := Option.some.inj h3
          simp
        | cons c q =>
          obtain ⟨m, hm, hm', -⟩ := follow_cons_some hq
          rw [h1] at hm
          obtain rfl := Option.some.inj hm
          simp [h2] at hm'
    · obtain ⟨nd, h1, h2, -, hl, hr, -⟩ := h.internal i (by omega) hi
      obtain ⟨bl, e1, m1⟩ := ih (i := nd.left.toNat) (by omega) (by omega) (by omega) (p ++ [false])
      obtain ⟨br, e2, m2⟩ := ih (i := nd.right.toNat) (by omega) (by omega) (by omega) (p ++ [true])
      rw [memRead_of_read h1, Stop.bind_ok, if_neg (by simp [h2]), e1, Stop.bind_ok, e2, Stop.bind_ok]
      refine ⟨bl ++ br, rfl, fun b => ?_⟩
      rw [List.mem_append, m1, m2]
      constructor
      · rintro (⟨q, j, m, hq, h3, h4, rfl⟩ | ⟨q, j, m, hq, h3, h4, rfl⟩)
        · exact ⟨false :: q, j, m, by rw [follow_cons h1 h2]; simpa using hq, h3, h4, by simp⟩
        · exact ⟨true :: q, j, m, by rw [follow_cons h1 h2]; simpa using hq, h3, h4, by simp⟩
      · rintro ⟨q, j, m, hq, h3, h4, rfl⟩
        cases q with
        | nil =>
          simp only [follow_nil, Option.some.injEq] at hq
          subst hq
          rw [h1] at h3
          obtain rfl := Option.some.inj h3
          simp [h2] at h4
        | cons c q =>
          rw [follow_cons h1 h2] at hq
          cases c
          · exact .inl ⟨q, j, m, by simpa using hq, h3, h4, by simp⟩
          · exact .inr ⟨q, j, m, by simpa using hq, h3, h4, by simp⟩

/-- The bindings of a tree are its codewords (R151, R152). -/
theorem bindings_ok {st : Store Node} (h : TreeShape (Store.read st) n) :
    ∃ bs, bindings st (2 * n - 2) = .ok bs ∧
      ∀ b, b ∈ bs ↔ b.bits ≠ [] ∧ Codeword (Store.read st) (2 * n - 2) b.sym b.bits := by
  have hc := h.count
  have hmax : Config.maxCodeLen = 255 := rfl
  have hns : Config.nsym = 256 := rfl
  unfold bindings
  by_cases h1 : n = 1
  · subst h1
    obtain ⟨nd, e1, e2, -⟩ := h.leaf 0 (by omega)
    rw [show 2 * 1 - 2 = 0 from rfl, memRead_of_read e1, Stop.bind_ok, if_pos e2]
    refine ⟨_, rfl, fun b => ?_⟩
    constructor
    · intro hb
      obtain rfl := by simpa using hb
      exact ⟨by simp, 0, nd, e1, e2, rfl, .inl ⟨rfl, rfl⟩⟩
    · rintro ⟨-, i, m, h3, -, h5, ⟨rfl, h6⟩ | ⟨hne, hf⟩⟩
      · rw [e1] at h3
        obtain rfl := Option.some.inj h3
        cases b
        simp_all
      · have := h.follow_lt (i := 0) (by omega) hf
        exact absurd (List.length_eq_zero_iff.mp (by omega : b.bits.length = 0)) hne
  · obtain ⟨nd, e1, e2, -⟩ := h.internal (2 * n - 2) (by omega) (by omega)
    obtain ⟨bs, e3, hm⟩ := walk_ok h (depth := Config.maxCodeLen + 1) (i := 2 * n - 2) (by omega) (by omega)
      (by omega) []
    rw [memRead_of_read e1, Stop.bind_ok, if_neg (by simp [e2])]
    refine ⟨bs, e3, fun b => ?_⟩
    rw [hm]
    constructor
    · rintro ⟨q, j, m, hq, h3, h4, rfl⟩
      have hne : q ≠ [] := by
        rintro rfl
        simp only [follow_nil, Option.some.injEq] at hq
        subst hq
        rw [e1] at h3
        obtain rfl := Option.some.inj h3
        simp [e2] at h4
      exact ⟨hne, j, m, h3, h4, rfl, .inr ⟨hne, hq⟩⟩
    · rintro ⟨-, i, m, h3, h4, h5, ⟨rfl, -⟩ | ⟨hne, hf⟩⟩
      · rw [e1] at h3
        obtain rfl := Option.some.inj h3
        simp [e2] at h4
      · exact ⟨b.bits, i, m, hf, h3, h4, by cases b; simp_all⟩

/-! ### The table (R153) -/

theorem foldl_set_length (bs : List Binding) (table : List Code) :
    (bs.foldl (fun t b => t.set b.sym.toNat { bits := b.bits }) table).length = table.length := by
  induction bs generalizing table with
  | nil => rfl
  | cons b bs ih => rw [List.foldl_cons, ih, List.length_set]

@[simp] theorem codeTable_length (bs : List Binding) : (codeTable bs).length = 256 := by
  rw [codeTable, foldl_set_length, List.length_replicate]; rfl

theorem foldl_set_other {bs : List Binding} {table : List Code} {s : Nat} (h : ∀ b ∈ bs, b.sym.toNat ≠ s) :
    (bs.foldl (fun t b => t.set b.sym.toNat { bits := b.bits }) table)[s]? = table[s]? := by
  induction bs generalizing table with
  | nil => rfl
  | cons b bs ih =>
    rw [List.foldl_cons, ih fun c hc => h c (List.mem_cons_of_mem _ hc)]
    exact List.getElem?_set_ne (h b (by simp))

theorem foldl_set_bound {bs : List Binding} {table : List Code} (hl : table.length = 256) {b : Binding} (hb : b ∈ bs)
    (hu : ∀ c ∈ bs, c.sym = b.sym → c = b) :
    (bs.foldl (fun t c => t.set c.sym.toNat { bits := c.bits }) table)[b.sym.toNat]? = some { bits := b.bits } := by
  induction bs generalizing table with
  | nil => simp at hb
  | cons c bs ih =>
    rw [List.foldl_cons]
    by_cases hin : b ∈ bs
    · exact ih (by simpa using hl) hin fun d hd => hu d (List.mem_cons_of_mem _ hd)
    · obtain rfl : b = c := by
        rcases List.mem_cons.mp hb with e | e
        · exact e
        · exact absurd e hin
      rw [foldl_set_other]
      · exact List.getElem?_set_self (by rw [hl]; exact b.sym.isLt)
      · intro d hd e
        have := hu d (List.mem_cons_of_mem _ hd) (BitVec.eq_of_toNat_eq e)
        exact hin (this ▸ hd)

/-- The table of a tree's bindings is its code table: each symbol's codeword, no code for a symbol without one. -/
theorem codeTable_isCodeTable {look : Nat → Option Node} {n : Nat} (h : TreeShape look n) {bs : List Binding}
    (hm : ∀ b, b ∈ bs ↔ b.bits ≠ [] ∧ Codeword look (2 * n - 2) b.sym b.bits) (s : Byte) :
    ∃ c, (codeTable bs)[s.toNat]? = some c ∧ ∀ p, p ≠ [] → (c.bits = p ↔ Codeword look (2 * n - 2) s p) := by
  have hl : (List.replicate Config.nsym ({ bits := [] } : Code)).length = 256 := by
    rw [List.length_replicate]; rfl
  by_cases hex : ∃ b ∈ bs, b.sym = s
  · obtain ⟨b, hb, rfl⟩ := hex
    obtain ⟨hne, hcw⟩ := (hm b).mp hb
    refine ⟨_, foldl_set_bound hl hb fun c hc hcs => ?_, fun p _ => ⟨?_, fun hp => h.codeword_unique hcw hp⟩⟩
    · obtain ⟨-, hcw'⟩ := (hm c).mp hc
      rw [hcs] at hcw'
      have := h.codeword_unique hcw' hcw
      cases b; cases c; simp_all
    · rintro rfl; exact hcw
  · refine ⟨{ bits := [] }, ?_, fun p hp => ⟨fun e => absurd e.symm hp, fun hcw => absurd ?_ hex⟩⟩
    · rw [codeTable, foldl_set_other fun b hb e => hex ⟨b, hb, BitVec.eq_of_toNat_eq e⟩]
      have := s.isLt
      rw [List.getElem?_replicate, if_pos (show s.toNat < Config.nsym from this)]
    · exact ⟨{ sym := s, bits := p }, (hm _).mpr ⟨hp, hcw⟩, rfl⟩

end Sys2Proof.Machine
end

