-- ==== Sys2Proof/Laws/Encoder.lean ====
section
/-! SUPPORT. ENCODE: what the checking pass gives, and how it passes over symbols whose codes fit (R170 to R174). -/

namespace Sys2Proof.Machine

/-- A checking pass that succeeds found a code for every symbol, and the whole bit-string fits. -/
theorem encodeScan_ok {p : Params} {x : Inputs} {count i acc : Nat} {cs : List (List Bool)}
    (h : encodeScan p x count i acc = .ok cs) (ha : acc ≤ p.bitDepth) :
    cs.length = count ∧ acc + cs.flatten.length ≤ p.bitDepth ∧
      ∀ (k : Nat) (b : List Bool), cs[k]? = some b → ∃ c, Store.read x.msg (i + k) = some c ∧ HasCode x.code c b := by
  induction count generalizing i acc cs with
  | zero =>
    rw [encodeScan] at h
    obtain rfl := Except.ok.inj h
    simpa using ha
  | succ count ih =>
    rw [encodeScan] at h
    obtain ⟨c, h1, h⟩ := Stop.bind_eq_ok.mp h
    obtain ⟨code, h2, h⟩ := Stop.bind_eq_ok.mp h
    split at h
    · exact absurd h raise_ne_ok
    · rename_i hne
      split at h
      · exact absurd h raise_ne_ok
      · rename_i hfit
        obtain ⟨rest, h3, h⟩ := Stop.bind_eq_ok.mp h
        obtain rfl := Except.ok.inj h
        obtain ⟨g1, g2, g3⟩ := ih h3 (by omega)
        refine ⟨by simp [g1], by simp only [List.flatten_cons, List.length_append]; omega, fun k b hk => ?_⟩
        cases k with
        | zero =>
          obtain rfl : code.bits = b := by simpa using hk
          exact ⟨c, by simpa using memRead_ok.mp h1, memRead_ok.mp h2, fun e => hne (by rw [e]; rfl)⟩
        | succ k =>
          obtain ⟨d, h4, h5⟩ := g3 k b (by simpa using hk)
          exact ⟨d, by rw [← h4]; congr 1; omega, h5⟩

/-- The pass over one symbol whose code fits. -/
theorem encodeScan_step {p : Params} {x : Inputs} {count i acc : Nat} {c : Byte} {b : List Bool}
    (hm : Store.read x.msg i = some c) (hc : HasCode x.code c b) (hf : acc + b.length ≤ p.bitDepth) :
    encodeScan p x (count + 1) i acc =
      (encodeScan p x count (i + 1) (acc + b.length) >>= fun rest => .ok (b :: rest)) := by
  have hl : ¬ b.length = 0 := fun e => hc.2 (List.length_eq_zero_iff.mp e)
  rw [encodeScan, memRead_of_read hm, Stop.bind_ok, memRead_of_read hc.1, Stop.bind_ok, if_neg hl,
    if_neg (show ¬ acc + b.length > p.bitDepth by omega)]
  rfl

/-- The pass over symbols whose codes fit. -/
theorem encodeScan_prefix {p : Params} {x : Inputs} {m : List Byte} {cs : List (List Bool)}
    (hc : List.Forall₂ (HasCode x.code) m cs) {count i acc : Nat}
    (hm : ∀ (k : Nat) (c : Byte), m[k]? = some c → Store.read x.msg (i + k) = some c)
    (hf : acc + cs.flatten.length ≤ p.bitDepth) :
    encodeScan p x (m.length + count) i acc =
      (encodeScan p x count (i + m.length) (acc + cs.flatten.length) >>= fun rest => .ok (cs ++ rest)) := by
  induction hc generalizing i acc with
  | nil =>
    simp only [List.length_nil, Nat.zero_add, Nat.add_zero, List.flatten_nil, List.nil_append]
    cases encodeScan p x count i acc <;> rfl
  | @cons c b m cs h1 _ ih =>
    simp only [List.flatten_cons, List.length_append] at hf
    have hm' : ∀ (k : Nat) (d : Byte), m[k]? = some d → Store.read x.msg (i + 1 + k) = some d := fun k d hk => by
      rw [← hm (k + 1) d (by simpa using hk)]; congr 1; omega
    rw [List.length_cons, show m.length + 1 + count = m.length + count + 1 by omega,
      encodeScan_step (by simpa using hm 0 c (by simp)) h1 (by omega), ih hm' (by omega), List.flatten_cons,
      List.length_append, show i + 1 + m.length = i + (m.length + 1) by omega, Nat.add_assoc]
    cases encodeScan p x count (i + (m.length + 1)) (acc + (b.length + cs.flatten.length)) <;> rfl

/-- The cell of a code bit is one of the two bit-symbols (R64, R176). -/
theorem cellOf_eq (b : Bool) : cellOf b = Config.zeroCell ∨ cellOf b = Config.oneCell := by
  cases b
  · exact .inl rfl
  · exact .inr rfl

theorem cellOf_inj {a b : Bool} (h : cellOf a = cellOf b) : a = b := by
  revert h; revert a b; decide

end Sys2Proof.Machine
end

