-- ==== Sys2Proof/Laws/Decoder.lean ====
section
/-! SUPPORT. DECODE: how the loop passes over a path, over a codeword and over a concatenation of codewords (R193,
R194), and how many symbols it can give (R197). -/

namespace Sys2Proof.Machine

/-- The cells of BITS hold the bits from index `i` on. -/
def BitsFrom (st : List Host.Cell) (i : Nat) (bits : List Bool) : Prop :=
  ∀ (j : Nat) (b : Bool), bits[j]? = some b → Store.read st (i + j) = some (cellOf b)

theorem bitsFrom_zero {st : List Host.Cell} {bits : List Bool} : BitsFrom st 0 bits ↔ BitsHold st bits := by
  simp only [BitsFrom, BitsHold, Nat.zero_add]

theorem bitsFrom_cons {st : List Host.Cell} {i : Nat} {b : Bool} {bits : List Bool} :
    BitsFrom st i (b :: bits) ↔ Store.read st i = some (cellOf b) ∧ BitsFrom st (i + 1) bits := by
  constructor
  · intro h
    refine ⟨by simpa using h 0 b (by simp), fun j c hj => ?_⟩
    rw [← h (j + 1) c (by simpa using hj)]; congr 1; omega
  · rintro ⟨h0, h⟩ j c hj
    cases j with
    | zero => obtain rfl : b = c := by simpa using hj
              simpa using h0
    | succ j => rw [← h j c (by simpa using hj)]; congr 1; omega

theorem bitsFrom_append {st : List Host.Cell} {i : Nat} {p q : List Bool} :
    BitsFrom st i (p ++ q) ↔ BitsFrom st i p ∧ BitsFrom st (i + p.length) q := by
  induction p generalizing i with
  | nil => simp [BitsFrom]
  | cons b p ih =>
    rw [List.cons_append, bitsFrom_cons, bitsFrom_cons, ih, List.length_cons, and_assoc,
      show i + 1 + p.length = i + (p.length + 1) by omega]

/-- A cell that holds a bit passes the check of R192. -/
theorem cellOf_good (b : Bool) : ¬ (cellOf b ≠ Config.zeroCell ∧ cellOf b ≠ Config.oneCell) := by
  cases b <;> decide

/-- The branch of an internal node (R193). -/
theorem nextNode_internal {nd : Node} (h : nd.leaf = false) (cur i : Nat) (b : Bool) :
    nextNode nd cur i (cellOf b) = .ok (if b then nd.right.toNat else nd.left.toNat) := by
  rw [nextNode, if_neg (by simp [h])]
  cases b <;> rfl

/-- One cell at an internal node whose child is internal: the walk goes on (R193). -/
theorem decodeLoop_inner {p : Params} {x : Inputs} {count i cur : Nat} {out : List Byte} {b : Bool} {nd nd' : Node}
    (hb : Store.read x.bits i = some (cellOf b)) (h1 : Store.read x.node cur = some nd) (h2 : nd.leaf = false)
    (h3 : Store.read x.node (if b then nd.right.toNat else nd.left.toNat) = some nd') (h4 : nd'.leaf = false) :
    decodeLoop p x (count + 1) i cur out =
      decodeLoop p x count (i + 1) (if b then nd.right.toNat else nd.left.toNat) out := by
  rw [decodeLoop, memRead_of_read hb, Stop.bind_ok, if_neg (cellOf_good b), memRead_of_read h1, Stop.bind_ok,
    nextNode_internal h2, Stop.bind_ok, memRead_of_read h3, Stop.bind_ok, if_neg (by simp [h4])]

/-- One cell at an internal node whose child is a leaf: its symbol is decoded, if DEC has room (R193, R197). -/
theorem decodeLoop_emit {p : Params} {x : Inputs} {count i cur : Nat} {out : List Byte} {b : Bool} {nd nd' : Node}
    (hb : Store.read x.bits i = some (cellOf b)) (h1 : Store.read x.node cur = some nd) (h2 : nd.leaf = false)
    (h3 : Store.read x.node (if b then nd.right.toNat else nd.left.toNat) = some nd') (h4 : nd'.leaf = true) :
    decodeLoop p x (count + 1) i cur out =
      if out.length = p.msgDepth then
        raise .capacity 2#8 (BitVec.ofNat 32 i) (BitVec.ofNat 32 out.length)
      else decodeLoop p x count (i + 1) x.root.toNat (out ++ [nd'.sym]) := by
  rw [decodeLoop, memRead_of_read hb, Stop.bind_ok, if_neg (cellOf_good b), memRead_of_read h1, Stop.bind_ok,
    nextNode_internal h2, Stop.bind_ok, memRead_of_read h3, Stop.bind_ok, if_pos h4]

/-- A `0` cell at a leaf root gives its symbol, if DEC has room (R194, R197). -/
theorem decodeLoop_placeholder {p : Params} {x : Inputs} {count i : Nat} {out : List Byte} {nd : Node}
    (hb : Store.read x.bits i = some Config.zeroCell) (h1 : Store.read x.node x.root.toNat = some nd)
    (h2 : nd.leaf = true) :
    decodeLoop p x (count + 1) i x.root.toNat out =
      if out.length = p.msgDepth then
        raise .capacity 2#8 (BitVec.ofNat 32 i) (BitVec.ofNat 32 out.length)
      else decodeLoop p x count (i + 1) x.root.toNat (out ++ [nd.sym]) := by
  have hz : ¬ (Config.zeroCell ≠ Config.zeroCell ∧ Config.zeroCell ≠ Config.oneCell) := by decide
  have hn : nextNode nd x.root.toNat i Config.zeroCell = .ok x.root.toNat := by
    rw [nextNode, if_pos h2, if_neg (by decide)]
  rw [decodeLoop, memRead_of_read hb, Stop.bind_ok, if_neg hz, memRead_of_read h1, Stop.bind_ok, hn, Stop.bind_ok,
    memRead_of_read h1, Stop.bind_ok, if_pos h2]

/-- The loop over a path to an internal node: the walk stands there, with nothing decoded (R193). -/
theorem decodeLoop_open {p : Params} {x : Inputs} {count i cur j : Nat} {out : List Byte} {q : List Bool} {nd : Node}
    (hb : BitsFrom x.bits i q) (hf : follow (Store.read x.node) cur q = some j)
    (hn : Store.read x.node j = some nd) (hi : nd.leaf = false) :
    decodeLoop p x (q.length + count) i cur out = decodeLoop p x count (i + q.length) j out := by
  induction q generalizing i cur with
  | nil =>
    obtain rfl := by simpa using hf
    simp
  | cons b q ih =>
    obtain ⟨h0, hb⟩ := bitsFrom_cons.mp hb
    obtain ⟨m, h1, h2, h3⟩ := follow_cons_some hf
    have hmid : ∃ m', Store.read x.node (if b then m.right.toNat else m.left.toNat) = some m' ∧ m'.leaf = false := by
      cases q with
      | nil => simp only [follow_nil, Option.some.injEq] at h3; exact ⟨nd, by rw [h3]; exact hn, hi⟩
      | cons c q => obtain ⟨m', g1, g2, -⟩ := follow_cons_some h3; exact ⟨m', g1, g2⟩
    obtain ⟨m', g1, g2⟩ := hmid
    rw [List.length_cons, show q.length + 1 + count = q.length + count + 1 by omega,
      decodeLoop_inner h0 h1 h2 g1 g2, ih hb h3, show i + 1 + q.length = i + (q.length + 1) by omega]

/-- The loop over a codeword: its last cell decodes the symbol, if DEC has room (R193, R194, R197). -/
theorem decodeLoop_codeword {p : Params} {x : Inputs} {count i : Nat} {out : List Byte} {s : Byte} {q : List Bool}
    (hc : Codeword (Store.read x.node) x.root.toNat s q) (hb : BitsFrom x.bits i q) :
    q ≠ [] ∧ decodeLoop p x (q.length + count) i x.root.toNat out =
      if out.length = p.msgDepth then
        raise .capacity 2#8 (BitVec.ofNat 32 (i + q.length - 1)) (BitVec.ofNat 32 out.length)
      else decodeLoop p x count (i + q.length) x.root.toNat (out ++ [s]) := by
  obtain ⟨j, nd, h1, h2, rfl, ⟨rfl, rfl⟩ | ⟨hne, hf⟩⟩ := hc
  · refine ⟨by simp, ?_⟩
    have h0 : Store.read x.bits i = some Config.zeroCell := (bitsFrom_cons.mp hb).1
    rw [show ([false] : List Bool).length + count = count + 1 by simp; omega, decodeLoop_placeholder h0 h1 h2]
    simp
  · refine ⟨hne, ?_⟩
    rcases List.eq_nil_or_concat q with rfl | ⟨r, b, rfl⟩
    · exact absurd rfl hne
    · rw [List.concat_eq_append] at hf hb ⊢
      obtain ⟨k, m, g1, g2, g3, g4⟩ := follow_snoc_some hf
      obtain ⟨hb1, hb2⟩ := bitsFrom_append.mp hb
      have h0 := (bitsFrom_cons.mp hb2).1
      rw [List.length_append, List.length_singleton, show r.length + 1 + count = r.length + (count + 1) by omega,
        decodeLoop_open hb1 g1 g2 g3, decodeLoop_emit h0 g2 g3 (by rw [g4]; exact h1) h2,
        show i + (r.length + 1) - 1 = i + r.length by omega, show i + (r.length + 1) = i + r.length + 1 by omega]

/-- The loop over a concatenation of codewords that DEC has room for: the symbols are decoded in order (R193, R195). -/
theorem decodeLoop_coded {p : Params} {x : Inputs} {syms : List Byte} {ps : List (List Bool)}
    (hc : List.Forall₂ (Codeword (Store.read x.node) x.root.toNat) syms ps) {count i : Nat} {out : List Byte}
    (hb : BitsFrom x.bits i ps.flatten) (hroom : out.length + syms.length ≤ p.msgDepth) :
    decodeLoop p x (ps.flatten.length + count) i x.root.toNat out =
      decodeLoop p x count (i + ps.flatten.length) x.root.toNat (out ++ syms) := by
  induction hc generalizing i out with
  | nil => simp
  | @cons s q syms ps h1 _ ih =>
    simp only [List.flatten_cons, List.length_cons] at hb hroom ⊢
    obtain ⟨hb1, hb2⟩ := bitsFrom_append.mp hb
    rw [List.length_append, Nat.add_assoc, (decodeLoop_codeword h1 hb1).2, if_neg (by omega),
      ih hb2 (by simp; omega), show i + q.length + ps.flatten.length = i + (q.length + ps.flatten.length) by omega,
      List.append_assoc, List.singleton_append]

/-- The loop gives no more symbols than DEC has room for (R197). -/
theorem decodeLoop_length {p : Params} {x : Inputs} {count i cur : Nat} {out res : List Byte}
    (h : decodeLoop p x count i cur out = .ok res) (ho : out.length ≤ p.msgDepth) : res.length ≤ p.msgDepth := by
  induction count generalizing i cur out with
  | zero =>
    rw [decodeLoop] at h
    split at h
    · obtain rfl := Except.ok.inj h; exact ho
    · exact absurd h raise_ne_ok
  | succ count ih =>
    rw [decodeLoop] at h
    obtain ⟨b, -, h⟩ := Stop.bind_eq_ok.mp h
    split at h
    · exact absurd h raise_ne_ok
    · obtain ⟨nd, -, h⟩ := Stop.bind_eq_ok.mp h
      obtain ⟨nxt, -, h⟩ := Stop.bind_eq_ok.mp h
      obtain ⟨nd', -, h⟩ := Stop.bind_eq_ok.mp h
      split at h
      · split at h
        · exact absurd h raise_ne_ok
        · exact ih h (by simp only [List.length_append, List.length_singleton]; omega)
      · exact ih h ho

end Sys2Proof.Machine
end

