-- ==== Sys2Proof/Laws/Step.lean ====
section
/-! SUPPORT. What one clock edge can do, said once. -/

namespace Sys2Proof.Machine

/-- A step that answers a next state is a reset edge, the host's edge, a completion, or the host's edge while a command
runs on. -/
theorem step_next {s t : State} (h : step s = .next t) :
    (s.bus.rst = true ∧ t = s.resetEdge) ∨
    (s.bus.rst = false ∧ s.phase = .idle ∧ t = s.quiet.hostEdge) ∨
    (s.bus.rst = false ∧ ∃ op x, s.phase = .busy op x ∧ s.latencyLeft = 0 ∧ exec op s.quiet = .next t) ∨
    (s.bus.rst = false ∧ ∃ op x, s.phase = .busy op x ∧ s.latencyLeft ≠ 0 ∧
      t = { s.quiet with latencyLeft := s.latencyLeft - 1 }.hostEdge) := by
  rw [step] at h
  split at h
  · rename_i hr
    exact .inl ⟨hr, by simpa using h.symm⟩
  · rename_i hr
    have hr : s.bus.rst = false := by simpa using hr
    split at h
    · rename_i hp
      exact .inr (.inl ⟨hr, hp, by simpa using h.symm⟩)
    · rename_i op x hp
      split at h
      · rename_i hl
        exact .inr (.inr (.inl ⟨hr, op, x, hp, hl, h⟩))
      · rename_i hl
        exact .inr (.inr (.inr ⟨hr, op, x, hp, hl, by simpa using h.symm⟩))

/-- The edge in IDLE, or while a command's time has not come: the host's part of the edge takes place, and in IDLE nothing
else. -/
theorem step_edge {s : State} (h : s.phase = .idle ∨ s.latencyLeft ≠ 0) (hr : s.bus.rst = false) :
    ∃ l, step s = .next { s.quiet with latencyLeft := l }.hostEdge ∧ (s.phase = .idle → l = s.latencyLeft) ∧
      (s.phase ≠ .idle → l + 1 = s.latencyLeft) := by
  cases hp : s.phase with
  | idle => exact ⟨s.latencyLeft, by rw [step, hr, hp]; rfl, fun _ => rfl, fun h => absurd rfl h⟩
  | busy op x =>
    have hl : s.latencyLeft ≠ 0 := h.resolve_left (by simp [hp])
    exact ⟨s.latencyLeft - 1, by rw [step, hr, hp]; simp [hl], by simp, fun _ => by omega⟩

/-- A run goes on from the next state. -/
theorem run_next {k : Nat} {s t : State} (h : step s = .next t) :
    Host.Core.run Sys2Proof.core (k + 1) s = Host.Core.run Sys2Proof.core k t := by
  have h : Sys2Proof.core.step s = .next t := h
  simp only [Host.Core.run, h]

/-- A run ends at a fault. -/
theorem run_fault {k : Nat} {s : State} {f : Fault} (h : step s = .fault f) :
    Host.Core.run Sys2Proof.core (k + 1) s = .fault f := by
  have h : Sys2Proof.core.step s = .fault f := h
  simp only [Host.Core.run, h]

/-- A completed command committed its effects, or recorded its error: one case for each command that commits. -/
theorem exec_next {i : Instr} {s t : State} (h : exec i s = .next t) :
    (∃ e, t = s.recordError e) ∨
    (i = .nop ∧ t = s.succeed) ∨
    (i = .clear ∧ t = s.commitClear.succeed) ∨
    (i = .build ∧ ∃ r, buildResult s.inputs = .ok r ∧ t = (s.commitBuild r.1 r.2).succeed) ∨
    (i = .gencode ∧ ∃ table, gencodeResult s.inputs = .ok table ∧ t = (s.commitGencode table).succeed) ∨
    (i = .encode ∧ ∃ bits, encodeResult s.params s.inputs = .ok bits ∧ t = (s.commitEncode bits).succeed) ∨
    (i = .decode ∧ ∃ out, decodeResult s.params s.inputs = .ok out ∧ t = (s.commitDecode out).succeed) := by
  cases i with
  | nop =>
    simp only [exec, execNop] at h
    rcases State.finish_next h with ⟨_, -, rfl⟩ | ⟨e, -, rfl⟩
    · exact .inr (.inl ⟨rfl, rfl⟩)
    · exact .inl ⟨e, rfl⟩
  | build =>
    rcases State.finish_next h with ⟨a, ha, rfl⟩ | ⟨e, -, rfl⟩
    · exact .inr (.inr (.inr (.inl ⟨rfl, a, ha, rfl⟩)))
    · exact .inl ⟨e, rfl⟩
  | gencode =>
    rcases State.finish_next h with ⟨a, ha, rfl⟩ | ⟨e, -, rfl⟩
    · exact .inr (.inr (.inr (.inr (.inl ⟨rfl, a, ha, rfl⟩))))
    · exact .inl ⟨e, rfl⟩
  | encode =>
    rcases State.finish_next h with ⟨a, ha, rfl⟩ | ⟨e, -, rfl⟩
    · exact .inr (.inr (.inr (.inr (.inr (.inl ⟨rfl, a, ha, rfl⟩)))))
    · exact .inl ⟨e, rfl⟩
  | decode =>
    rcases State.finish_next h with ⟨a, ha, rfl⟩ | ⟨e, -, rfl⟩
    · exact .inr (.inr (.inr (.inr (.inr (.inr ⟨rfl, a, ha, rfl⟩)))))
    · exact .inl ⟨e, rfl⟩
  | clear =>
    simp only [exec, execClear] at h
    rcases State.finish_next h with ⟨_, -, rfl⟩ | ⟨e, -, rfl⟩
    · exact .inr (.inr (.inl ⟨rfl, rfl⟩))
    · exact .inl ⟨e, rfl⟩
  | illegal w =>
    simp only [exec, execIllegal] at h
    rcases State.finish_next h with ⟨_, ha, -⟩ | ⟨e, -, rfl⟩
    · exact absurd ha raise_ne_ok
    · exact .inl ⟨e, rfl⟩

/-- No command is refused. -/
theorem exec_not_refused {i : Instr} {s : State} {q : Refusal} : exec i s ≠ .refused q := by
  cases i <;>
    simp only [exec, execNop, execBuild, execGencode, execEncode, execDecode, execClear, execIllegal] <;>
    exact State.finish_not_refused

/-- What the reads of BUILD gave: FREQ[start] to FREQ[start + count - 1]. -/
theorem readFreqs_ok {st : Store Word} {start count : Nat} {fs : List Word} :
    readFreqs st start count = .ok fs ↔
      fs.length = count ∧ ∀ (k : Nat) (f : Word), fs[k]? = some f → Store.read st (start + k) = some f := by
  induction count generalizing start fs with
  | zero =>
    rw [readFreqs]
    constructor
    · intro h; obtain rfl := Except.ok.inj h; simp
    · rintro ⟨h, -⟩; rw [List.length_eq_zero_iff.mp h]
  | succ count ih =>
    rw [readFreqs]
    constructor
    · intro h
      obtain ⟨f, h1, h⟩ := Stop.bind_eq_ok.mp h
      obtain ⟨gs, h2, h⟩ := Stop.bind_eq_ok.mp h
      obtain rfl := Except.ok.inj h
      obtain ⟨g1, g2⟩ := ih.mp h2
      refine ⟨by simp [g1], fun k g hk => ?_⟩
      cases k with
      | zero => obtain rfl : f = g := by simpa using hk
                simpa using memRead_ok.mp h1
      | succ k => rw [← g2 k g (by simpa using hk)]; congr 1; omega
    · rintro ⟨h1, h2⟩
      cases fs with
      | nil => simp at h1
      | cons f gs =>
        have hgs : readFreqs st (start + 1) count = .ok gs :=
          ih.mpr ⟨by simpa using h1, fun k g hk => by
            rw [← h2 (k + 1) g (by simpa using hk)]; congr 1; omega⟩
        rw [memRead_of_read (by simpa using h2 0 f (by simp)), Stop.bind_ok, hgs]
        rfl

/-- BUILD succeeds iff all of FREQ is readable, some entry is not 0 and the sum fits. -/
theorem buildTree_ok {fs : List Word} {t : BuiltTree} :
    buildTree fs = .ok t ↔ distinctSymbols fs ≠ 0 ∧ firstOverflow fs 0 0 = none ∧ t = treeOf fs := by
  rw [buildTree]
  split
  · rename_i h; simp [h, raise]
  · rename_i h
    split
    · rename_i k hk; simp [hk, raise]
    · rename_i hk; simp [h, hk, eq_comm]

theorem buildResult_ok {x : Inputs} {r : Nat × BuiltTree} :
    buildResult x = .ok r ↔ ∃ fs, readFreqs x.freq 0 Config.nsym = .ok fs ∧ distinctSymbols fs ≠ 0 ∧
      firstOverflow fs 0 0 = none ∧ r = (distinctSymbols fs, treeOf fs) := by
  rw [buildResult, Stop.bind_eq_ok]
  constructor
  · rintro ⟨fs, h1, h⟩
    obtain ⟨t, h2, h⟩ := Stop.bind_eq_ok.mp h
    obtain rfl := Except.ok.inj h
    obtain ⟨g1, g2, rfl⟩ := buildTree_ok.mp h2
    exact ⟨fs, h1, g1, g2, rfl⟩
  · rintro ⟨fs, h1, g1, g2, rfl⟩
    refine ⟨fs, h1, ?_⟩
    rw [buildTree_ok.mpr ⟨g1, g2, rfl⟩]
    rfl

end Sys2Proof.Machine
end

