-- ==== Sys2Proof/Laws/Errors.lean ====
section
/-! SUPPORT. Every error a command raises has a code of R242 other than NONE. -/

namespace Sys2Proof.Machine

/-- The sequence ends in no error record without a code. -/
structure NamedError {α : Type} (r : Except Stop α) : Prop where
  named : ∀ e, r = .error (.raise e) → e.code ≠ .none

theorem named_ok {α : Type} (a : α) : NamedError (.ok a : Except Stop α) := ⟨fun _ h => nomatch h⟩

theorem named_raise {α : Type} {c : ErrCode} (hc : c ≠ .none) (s : Byte) (p i : Word) :
    NamedError (raise c s p i : Except Stop α) := ⟨fun e h => by
  rw [raise] at h
  injection h with h
  injection h with h
  subst h
  exact hc⟩

theorem named_undefined {α : Type} (f : Fault) : NamedError (.error (.undefined f) : Except Stop α) :=
  ⟨fun e h => by simp at h⟩

theorem named_memRead {α : Type} (st : Store α) (i : Nat) (f : Fault) : NamedError (memRead st i f) := by
  unfold memRead
  split
  · exact named_ok _
  · exact named_undefined f

theorem NamedError.bind {α β : Type} {x : Except Stop α} {f : α → Except Stop β} (hx : NamedError x)
    (hf : ∀ a, NamedError (f a)) : NamedError (x >>= f) := by
  cases x with
  | ok a => exact hf a
  | error e =>
    refine ⟨fun e' h => ?_⟩
    rw [Stop.bind_error] at h
    exact hx.named e' (by injection h with h; rw [h])

theorem readFreqs_named (st : Store Word) (start count : Nat) : NamedError (readFreqs st start count) := by
  induction count generalizing start with
  | zero => exact named_ok _
  | succ count ih => exact (named_memRead ..).bind fun f => (ih _).bind fun fs => named_ok _

theorem buildResult_named (x : Inputs) : NamedError (buildResult x) := by
  refine (readFreqs_named ..).bind fun fs => NamedError.bind ?_ fun t => named_ok _
  unfold buildTree
  split
  · exact named_raise (by decide) ..
  · split
    · exact named_raise (by decide) ..
    · exact named_ok _

theorem walk_named (st : Store Node) (depth i : Nat) (p : List Bool) : NamedError (walk st depth i p) := by
  induction depth generalizing i p with
  | zero => exact named_undefined _
  | succ depth ih =>
    refine (named_memRead ..).bind fun nd => ?_
    split
    · exact named_ok _
    · exact (ih _ _).bind fun l => (ih _ _).bind fun r => named_ok _

theorem gencodeResult_named (x : Inputs) : NamedError (gencodeResult x) := by
  unfold gencodeResult
  split
  · refine NamedError.bind ((named_memRead ..).bind fun nd => ?_) fun bs => named_ok _
    split
    · exact named_ok _
    · exact walk_named ..
  · exact named_raise (by decide) ..

theorem encodeScan_named (p : Params) (x : Inputs) (count i acc : Nat) : NamedError (encodeScan p x count i acc) := by
  induction count generalizing i acc with
  | zero => exact named_ok _
  | succ count ih =>
    refine (named_memRead ..).bind fun c => (named_memRead ..).bind fun code => ?_
    split
    · exact named_raise (by decide) ..
    · split
      · exact named_raise (by decide) ..
      · exact (ih _ _).bind fun rest => named_ok _

theorem encodeResult_named (p : Params) (x : Inputs) : NamedError (encodeResult p x) := by
  unfold encodeResult
  split
  · exact named_raise (by decide) ..
  · split
    · exact named_raise (by decide) ..
    · split
      · exact named_raise (by decide) ..
      · exact (encodeScan_named ..).bind fun codes => named_ok _

theorem nextNode_named (nd : Node) (cur i : Nat) (b : Byte) : NamedError (nextNode nd cur i b) := by
  unfold nextNode
  split
  · split
    · exact named_raise (by decide) ..
    · exact named_ok _
  · exact named_ok _

theorem decodeLoop_named (p : Params) (x : Inputs) (count i cur : Nat) (out : List Byte) :
    NamedError (decodeLoop p x count i cur out) := by
  induction count generalizing i cur out with
  | zero =>
    rw [decodeLoop]
    split
    · exact named_ok _
    · exact named_raise (by decide) ..
  | succ count ih =>
    rw [decodeLoop]
    refine (named_memRead ..).bind fun b => ?_
    split
    · exact named_raise (by decide) ..
    · refine (named_memRead ..).bind fun nd => (nextNode_named ..).bind fun nxt =>
        (named_memRead ..).bind fun nd' => ?_
      split
      · split
        · exact named_raise (by decide) ..
        · exact ih ..
      · exact ih ..

theorem decodeResult_named (p : Params) (x : Inputs) : NamedError (decodeResult p x) := by
  unfold decodeResult
  split
  · exact named_raise (by decide) ..
  · split
    · exact named_raise (by decide) ..
    · exact decodeLoop_named ..

/-- A completion that leaves ERR = 1 recorded an error (R241). -/
theorem exec_error {i : Instr} {s t : State} (h : exec i s = .next t) (he : t.err = true) :
    ∃ e, e.code ≠ .none ∧ t = s.recordError e := by
  have key : ∀ {α : Type} {r : Except Stop α} {commit : α → State → State}, NamedError r →
      s.finish r commit = .next t → ∃ e, e.code ≠ .none ∧ t = s.recordError e := by
    intro α r commit hn hf
    rcases State.finish_next hf with ⟨a, -, rfl⟩ | ⟨e, h1, rfl⟩
    · simp at he
    · exact ⟨e, hn.named e h1, rfl⟩
  cases i with
  | nop => simp only [exec, execNop] at h; exact key (named_ok _) h
  | build => exact key (buildResult_named _) h
  | gencode => exact key (gencodeResult_named _) h
  | encode => exact key (encodeResult_named _ _) h
  | decode => exact key (decodeResult_named _ _) h
  | clear => simp only [exec, execClear] at h; exact key (named_ok _) h
  | illegal w =>
    simp only [exec, execIllegal] at h
    exact key (named_raise (by decide) ..) h

end Sys2Proof.Machine
end

