-- ==== Sys2Proof/Laws/HostAccess.lean ====
section
/-! SUPPORT. The address map as lemmas (R65), and what a host write can do (R66 to R71). -/

namespace Sys2Proof.Machine

variable {p : Params}

/-! ### The regions of the map -/

theorem regionOf_freq {k : Nat} (h : k < 256) : regionOf p (0x100 + k) = .freq k := by
  unfold regionOf windowRegion
  split_ifs <;> first | omega | exact congrArg Region.freq (by omega)

theorem regionOf_codeLen {k : Nat} (h : k < 256) : regionOf p (0x200 + k) = .codeLen k := by
  unfold regionOf windowRegion
  split_ifs <;> first | omega | exact congrArg Region.codeLen (by omega)

theorem regionOf_codeBits {k w : Nat} (h : k < 256) (hw : w < 8) : regionOf p (0x400 + 8 * k + w) = .codeBits k w := by
  unfold regionOf windowRegion
  split_ifs <;> first | omega | exact congrArg₂ Region.codeBits (by omega) (by omega)

theorem regionOf_node {i f : Nat} (h : i < 512) (hf : f < 4) : regionOf p (0x1000 + 4 * i + f) = .node i f := by
  unfold regionOf windowRegion
  split_ifs <;> first | omega | exact congrArg₂ Region.node (by omega) (by omega)

/-- From the address 0x10000 on lie the arrays of the two open sizes. -/
theorem regionOf_array {a : Nat} (h : 0x10000 ≤ a) : regionOf p a = arrayRegion p a := by
  unfold regionOf
  split_ifs <;> first | omega | rfl

theorem cellRegion_of_lt {cell : Nat → Region} {depth i : Nat} (h : i < depth) : cellRegion cell depth i = cell i :=
  if_pos h

theorem regionOf_msg {i : Nat} (h : i < p.msgDepth) (h' : i < 0x10000) : regionOf p (0x10000 + i) = .msg i := by
  rw [regionOf_array (Nat.le_add_right ..), arrayRegion, if_pos (by omega), Nat.add_sub_cancel_left, cellRegion_of_lt h]

theorem regionOf_dec {i : Nat} (h : i < p.msgDepth) (h' : i < 0x10000) : regionOf p (0x20000 + i) = .dec i := by
  rw [regionOf_array (by omega), arrayRegion, Nat.add_sub_cancel_left, cellRegion_of_lt h]
  split_ifs <;> first | omega | rfl

theorem regionOf_bits {i : Nat} (h : i < p.bitDepth) : regionOf p (0x40000 + i) = .bits i := by
  rw [regionOf_array (by omega), arrayRegion, Nat.add_sub_cancel_left, cellRegion_of_lt h]
  split_ifs <;> first | omega | rfl

@[simp] theorem region_cmd : region p addrCMD = .cmd := rfl

@[simp] theorem region_status : region p addrSTATUS = .status := rfl

@[simp] theorem region_irqEn : region p addrIRQEN = .irqEn := rfl

@[simp] theorem region_msgLen : region p addrMSGLEN = .msgLen := rfl

@[simp] theorem region_bitLen : region p addrBITLEN = .bitLen := rfl

theorem region_addrFREQ (c : Byte) : region p (addrFREQ c) = .freq c.toNat := by
  have hc := c.isLt
  have h : (addrFREQ c).toNat = 0x100 + c.toNat := by simp [addrFREQ]; omega
  rw [region, h, regionOf_freq hc]

theorem region_addrMSG {i : Nat} (h : i < p.msgDepth) (h' : i < 0x10000) : region p (addrMSG i) = .msg i := by
  have hi : (addrMSG i).toNat = 0x10000 + i := by simp [addrMSG]; omega
  rw [region, hi, regionOf_msg h h']

theorem region_addrDEC {i : Nat} (h : i < p.msgDepth) (h' : i < 0x10000) : region p (addrDEC i) = .dec i := by
  have hi : (addrDEC i).toNat = 0x20000 + i := by simp [addrDEC]; omega
  rw [region, hi, regionOf_dec h h']

theorem region_addrBITS {i : Nat} (h : i < p.bitDepth) (h' : i < 0x40000) : region p (addrBITS i) = .bits i := by
  have hi : (addrBITS i).toNat = 0x40000 + i := by simp [addrBITS]; omega
  rw [region, hi, regionOf_bits h]

/-- No other address than 0x00004 is CMD (R65). -/
theorem region_eq_cmd {p : Params} {a : Addr} (h : region p a = .cmd) : a = addrCMD := by
  have h4 : a.toNat = 4 := by
    unfold region regionOf windowRegion arrayRegion cellRegion at h
    split_ifs at h
    unfold registerRegion at h
    split at h <;> first | assumption | cases h
  exact BitVec.eq_of_toNat_eq h4

/-- An array element that the host may write lies inside its array (R65). -/
def Region.inside (p : Params) : Region → Prop
  | .freq k => k < 256
  | .msg i => i < p.msgDepth
  | .bits i => i < p.bitDepth
  | _ => True

theorem registerRegion_inside (p : Params) (a : Nat) : (registerRegion a).inside p := by
  unfold registerRegion
  split <;> trivial

theorem regionOf_inside (p : Params) (a : Nat) : (regionOf p a).inside p := by
  unfold regionOf windowRegion arrayRegion cellRegion
  split_ifs
  all_goals first
    | (simp only [Region.inside] <;> omega)
    | exact registerRegion_inside p a

theorem registerRegion_reserved_iff : ∀ a, a < 0x100 →
    (registerRegion a = .reserved ↔ a = 0x0A ∨ a = 0x0B ∨ a = 0x0F ∨ 0x13 ≤ a) := by
  intro a _
  unfold registerRegion
  split
  all_goals simp only [reduceCtorEq, true_iff, false_iff]
  all_goals first | decide | (simp only [imp_false] at *; omega)

theorem registerRegion_readOnly_iff : ∀ a, a < 0x100 →
    ((registerRegion a).readOnly = true ↔ a ≤ 0x03 ∨ (0x06 ≤ a ∧ a ≤ 0x08) ∨ a = 0x0E ∨ (0x10 ≤ a ∧ a ≤ 0x12)) := by
  intro a _
  unfold registerRegion
  split
  all_goals simp only [Region.readOnly, Bool.false_eq_true, true_iff, false_iff]
  all_goals first | decide | (simp only [imp_false] at *; omega)

/-- The reserved addresses are those of R65. -/
theorem regionOf_reserved_iff (p : Params) (a : Nat) : regionOf p a = .reserved ↔ p.reserved a := by
  unfold Params.reserved
  by_cases h : a < 0x100
  · rw [regionOf, if_pos h, registerRegion_reserved_iff a h]
    omega
  · rw [regionOf, if_neg h]
    unfold windowRegion arrayRegion cellRegion
    split_ifs
    all_goals simp only [true_iff, false_iff]
    all_goals omega

/-- The read-only addresses are those of R65. -/
theorem regionOf_readOnly_iff {p : Params} (hl : p.msgDepth ≤ 0x10000) (a : Nat) :
    (regionOf p a).readOnly = true ↔ p.readOnly a := by
  unfold Params.readOnly
  by_cases h : a < 0x100
  · rw [regionOf, if_pos h, registerRegion_readOnly_iff a h]
    omega
  · rw [regionOf, if_neg h]
    unfold windowRegion arrayRegion cellRegion
    split_ifs
    all_goals simp only [Region.readOnly, Bool.false_eq_true, true_iff, false_iff]
    all_goals omega

/-! ### Reads and writes -/

/-- An element of at most 32 bits reads as itself (R63). -/
theorem State.readElement_some {n : Nat} (hn : n ≤ 32) (s : State) (a : Addr) (b : BitVec n) :
    (s.readElement a (some b)).toNat = b.toNat := by
  have hb : b.toNat < 2 ^ 32 := Nat.lt_of_lt_of_le b.isLt (Nat.pow_le_pow_right (by omega) hn)
  simpa [State.readElement, zext] using hb

/-- An element that nothing has written reads as some value of its width (U1). -/
theorem State.readElement_none {n : Nat} (s : State) (a : Addr) :
    (s.readElement a (none : Option (BitVec n))).toNat < 2 ^ n := by
  simp only [State.readElement, unwrittenElement, BitVec.toNat_setWidth]
  exact Nat.lt_of_le_of_lt (Nat.mod_le _ _) (Nat.mod_lt _ (Nat.two_pow_pos n))

theorem State.hostRead_idle {s : State} (h : s.phase = .idle) (a : Addr) :
    s.hostRead a = s.readRegion a (region s.params a) := by
  simp [State.hostRead, State.isBusy, h]

theorem State.phase_cases (s : State) : s.phase = .idle ∨ ∃ op x, s.phase = .busy op x := by
  cases s.phase <;> simp

theorem State.hostWrite_idle {s : State} (h : s.phase = .idle) (a : Addr) (v : Word) :
    s.hostWrite a v = s.writeRegion v (region s.params a) := by
  simp [State.hostWrite, State.isBusy, h]

theorem State.hostWrite_busy {s : State} {op : Instr} {x : Inputs} (h : s.phase = .busy op x) (a : Addr) (v : Word) :
    s.hostWrite a v = s.writeRegionBusy v (region s.params a) := by
  simp [State.hostWrite, State.isBusy, h]

/-- A write to STATUS clears what it names (R27). -/
theorem State.writeStatus_eq (s : State) (v : Word) :
    s.writeStatus v = { s with done := s.done && !v.getLsbD 1, accErr := s.accErr && !v.getLsbD 5 } := by
  unfold State.writeStatus State.acknowledgeDone
  cases h1 : v.getLsbD 1 <;> cases h5 : v.getLsbD 5 <;> simp

/-- What a host write can do: take effect at STATUS or IRQ_EN, be rejected with ACC_ERR, or, in IDLE only, be accepted
as a command or stored. -/
theorem State.hostWrite_cases (s : State) (a : Addr) (v : Word) :
    s.hostWrite a v = s.writeStatus v ∨ s.hostWrite a v = { s with doneIE := v.getLsbD 0 } ∨
    s.hostWrite a v = s.accessError ∨
    (s.phase = .idle ∧
      (s.hostWrite a v = s.acceptCommand v ∨
       s.hostWrite a v = { s with msgLen := v } ∨ s.hostWrite a v = { s with bitLen := v } ∨
       (∃ k, k < 256 ∧ s.hostWrite a v = { s with mem := { s.mem with freq := Store.write s.mem.freq k v } }) ∨
       (∃ i, i < s.params.msgDepth ∧
         s.hostWrite a v = { s with mem := { s.mem with msg := Store.write s.mem.msg i (v.setWidth 8) } }) ∨
       (∃ i, i < s.params.bitDepth ∧
         s.hostWrite a v = { s with mem := { s.mem with bits := Store.write s.mem.bits i (v.setWidth 8) } }))) := by
  have hin : (region s.params a).inside s.params := regionOf_inside s.params a.toNat
  rcases State.phase_cases s with hp | ⟨op, x, hp⟩
  rotate_left
  · rw [State.hostWrite_busy hp]
    cases region s.params a with
    | status => exact .inl rfl
    | irqEn => exact .inr (.inl rfl)
    | _ => exact .inr (.inr (.inl rfl))
  · rw [State.hostWrite_idle hp]
    generalize region s.params a = r at hin
    cases r with
    | status => exact .inl rfl
    | irqEn => exact .inr (.inl rfl)
    | cmd => exact .inr (.inr (.inr ⟨hp, .inl rfl⟩))
    | msgLen => exact .inr (.inr (.inr ⟨hp, .inr (.inl rfl)⟩))
    | bitLen => exact .inr (.inr (.inr ⟨hp, .inr (.inr (.inl rfl))⟩))
    | freq k => exact .inr (.inr (.inr ⟨hp, .inr (.inr (.inr (.inl ⟨k, hin, rfl⟩)))⟩))
    | msg i => exact .inr (.inr (.inr ⟨hp, .inr (.inr (.inr (.inr (.inl ⟨i, hin, rfl⟩))))⟩))
    | bits i => exact .inr (.inr (.inr ⟨hp, .inr (.inr (.inr (.inr (.inr ⟨i, hin, rfl⟩))))⟩))
    | _ => exact .inr (.inr (.inl rfl))

end Sys2Proof.Machine
end

