-- ==== Sys2Proof/Laws/HostAgent.lean ====
section
/-! SUPPORT. What the host's part of an edge can do, said once (R61, R106). -/

namespace Sys2Proof.Machine

@[simp] theorem HostOp.access_write (a : Addr) (v : Word) : (HostOp.write a v).access = some (.write a v) := rfl

@[simp] theorem HostOp.access_read (a : Addr) : (HostOp.read a).access = some (.read a) := rfl

@[simp] theorem HostOp.access_poll (a : Addr) (m v : Word) : (HostOp.poll a m v).access = some (.read a) := rfl

@[simp] theorem HostOp.access_waitIrq : HostOp.waitIrq.access = none := rfl

@[simp] theorem HostOp.access_reset (k : Nat) : (HostOp.reset k).access = none := rfl

/-- An operation of the program that is an access raises the request for it. -/
theorem State.issue_access {s : State} {op : HostOp} {acc : Access} {rest : List HostOp} (hp : s.program = op :: rest)
    (ha : op.access = some acc) : s.issue = s.request acc := by
  cases op <;> simp at ha <;> subst ha <;> simp [State.issue, hp]

/-- The edge on which an outstanding request is acknowledged. -/
theorem State.hostEdge_ack {s : State} {acc : Access} (h : s.bus.request = some acc) (ha : s.ackLeft = 0) :
    s.hostEdge = s.acknowledge acc := by
  rw [State.hostEdge, h]
  exact if_pos ha

/-- The host's edge does nothing, raises a request, passes a WAITIRQ, raises `rst`, acknowledges, or waits. -/
theorem State.hostEdge_cases (s : State) :
    s.hostEdge = s ∨
    (∃ op acc rest, s.bus.request = none ∧ s.program = op :: rest ∧ op.access = some acc ∧ s.hostEdge = s.request acc) ∨
    (∃ rest, s.bus.request = none ∧ s.program = .waitIrq :: rest ∧ s.irq = true ∧
      s.hostEdge = { s with program := rest }) ∨
    (∃ k rest, s.bus.request = none ∧ s.program = .reset k :: rest ∧
      s.hostEdge = { s with bus := { s.bus with rst := true } }) ∨
    (∃ acc, s.bus.request = some acc ∧ s.ackLeft = 0 ∧ s.hostEdge = s.acknowledge acc) ∨
    (∃ acc, s.bus.request = some acc ∧ s.ackLeft ≠ 0 ∧ s.hostEdge = { s with ackLeft := s.ackLeft - 1 }) := by
  cases hr : s.bus.request with
  | some acc =>
    have he : s.hostEdge = if s.ackLeft = 0 then s.acknowledge acc else { s with ackLeft := s.ackLeft - 1 } := by
      rw [State.hostEdge, hr]
    by_cases hl : s.ackLeft = 0
    · exact .inr (.inr (.inr (.inr (.inl ⟨acc, rfl, hl, by rw [he, if_pos hl]⟩))))
    · exact .inr (.inr (.inr (.inr (.inr ⟨acc, rfl, hl, by rw [he, if_neg hl]⟩))))
  | none =>
    have he : s.hostEdge = s.issue := by rw [State.hostEdge, hr]
    cases hp : s.program with
    | nil => exact .inl (by rw [he, State.issue, hp])
    | cons op rest =>
      cases op with
      | waitIrq =>
        by_cases hi : s.irq = true
        · exact .inr (.inr (.inl ⟨rest, rfl, rfl, hi, by rw [he, State.issue, hp]; exact if_pos hi⟩))
        · exact .inl (by rw [he, State.issue, hp]; exact if_neg hi)
      | reset k => exact .inr (.inr (.inr (.inl ⟨k, rest, rfl, rfl, by rw [he, State.issue, hp]⟩)))
      | write a v =>
        exact .inr (.inl ⟨.write a v, .write a v, rest, rfl, rfl, rfl, by rw [he, State.issue_access hp rfl]⟩)
      | read a => exact .inr (.inl ⟨.read a, .read a, rest, rfl, rfl, rfl, by rw [he, State.issue_access hp rfl]⟩)
      | poll a m v =>
        exact .inr (.inl ⟨.poll a m v, .read a, rest, rfl, rfl, rfl, by rw [he, State.issue_access hp rfl]⟩)

end Sys2Proof.Machine
end

