-- ==== Sys2Proof/Laws/Memory.lean ====
section
/-! SUPPORT. The canonical form of memory: reset has it, and every write to memory keeps it. -/

namespace Sys2Proof.Machine

/-- Reset memory is canonical, whatever the sizes. -/
theorem Memory.wf_unspecified (p : Params) : Memory.wf p Memory.unspecified := by
  simp [Memory.wf, Store.wf, Memory.unspecified]

theorem Memory.wf_freq {p : Params} {m : Memory} (h : Memory.wf p m) {i : Nat} (hi : i < 256) (v : Word) :
    Memory.wf p { m with freq := Store.write m.freq i v } :=
  ⟨Store.wf_write h.1 hi v, h.2⟩

theorem Memory.wf_msg {p : Params} {m : Memory} (h : Memory.wf p m) {i : Nat} (hi : i < p.msgDepth) (v : Byte) :
    Memory.wf p { m with msg := Store.write m.msg i v } :=
  ⟨h.1, Store.wf_write h.2.1 hi v, h.2.2⟩

theorem Memory.wf_bits {p : Params} {m : Memory} (h : Memory.wf p m) {i : Nat} (hi : i < p.bitDepth) (v : Byte) :
    Memory.wf p { m with bits := Store.write m.bits i v } :=
  ⟨h.1, h.2.1, Store.wf_write h.2.2.1 hi v, h.2.2.2⟩

theorem Memory.wf_clear {p : Params} {m : Memory} (h : Memory.wf p m) :
    Memory.wf p { m with freq := Store.writePrefix m.freq (List.replicate Config.nsym 0#32) } :=
  ⟨Store.wf_writePrefix h.1 (by rw [List.length_replicate]), h.2⟩

theorem Memory.wf_build {p : Params} {m : Memory} (h : Memory.wf p m) {nodes : List Node} (hl : nodes.length ≤ 511) :
    Memory.wf p { m with node := Store.writePrefix m.node nodes } :=
  ⟨h.1, h.2.1, h.2.2.1, h.2.2.2.1, Store.wf_writePrefix h.2.2.2.2.1 hl, h.2.2.2.2.2⟩

theorem Memory.wf_gencode {p : Params} {m : Memory} (h : Memory.wf p m) {table : List Code} (hl : table.length = 256)
    (hb : ∀ c ∈ table, c.bits.length ≤ 255) :
    Memory.wf p { m with code := Store.writePrefix m.code table } :=
  ⟨h.1, h.2.1, h.2.2.1, h.2.2.2.1, h.2.2.2.2.1, Store.wf_writePrefix h.2.2.2.2.2.1 (by rw [hl]; exact Nat.le_refl _),
    fun c hc => by
      rcases Store.mem_writePrefix hc with hc | hc
      · exact hb _ hc
      · exact h.2.2.2.2.2.2 c hc⟩

theorem Memory.wf_encode {p : Params} {m : Memory} (h : Memory.wf p m) {cells : List Byte}
    (hl : cells.length ≤ p.bitDepth) : Memory.wf p { m with bits := Store.writePrefix m.bits cells } :=
  ⟨h.1, h.2.1, Store.wf_writePrefix h.2.2.1 hl, h.2.2.2⟩

theorem Memory.wf_decode {p : Params} {m : Memory} (h : Memory.wf p m) {out : List Byte}
    (hl : out.length ≤ p.msgDepth) : Memory.wf p { m with dec := Store.writePrefix m.dec out } :=
  ⟨h.1, h.2.1, h.2.2.1, Store.wf_writePrefix h.2.2.2.1 hl, h.2.2.2.2⟩

/-- No walk binds a path longer than its start by more than the depth allows (R11). -/
theorem walk_length {st : Store Node} {depth i : Nat} {p : List Bool} {bs : List Binding}
    (h : walk st depth i p = .ok bs) : ∀ b ∈ bs, b.bits.length < p.length + depth := by
  induction depth generalizing i p bs with
  | zero => simp [walk] at h
  | succ depth ih =>
    rw [walk] at h
    obtain ⟨nd, -, h⟩ := Stop.bind_eq_ok.mp h
    split at h
    · obtain rfl := Except.ok.inj h
      intro b hb
      obtain rfl := by simpa using hb
      simp
    · obtain ⟨l, h1, h⟩ := Stop.bind_eq_ok.mp h
      obtain ⟨r, h2, h⟩ := Stop.bind_eq_ok.mp h
      obtain rfl := Except.ok.inj h
      intro b hb
      rcases List.mem_append.mp hb with hb | hb
      · have := ih h1 b hb
        simp only [List.length_append, List.length_singleton] at this
        omega
      · have := ih h2 b hb
        simp only [List.length_append, List.length_singleton] at this
        omega

/-- Every code that GENCODE writes has at most 255 bits (R11). -/
theorem gencodeResult_length {x : Inputs} {table : List Code} (h : gencodeResult x = .ok table) :
    table.length = 256 ∧ ∀ c ∈ table, c.bits.length ≤ 255 := by
  rw [gencodeResult] at h
  split at h
  · obtain ⟨bs, h1, h⟩ := Stop.bind_eq_ok.mp h
    obtain rfl := Except.ok.inj h
    refine ⟨codeTable_length bs, ?_⟩
    have hbs : ∀ b ∈ bs, b.bits.length ≤ 255 := by
      rw [bindings] at h1
      obtain ⟨nd, -, h1⟩ := Stop.bind_eq_ok.mp h1
      split at h1
      · obtain rfl := Except.ok.inj h1
        simp
      · intro b hb
        have := walk_length h1 b hb
        have hm : Config.maxCodeLen = 255 := rfl
        simp only [List.length_nil] at this
        omega
    have key : ∀ (bs : List Binding) (table : List Code), (∀ b ∈ bs, b.bits.length ≤ 255) →
        (∀ c ∈ table, c.bits.length ≤ 255) →
        ∀ c ∈ bs.foldl (fun t b => t.set b.sym.toNat { bits := b.bits }) table, c.bits.length ≤ 255 := by
      intro bs
      induction bs with
      | nil => intro table _ ht; exact ht
      | cons b bs ih =>
        intro table hb ht
        refine ih _ (fun d hd => hb d (List.mem_cons_of_mem _ hd)) fun c hc => ?_
        rcases List.mem_or_eq_of_mem_set hc with hc | rfl
        · exact ht c hc
        · exact hb b (by simp)
    refine key bs _ hbs fun c hc => ?_
    rw [List.eq_of_mem_replicate hc]
    simp
  · exact absurd h raise_ne_ok

end Sys2Proof.Machine
end

