-- ==== Sys2Proof/Laws/Invariant.lean ====
section
/-! SUPPORT. The invariant `Inv` under each part of an edge: the host's accesses, its own progress, a completion. -/

namespace Sys2Proof.Machine

/-- The finished merge loop leaves a tree (R130). -/
theorem MergeInv.shape {n total : Nat} {fs : List Word} {nodes : List Node} {x : QueueItem}
    (h : MergeInv n total nodes [x]) (hfs : fs.length = 256) (hn : leafNumber fs = n) (hp : leavesFrom fs 0 <+: nodes) : TreeShape (lookIn nodes) n := by
  have hsz : nodes.length = 2 * n - 1 := by have := h.size; simp at this; omega
  have hc := h.count
  have hroot : x.index = 2 * n - 2 := by
    by_cases hlt : n < nodes.length
    · have := h.newest hlt; simp at this; omega
    · obtain ⟨nd, h1, -⟩ := h.item x (by simp)
      have := (List.getElem?_eq_some_iff.mp h1).1
      omega
  refine ⟨⟨hc.1, hc.2⟩, h.leaf, ?_, ?_, ?_, ?_, ?_⟩
  · intro i h1 h2
    have : i < nodes.length := by omega
    exact ⟨nodes[i], List.getElem?_eq_getElem this, h.internal i _ h1 (List.getElem?_eq_getElem this)⟩
  · intro i nd l r h1 h2; exact h.sum i nd l r h1
  · intro j hj
    obtain ⟨i, h1, h2, h3⟩ := h.parent j (by omega) (by simp; omega)
    exact ⟨i, by omega, h2, fun i' _ h' => h3 i' h'⟩
  · intro i hi; rw [← hroot]; exact h.top x (by simp) i
  · intro i j ni nj hij hj h1 h2
    have hl := leavesFrom_length fs 0
    have hl' : (leavesFrom fs 0).length = n := by rw [hl]; exact hn
    rw [lookIn, prefix_getElem? hp (by omega)] at h1 h2
    rw [List.getElem?_eq_getElem (by omega)] at h1 h2
    obtain rfl := Option.some.inj h1
    obtain rfl := Option.some.inj h2
    exact List.pairwise_iff_getElem.mp (leavesFrom_ascending (fs := fs) (s := 0) (by omega)) i j (by omega) (by omega) hij

/-- A BUILD that succeeds leaves a tree in the slots it writes (R125, R130). -/
theorem buildResult_shape {x : Inputs} {r : Nat × BuiltTree} (h : buildResult x = .ok r) (st : Store Node) :
    TreeShape (Store.read (Store.writePrefix st r.2.nodes)) r.1 ∧ r.2.nodes.length = 2 * r.1 - 1 ∧
      r.2.root = 2 * r.1 - 2 := by
  obtain ⟨fs, h1, h2, h3, rfl⟩ := buildResult_ok.mp h
  have hl := (readFreqs_ok.mp h1).1
  have hs : freqSum fs ≤ Config.freqMax := by
    rcases firstOverflow_none.mp h3 with rfl | h; · simp at hl; cases hl
    · omega
  have hl' : fs.length = 256 := hl
  obtain ⟨y, g1, g2, g3⟩ := treeOf_inv hl' h2 hs
  have hsh := MergeInv.shape (fs := fs) g1 hl' rfl g3
  have hlen := treeOf_length hl' h2 hs
  refine ⟨hsh.congr fun i hi => ?_, hlen, treeOf_root hl' h2 hs⟩
  rw [Store.read_writePrefix, if_pos (by rw [hlen]; exact hi)]

theorem HostInv.of_quiet {s : State} (h : HostInv s) : HostInv s.quiet := by
  refine ⟨fun acc ha => ?_, h.2.1, by simp, fun _ => rfl⟩
  obtain ⟨h1, h2⟩ := State.outstanding_eq_some.mp ha
  exact ⟨(h.1 acc h1).1, fun _ => (h.1 acc h1).2 h2⟩

theorem Inv.of_quiet {s : State} (h : Inv s) : Inv s.quiet := by
  obtain ⟨h1, h2, h3, h4, h5, h6, h7, h8⟩ := h
  exact ⟨h1, h2, h3, h4, h5, h6, h7, h8.of_quiet⟩

theorem Inv.of_latency {s : State} (h : Inv s) (k : Nat) : Inv { s with latencyLeft := k } := by
  obtain ⟨h1, h2, h3, h4, h5, h6, h7, h8⟩ := h
  exact ⟨h1, h2, h3, h4, h5, h6, h7, h8⟩

/-- A host write keeps the invariant. -/
theorem Inv.of_hostWrite {s : State} (h : Inv s) (a : Addr) (v : Word) :
    Inv (s.hostWrite a v) := by
  obtain ⟨h1, h2, h3, h4, h5, h6, h7, h8⟩ := h
  rcases s.hostWrite_cases a v with e | e | e | ⟨hp, e | e | e | ⟨k, hk, e⟩ | ⟨k, hk, e⟩ | ⟨k, hk, e⟩⟩ <;> rw [e]
  · rw [State.writeStatus_eq]
    refine ⟨h1, h2, h3, h4, ?_, h6, h7, h8⟩
    intro op x hh
    obtain ⟨g1, g2, g3⟩ := h5 op x hh
    exact ⟨g1, by simp [g2], g3⟩
  · exact ⟨h1, h2, h3, h4, h5, h6, h7, h8⟩
  · exact ⟨h1, h2, h3, h4, h5, h6, h7, h8⟩
  · refine ⟨h1, h2, h3, h4, ?_, ?_, h7, h8⟩
    · intro op x hh
      simp [State.acceptCommand, State.accept] at hh ⊢
      rw [← hh.2]; rfl
    · simp [ErrInv, State.acceptCommand, State.accept]
  · exact ⟨h1, h2, h3, h4, fun op x hh => by simp [hp] at hh, h6, h7, h8⟩
  · exact ⟨h1, h2, h3, h4, fun op x hh => by simp [hp] at hh, h6, h7, h8⟩
  · exact ⟨h1, Memory.wf_freq h2 hk v, h3, h4, fun op x hh => by simp [hp] at hh, h6, h7, h8⟩
  · exact ⟨h1, Memory.wf_msg h2 hk _, h3, h4, fun op x hh => by simp [hp] at hh, h6, h7, h8⟩
  · exact ⟨h1, Memory.wf_bits h2 hk _, h3, h4, fun op x hh => by simp [hp] at hh, h6, h7, h8⟩

/-- The host's edge keeps the invariant. -/
theorem Inv.of_hostEdge {s : State} (h : Inv s) (hr : s.bus.rst = false) (ha : s.bus.ack = false) : Inv s.hostEdge := by
  rcases s.hostEdge_cases with e | ⟨op, acc, rest, g1, g2, g3, e⟩ | ⟨rest, g1, g2, g3, e⟩ | ⟨k, rest, g1, g2, e⟩ |
    ⟨acc, g1, g2, e⟩ | ⟨acc, g1, g2, e⟩ <;> rw [e]
  · exact h
  · obtain ⟨h1, h2, h3, h4, h5, h6, h7, -, -, -, h8⟩ := h
    refine ⟨h1, h2, h3, h4, h5, h6, h7, fun acc' ha' => ?_, ?_, ?_, h8⟩
    · obtain rfl : acc = acc' := by simpa [State.request] using ha'
      simp [hr, g2, g3]
    · simp [hr]
    · simp [ha]
  · obtain ⟨h1, h2, h3, h4, h5, h6, h7, -, -, -, h8⟩ := h
    exact ⟨h1, h2, h3, h4, h5, h6, h7, by simp [g1], by simp [hr], by simp [ha], h8⟩
  · obtain ⟨h1, h2, h3, h4, h5, h6, h7, -, -, -, h8⟩ := h
    exact ⟨h1, h2, h3, h4, h5, h6, h7, by simp [g1], by simp [g2], by simp [ha], h8⟩
  · cases acc with
    | write a v =>
      obtain ⟨h1, h2, h3, h4, h5, h6, h7, -⟩ := h.of_hostWrite a v
      exact ⟨h1, h2, h3, h4, h5, h6, h7, by simp [HostInv, State.acknowledge, hr, g1]⟩
    | read a =>
      obtain ⟨h1, h2, h3, h4, h5, h6, h7, -⟩ := h
      exact ⟨h1, h2, h3, h4, h5, h6, h7, by simp [HostInv, State.acknowledge, hr, g1]⟩
  · obtain ⟨h1, h2, h3, h4, h5, h6, h7, h8⟩ := h
    exact ⟨h1, h2, h3, h4, h5, h6, h7, h8⟩

/-- A completion keeps the invariant. -/
theorem Inv.of_exec {i : Instr} {s t : State} {x : Inputs} (h : Inv s) (hb : s.phase = .busy i x)
    (he : exec i s = .next t) : Inv t := by
  obtain ⟨h1, h2, h3, h4, h5, h6, h7, h8⟩ := h
  obtain ⟨rfl, g2, g3⟩ := h5 i x hb
  have hin : s.inputs = s.currentInputs := State.inputs_busy hb
  have hz : s.errRec = ErrRec.zero := by simpa [ErrInv, g3] using h6
  cases hte : t.err with
  | true =>
    obtain ⟨e, hc, rfl⟩ := exec_error he hte
    exact ⟨h1, h2, h3, h4, by simp [PhaseInv], by simp [ErrInv, hc], h7, h8⟩
  | false =>
  rcases exec_next he with ⟨e, rfl⟩ | ⟨rfl, rfl⟩ | ⟨rfl, rfl⟩ | ⟨rfl, r, hr, rfl⟩ | ⟨rfl, r, hr, rfl⟩ |
    ⟨rfl, r, hr, rfl⟩ | ⟨rfl, r, hr, rfl⟩
  · simp at hte
  · exact ⟨h1, h2, h3, h4, by simp [PhaseInv], by simp [ErrInv, hz], h7, h8⟩
  · exact ⟨h1, Memory.wf_clear h2, by simp [TreeInv, State.commitClear], by simp [CodesInv, State.commitClear],
      by simp [PhaseInv], by simp [ErrInv, hz, State.commitClear], by simp [State.commitClear], h8⟩
  · obtain ⟨k1, k2, k3⟩ := buildResult_shape hr s.mem.node
    have hc : r.1 ≤ 256 := k1.count.2
    have hc1 := k1.count.1
    refine ⟨h1, Memory.wf_build h2 (by omega), ?_, by simp [CodesInv, State.commitBuild], by simp [PhaseInv],
      by simp [ErrInv, hz, State.commitBuild], h7, h8⟩
    simp only [TreeInv, State.succeed_treeValid, State.commitBuild_treeValid, if_true]
    refine ⟨r.1, k1, ?_, ?_, ?_⟩
    · simp; omega
    · simp; omega
    · simp; omega
  · have hv : s.treeValid = true := by
      rw [hin, gencodeResult] at hr
      by_contra hv
      simp [State.currentInputs, hv] at hr
      exact raise_ne_ok hr
    rw [TreeInv, if_pos hv] at h3
    obtain ⟨n, t1, t2, t3, t4⟩ := h3
    obtain ⟨gl, gb⟩ := gencodeResult_length hr
    refine ⟨h1, Memory.wf_gencode h2 gl gb, ?_, ?_, by simp [PhaseInv], by simp [ErrInv, hz, State.commitGencode],
      h7, h8⟩
    · rw [TreeInv, if_pos (by simpa [State.commitGencode] using hv)]
      exact ⟨n, t1, t2, t3, t4⟩
    · intro _
      refine ⟨by simpa [State.commitGencode] using hv, ?_⟩
      obtain ⟨bs, b1, b2⟩ := bindings_ok t1
      rw [hin, gencodeResult] at hr
      simp only [State.currentInputs, hv, if_true, t4, b1, Stop.bind_ok] at hr
      obtain rfl := Except.ok.inj hr
      intro c
      obtain ⟨d, d1, d2⟩ := codeTable_isCodeTable t1 b2 c
      refine ⟨d, ?_, ?_⟩
      · simp [State.commitGencode, Store.read_writePrefix]
        rw [if_pos (by have := c.isLt; omega)]; exact d1
      · simpa [State.commitGencode, t4] using d2
  · refine ⟨h1, Memory.wf_encode h2 ?_, h3, h4, by simp [PhaseInv], by simp [ErrInv, hz, State.commitEncode], h7, h8⟩
    rw [hin, encodeResult] at hr
    split at hr
    · exact absurd hr raise_ne_ok
    · split at hr
      · exact absurd hr raise_ne_ok
      · split at hr
        · exact absurd hr raise_ne_ok
        · obtain ⟨cs, c1, c2⟩ := Stop.bind_eq_ok.mp hr
          obtain rfl := Except.ok.inj c2
          have := (encodeScan_ok c1 (Nat.zero_le _)).2.1
          rw [List.length_map]
          simpa using this
  · have hl : r.length ≤ s.params.msgDepth := by
      rw [hin, decodeResult] at hr
      split at hr
      · exact absurd hr raise_ne_ok
      · split at hr
        · exact absurd hr raise_ne_ok
        · exact decodeLoop_length hr (Nat.zero_le _)
    refine ⟨h1, Memory.wf_decode h2 hl, h3, h4, by simp [PhaseInv], by simp [ErrInv, hz, State.commitDecode], ?_, h8⟩
    simp only [State.succeed_decLen, State.commitDecode_decLen, BitVec.toNat_ofNat]
    exact Nat.le_trans (Nat.mod_le _ _) hl

end Sys2Proof.Machine
end

