-- ==== Sys2Proof/Laws/PerInstr.lean ====
section
/-! SUPPORT. One lemma for each constructor of Instr. -/

namespace Sys2Proof.Laws.IllegalWord

/-- The instruction is ILLEGAL. -/
def isIllegal : Instr → Bool
  | .nop => false
  | .build => false
  | .gencode => false
  | .encode => false
  | .decode => false
  | .clear => false
  | .illegal _ => true

/-- The command word of a well-formed instruction is illegal iff the instruction is ILLEGAL (R104). -/
def Statement (i : Instr) : Prop := i.wellFormed = true → illegalWord (Sys2Proof.encode i) = isIllegal i

theorem nop : Statement .nop := by intro _; decide

theorem build : Statement .build := by intro _; decide

theorem gencode : Statement .gencode := by intro _; decide

theorem encode : Statement .encode := by intro _; decide

theorem decode : Statement .decode := by intro _; decide

theorem clear : Statement .clear := by intro _; decide

theorem illegal (w : Word) : Statement (.illegal w) := fun h => h

end Sys2Proof.Laws.IllegalWord
end

