-- ==== Sys2Proof/Tests/Slice0.lean ====
section
/-! SUPPORT. Tests on single words and single steps, each expected value from spec/ (the source stands in the comment),
and for every statement with hypotheses a witness that meets them, clause by clause. -/

namespace Sys2Proof.Tests

open Sys2Proof.Machine

/-! ### Well-formedness: the terms the check refuses, and some it accepts -/

theorem test_wellFormed_refuses_nop_word : (Instr.illegal 0x00000000#32).wellFormed = false := by decide
theorem test_wellFormed_refuses_clear_word : (Instr.illegal 0x00000005#32).wellFormed = false := by decide
theorem test_wellFormed_accepts_reserved_opcode : (Instr.illegal 0x00000006#32).wellFormed = true := by decide
theorem test_wellFormed_accepts_rsvd : (Instr.illegal 0x00000010#32).wellFormed = true := by decide
theorem test_wellFormed_accepts_commands :
    [Instr.nop, .build, .gencode, .encode, .decode, .clear].all Instr.wellFormed = true := by decide

/-! ### Decoding: the column `encoding` of the opcode table (R100, R103, R104), RSVD [31:4] then OPCODE [3:0] -/

theorem test_decode_nop : decode (0b0000000000000000000000000000#28 ++ 0b0000#4) = .nop := by decide
theorem test_decode_build : decode (0b0000000000000000000000000000#28 ++ 0b0001#4) = .build := by decide
theorem test_decode_gencode : decode (0b0000000000000000000000000000#28 ++ 0b0010#4) = .gencode := by decide
theorem test_decode_encode : decode (0b0000000000000000000000000000#28 ++ 0b0011#4) = .encode := by decide
theorem test_decode_decode : decode (0b0000000000000000000000000000#28 ++ 0b0100#4) = .decode := by decide
theorem test_decode_clear : decode (0b0000000000000000000000000000#28 ++ 0b0101#4) = .clear := by decide
theorem test_decode_first_reserved :
    decode (0b0000000000000000000000000000#28 ++ 0b0110#4) = .illegal 0x00000006#32 := by decide
theorem test_decode_last_reserved :
    decode (0b0000000000000000000000000000#28 ++ 0b1111#4) = .illegal 0x0000000F#32 := by decide
theorem test_decode_rsvd : decode (0b0000000000000000000000000001#28 ++ 0b0001#4) = .illegal 0x00000011#32 := by decide
theorem test_decode_rsvd_top : decode (0b1000000000000000000000000000#28 ++ 0b0000#4) = .illegal 0x80000000#32 := by decide
theorem test_decodeTableWord : decodeTableWord 32 0x5 = some .clear ∧ decodeTableWord 32 0x7 = some (.illegal 7#32) := by
  decide

/-! ### Small states -/

/-- After reset, with MSG_DEPTH = 4 and BIT_DEPTH = 8. -/
def idle : State := { State.reset with params := { msgDepth := 4, bitDepth := 8 } }

/-- The tree of vector B3: a lone leaf 'a'. -/
def loneLeaf : State :=
  { idle with
    treeValid := true, root := 0#9, nodeCount := 1#10, leafCount := 1#9
    mem := { idle.mem with node := [(0, { freq := 4#32, leaf := true, sym := 0x61#8, left := 0x1FF#9, right := 0x1FF#9 })] } }

/-- The nodes of vector B1: 'a' and 'b' under one root. -/
def nodesB1 : Store Node :=
  [(0, { freq := 1#32, leaf := true, sym := 0x61#8, left := 0x1FF#9, right := 0x1FF#9 }),
   (1, { freq := 1#32, leaf := true, sym := 0x62#8, left := 0x1FF#9, right := 0x1FF#9 }),
   (2, { freq := 2#32, leaf := false, sym := 0#8, left := 0#9, right := 1#9 })]

def twoLeaves : State :=
  { idle with
    treeValid := true, root := 2#9, nodeCount := 3#10, leafCount := 2#9, mem := { idle.mem with node := nodesB1 } }

/-- The message "ab", with the codes of vector GC1 and no code for 'c'. -/
def messageAB : State :=
  { twoLeaves with
    codesValid := true, msgLen := 2#32
    mem := { twoLeaves.mem with
             msg := [(0, 0x61#8), (1, 0x62#8)]
             code := [(0x61, { bits := [false] }), (0x62, { bits := [true] }), (0x63, { bits := [] })] } }

/-- The bit-string `01`. -/
def bits01 : State :=
  { twoLeaves with bitLen := 2#32, mem := { twoLeaves.mem with bits := [(0, 0x30#8), (1, 0x31#8)] } }

/-- A frequency table with the entries `f` and `g` for the symbols `a` and `a + 1`. -/
def tableAt (a : Nat) (f g : Word) : List Word := List.replicate a 0#32 ++ ([f, g] ++ List.replicate (254 - a) 0#32)

/-- FREQ holds a table. -/
def building (fs : List Word) : State := { idle with mem := { idle.mem with freq := Store.ofList 0 fs } }

/-- The outcome is this next state. -/
def answers (o : Host.Outcome State Fault Refusal) (t : State) : Bool :=
  match o with
  | .next u => u = t
  | .fault _ => false
  | .refused _ => false

/-! ### One step of each command -/

/-- R220, example: STATUS 0x0000000E becomes 0x0000000A. -/
theorem test_nop_status : ∃ t, exec .nop { loneLeaf with done := true, err := true } = .next t ∧
    ({ loneLeaf with done := true, err := true } : State).statusWord = 0x0000000E#32 ∧ t.statusWord = 0x0000000A#32 :=
  ⟨_, rfl, by decide, by decide⟩

/-- R221, example: FREQ+0x41 = 0, NODE_COUNT = 0, ROOT = 0x1FF, CODE_LEN+0x41 = 0. -/
theorem test_clear_example : ∃ t, exec .clear messageAB = .next t ∧ t.hostRead 0x00141#19 = 0#32 ∧
    t.hostRead 0x00011#19 = 0#32 ∧ t.hostRead 0x00010#19 = 0x1FF#32 ∧ t.hostRead 0x00241#19 = 0#32 :=
  ⟨_, rfl, by decide, by decide, by decide, by decide⟩

/-- R222, examples. -/
theorem test_illegal_opcode : ∃ t, exec (.illegal 0x00000007#32) idle = .next t ∧ t.err = true ∧
    t.hostRead 0x00006#19 = 0x00000108#32 ∧ t.hostRead 0x00008#19 = 0x00000007#32 :=
  ⟨_, rfl, by decide, by decide, by decide⟩
theorem test_illegal_rsvd : ∃ t, exec (.illegal 0x00000011#32) idle = .next t ∧
    t.hostRead 0x00006#19 = 0x00000208#32 ∧ t.hostRead 0x00008#19 = 0x00000011#32 :=
  ⟨_, rfl, by decide, by decide⟩

/-- Vector B1. -/
theorem test_build_b1 : answers (exec .build (building (tableAt 97 1#32 1#32)))
    { building (tableAt 97 1#32 1#32) with
      done := true, treeValid := true, root := 2#9, nodeCount := 3#10, leafCount := 2#9
      mem := { (building (tableAt 97 1#32 1#32)).mem with node := nodesB1 } } = true := by
  decide +kernel

/-- The tree of spec/41_tree_builder.md §4, "go go gophers": the children and the frequencies of nodes 8 to 14. -/
theorem test_build_gophers :
    let t := mergeLoop 8
      ([2, 1, 3, 1, 3, 1, 1, 1].map fun f => leafNode (BitVec.ofNat 32 f) 0)
      (queueFrom 0 ([2, 1, 3, 1, 3, 1, 1, 1].map fun f => leafNode (BitVec.ofNat 32 f) 0))
    t.root = 14 ∧ (t.nodes.drop 8).map (fun nd => (nd.freq.toNat, nd.left.toNat, nd.right.toNat)) =
      [(2, 1, 3), (2, 5, 6), (3, 7, 0), (4, 8, 9), (6, 2, 4), (7, 10, 11), (13, 12, 13)] := by
  decide

/-- Vector GC1: 'a' = `0`, 'b' = `1`, no other code. -/
theorem test_gencode_gc1 : ∃ t, exec .gencode twoLeaves = .next t ∧ t.codesValid = true ∧
    Store.read t.mem.code 0x61 = some { bits := [false] } ∧ Store.read t.mem.code 0x62 = some { bits := [true] } ∧
    Store.read t.mem.code 0x63 = some { bits := [] } :=
  ⟨_, rfl, by decide, by decide, by decide, by decide⟩

/-- Vector GC3: the placeholder. -/
theorem test_gencode_gc3 : ∃ t, exec .gencode loneLeaf = .next t ∧
    Store.read t.mem.code 0x61 = some { bits := [false] } ∧ Store.read t.mem.code 0x62 = some { bits := [] } :=
  ⟨_, rfl, by decide, by decide⟩

/-- R170, example: "ab" gives 0x30, 0x31, BIT_LEN = 2. -/
theorem test_encode_ab : answers (exec .encode messageAB)
    { messageAB with
      done := true, bitLen := 2#32, mem := { messageAB.mem with bits := [(0, 0x30#8), (1, 0x31#8)] } } = true := by
  decide

/-- R172: a symbol without a code at index 1. -/
theorem test_encode_missing :
    answers (exec .encode { messageAB with mem := { messageAB.mem with msg := [(0, 0x61#8), (1, 0x63#8)] } })
      { messageAB with
        done := true, err := true, errRec := { code := .symbolMissing, sub := 0#8, pos := 1#32, info := 0x63#32 }
        mem := { messageAB.mem with msg := [(0, 0x61#8), (1, 0x63#8)] } } = true := by
  decide

/-- R190, example: `01` gives "ab", DEC_LEN = 2. -/
theorem test_decode_01 : answers (exec .decode bits01)
    { bits01 with
      done := true, decLen := 2#32, mem := { bits01.mem with dec := [(0, 0x61#8), (1, 0x62#8)] } } = true := by
  decide

/-- R194: a `1` under a lone leaf. -/
theorem test_decode_no_branch :
    answers
      (exec .decode { loneLeaf with bitLen := 2#32, mem := { loneLeaf.mem with bits := [(0, 0x30#8), (1, 0x31#8)] } })
      { loneLeaf with
        bitLen := 2#32, mem := { loneLeaf.mem with bits := [(0, 0x30#8), (1, 0x31#8)] }
        done := true, err := true, errRec := { code := .malformed, sub := 3#8, pos := 1#32, info := 0x31#32 } } = true := by
  decide

/-- A step runs the offered word (R71, R240): CLEAR as the first command after reset leaves DONE = 1 and FREQ[0] = 0. -/
theorem test_step_clear : ∃ t, step (State.reset.withFetchWord 32 0x5) = .next t ∧ t.statusWord = 0x00000002#32 ∧
    Store.read t.mem.freq 0 = some 0#32 :=
  ⟨_, rfl, by decide, by decide⟩

/-- R27: W1C of DONE and ACC_ERR; R66: a write to 0x0000A sets ACC_ERR. -/
theorem test_status_w1c : ({ idle with done := true, accErr := true } : State).hostWrite 0x00005#19 0x22#32 = idle ∧
    (idle.hostWrite 0x0000A#19 1#32).statusWord = 0x20#32 := by
  decide

/-- R73, example: the code `101` reads CODE_LEN = 3 and word 0 = 5. -/
theorem test_code_window :
    let s : State := { idle with
      codesValid := true, mem := { idle.mem with code := [(0x20, { bits := [true, false, true] })] } }
    s.hostRead 0x00220#19 = 3#32 ∧ s.hostRead 0x00500#19 = 5#32 ∧ s.hostRead 0x00501#19 = 0#32 := by
  decide

/-- The memory after reset has its canonical form. -/
theorem test_reset_memory_wf : Memory.wf State.reset.params State.reset.mem := by decide

/-! ### Witnesses: states and operands that meet the hypotheses of the statements -/

theorem holds_ofList {α : Type} (vs : List α) : Holds (Store.ofList 0 vs) vs := fun j v h => by
  rw [Store.read_ofList]; simpa using h

theorem tableAt_occupied {a : Nat} {f g : Word} (hf : f ≠ 0#32) : 0 < leafNumber (tableAt a f g) := by
  simp only [leafNumber, tableAt, List.countP_append, List.countP_cons]
  simp [hf]

theorem freqSum_append (xs ys : List Word) : freqSum (xs ++ ys) = freqSum xs + freqSum ys := by
  simp [freqSum]

theorem freqSum_zeros (k : Nat) : freqSum (List.replicate k 0#32) = 0 := by
  simp [freqSum]

theorem tableAt_sum (a : Nat) (f g : Word) : freqSum (tableAt a f g) = f.toNat + g.toNat := by
  simp [tableAt, freqSum_append, freqSum_zeros]

theorem tableAt_length {a : Nat} (h : a ≤ 254) (f g : Word) : (tableAt a f g).length = 256 := by
  simp [tableAt]; omega

theorem buildable {a : Nat} {f g : Word} (ha : a ≤ 254) (hf : f ≠ 0#32) (hs : f.toNat + g.toNat ≤ 0xFFFFFFFF) :
    Buildable (building (tableAt a f g)).inputs (tableAt a f g) :=
  ⟨tableAt_length ha f g, holds_ofList _, tableAt_occupied hf, by rw [tableAt_sum]; exact hs⟩

/-- BUILD's inputs: two leaves at the top of the table with the largest sum, and one leaf at its bottom. -/
theorem witness_buildable :
    Buildable (building (tableAt 254 0xFFFFFFFE#32 1#32)).inputs (tableAt 254 0xFFFFFFFE#32 1#32) ∧
    Buildable (building (tableAt 0 1#32 0#32)).inputs (tableAt 0 1#32 0#32) :=
  ⟨buildable (by decide) (by decide) (by decide), buildable (by decide) (by decide) (by decide)⟩

theorem shape_loneLeaf : TreeShape (Store.read loneLeaf.mem.node) 1 where
  count := by decide
  leaf i hi := by obtain rfl : i = 0 := by omega
                  exact ⟨_, rfl, rfl, rfl, rfl⟩
  internal i h1 h2 := by omega
  sum i nd l r h1 h2 := by omega
  parent j hj := by omega
  rootTop i hi := by
    rintro ⟨nd, h1, h2, -⟩
    obtain rfl : i = 0 := by omega
    obtain rfl := Option.some.inj h1
    exact absurd h2 (by decide)
  ascending i j ni nj h1 h2 := by omega

theorem shape_twoLeaves : TreeShape (Store.read nodesB1) 2 where
  count := by decide
  leaf i hi := by
    obtain rfl | rfl : i = 0 ∨ i = 1 := by omega
    · exact ⟨_, rfl, rfl, rfl, rfl⟩
    · exact ⟨_, rfl, rfl, rfl, rfl⟩
  internal i h1 h2 := by
    obtain rfl : i = 2 := by omega
    exact ⟨_, rfl, rfl, rfl, by decide, by decide, by decide⟩
  sum i nd l r h1 h2 h3 h4 h5 := by
    obtain rfl : i = 2 := by omega
    obtain rfl := Option.some.inj h3
    obtain rfl := Option.some.inj h4
    obtain rfl := Option.some.inj h5
    decide
  parent j hj := by
    refine ⟨2, by decide, ⟨_, rfl, rfl, ?_⟩, ?_⟩
    · obtain rfl | rfl : j = 0 ∨ j = 1 := by omega
      · exact .inl rfl
      · exact .inr rfl
    · rintro i hi ⟨nd, h1, h2, -⟩
      obtain rfl | rfl | rfl : i = 0 ∨ i = 1 ∨ i = 2 := by omega
      · obtain rfl := Option.some.inj h1
        exact absurd h2 (by decide)
      · obtain rfl := Option.some.inj h1
        exact absurd h2 (by decide)
      · rfl
  rootTop i hi := by
    rintro ⟨nd, h1, h2, h3⟩
    obtain rfl | rfl | rfl : i = 0 ∨ i = 1 ∨ i = 2 := by omega
    · obtain rfl := Option.some.inj h1
      exact absurd h2 (by decide)
    · obtain rfl := Option.some.inj h1
      exact absurd h2 (by decide)
    · obtain rfl := Option.some.inj h1
      exact absurd h3 (by decide)
  ascending i j ni nj h1 h2 h3 h4 := by
    obtain ⟨rfl, rfl⟩ : i = 0 ∧ j = 1 := by omega
    obtain rfl := Option.some.inj h3
    obtain rfl := Option.some.inj h4
    decide

/-- GENCODE's and DECODE's trees: one leaf and two. -/
theorem witness_walkable : Walkable loneLeaf.inputs 1 ∧ Walkable twoLeaves.inputs 2 :=
  ⟨⟨rfl, shape_loneLeaf, rfl⟩, ⟨rfl, shape_twoLeaves, rfl⟩⟩

theorem code_a : Codeword (Store.read nodesB1) 2 0x61#8 [false] := ⟨0, _, rfl, rfl, rfl, .inr ⟨by decide, rfl⟩⟩

theorem code_b : Codeword (Store.read nodesB1) 2 0x62#8 [true] := ⟨1, _, rfl, rfl, rfl, .inr ⟨by decide, rfl⟩⟩

theorem coded_ab : CodedAs (Store.read nodesB1) 2 [0x61#8, 0x62#8] [false, true] :=
  ⟨[[false], [true]], .cons code_a (.cons code_b .nil), rfl⟩

theorem bitsHold_cons {st : List Host.Cell} {b c : Bool} (h0 : Store.read st 0 = some (cellOf b))
    (h1 : Store.read st 1 = some (cellOf c)) : BitsHold st [b, c] := fun j x hj => by
  match j with
  | 0 => obtain rfl := Option.some.inj hj; exact h0
  | 1 => obtain rfl := Option.some.inj hj; exact h1
  | j + 2 => simp at hj

/-- DecodeReadsCodes, DecodeReportsTooManySymbols' prefix: the bit-string `01`; and the empty one. -/
theorem witness_decodeAt : DecodeAt bits01.params bits01.inputs [0x61#8, 0x62#8] [false, true] [] ∧
    bits01.inputs.bitLen.toNat = 2 ∧ DecodeAt twoLeaves.params twoLeaves.inputs [] [] [] ∧
    twoLeaves.inputs.bitLen.toNat = 0 :=
  ⟨⟨rfl, by decide, by decide, coded_ab, .inl rfl, bitsHold_cons rfl rfl⟩, rfl,
    ⟨rfl, by decide, by decide, ⟨[], .nil, rfl⟩, .inl rfl, fun j b h => by simp at h⟩, rfl⟩

/-- DecodeReportsABadCell: cells `0`, `1`, 0x32; UnwrittenInputStops, DECODE: cells `0`, `1` and none. -/
theorem witness_badCell :
    let s : State := { bits01 with
      bitLen := 3#32, mem := { bits01.mem with bits := [(0, 0x30#8), (1, 0x31#8), (2, 0x32#8)] } }
    DecodeAt s.params s.inputs [0x61#8, 0x62#8] [false, true] [] ∧ 2 < s.inputs.bitLen.toNat ∧
      Store.read s.inputs.bits 2 = some 0x32#8 ∧
    let u : State := { bits01 with bitLen := 3#32 }
    DecodeAt u.params u.inputs [0x61#8, 0x62#8] [false, true] [] ∧ 2 < u.inputs.bitLen.toNat ∧
      Store.read u.inputs.bits 2 = none :=
  ⟨⟨rfl, by decide, by decide, coded_ab, .inl rfl, bitsHold_cons rfl rfl⟩, by decide, rfl,
    ⟨rfl, by decide, by decide, coded_ab, .inl rfl, bitsHold_cons rfl rfl⟩, by decide, rfl⟩

/-- A tree of three leaves (vector B5): 'a' = `0`, 'b' = `10`, 'c' = `11`. -/
def nodesB5 : Store Node :=
  [(0, { freq := 2#32, leaf := true, sym := 0x61#8, left := 0x1FF#9, right := 0x1FF#9 }),
   (1, { freq := 1#32, leaf := true, sym := 0x62#8, left := 0x1FF#9, right := 0x1FF#9 }),
   (2, { freq := 1#32, leaf := true, sym := 0x63#8, left := 0x1FF#9, right := 0x1FF#9 }),
   (3, { freq := 2#32, leaf := false, sym := 0#8, left := 1#9, right := 2#9 }),
   (4, { freq := 4#32, leaf := false, sym := 0#8, left := 0#9, right := 3#9 })]

theorem shape_threeLeaves : TreeShape (Store.read nodesB5) 3 where
  count := by decide
  leaf i hi := by
    obtain rfl | rfl | rfl : i = 0 ∨ i = 1 ∨ i = 2 := by omega
    all_goals exact ⟨_, rfl, rfl, rfl, rfl⟩
  internal i h1 h2 := by
    obtain rfl | rfl : i = 3 ∨ i = 4 := by omega
    all_goals exact ⟨_, rfl, rfl, rfl, by decide, by decide, by decide⟩
  sum i nd l r h1 h2 h3 h4 h5 := by
    obtain rfl | rfl : i = 3 ∨ i = 4 := by omega
    all_goals
      obtain rfl := Option.some.inj h3
      obtain rfl := Option.some.inj h4
      obtain rfl := Option.some.inj h5
      decide
  parent j hj := by
    obtain rfl | rfl | rfl | rfl : j = 0 ∨ j = 1 ∨ j = 2 ∨ j = 3 := by omega
    · refine ⟨4, by decide, ⟨_, rfl, rfl, .inl rfl⟩, ?_⟩
      rintro i hi ⟨nd, h1, h2, h3⟩
      obtain rfl | rfl | rfl | rfl | rfl : i = 0 ∨ i = 1 ∨ i = 2 ∨ i = 3 ∨ i = 4 := by omega
      all_goals obtain rfl := Option.some.inj h1
      all_goals revert h2 h3
      all_goals decide
    · refine ⟨3, by decide, ⟨_, rfl, rfl, .inl rfl⟩, ?_⟩
      rintro i hi ⟨nd, h1, h2, h3⟩
      obtain rfl | rfl | rfl | rfl | rfl : i = 0 ∨ i = 1 ∨ i = 2 ∨ i = 3 ∨ i = 4 := by omega
      all_goals obtain rfl := Option.some.inj h1
      all_goals revert h2 h3
      all_goals decide
    · refine ⟨3, by decide, ⟨_, rfl, rfl, .inr rfl⟩, ?_⟩
      rintro i hi ⟨nd, h1, h2, h3⟩
      obtain rfl | rfl | rfl | rfl | rfl : i = 0 ∨ i = 1 ∨ i = 2 ∨ i = 3 ∨ i = 4 := by omega
      all_goals obtain rfl := Option.some.inj h1
      all_goals revert h2 h3
      all_goals decide
    · refine ⟨4, by decide, ⟨_, rfl, rfl, .inr rfl⟩, ?_⟩
      rintro i hi ⟨nd, h1, h2, h3⟩
      obtain rfl | rfl | rfl | rfl | rfl : i = 0 ∨ i = 1 ∨ i = 2 ∨ i = 3 ∨ i = 4 := by omega
      all_goals obtain rfl := Option.some.inj h1
      all_goals revert h2 h3
      all_goals decide
  rootTop i hi := by
    rintro ⟨nd, h1, h2, h3⟩
    obtain rfl | rfl | rfl | rfl | rfl : i = 0 ∨ i = 1 ∨ i = 2 ∨ i = 3 ∨ i = 4 := by omega
    all_goals obtain rfl := Option.some.inj h1
    all_goals revert h2 h3
    all_goals decide
  ascending i j ni nj h1 h2 h3 h4 := by
    obtain ⟨rfl, rfl⟩ | ⟨rfl, rfl⟩ | ⟨rfl, rfl⟩ : (i = 0 ∧ j = 1) ∨ (i = 0 ∧ j = 2) ∨ (i = 1 ∧ j = 2) := by omega
    all_goals
      obtain rfl := Option.some.inj h3
      obtain rfl := Option.some.inj h4
      decide

/-- The tree of B5 with the bit-string `01`: 'a', then an open path. -/
def open01 : State :=
  { bits01 with root := 4#9, nodeCount := 5#10, leafCount := 3#9, mem := { bits01.mem with node := nodesB5 } }

theorem code_a5 : Codeword (Store.read nodesB5) 4 0x61#8 [false] := ⟨0, _, rfl, rfl, rfl, .inr ⟨by decide, rfl⟩⟩

/-- DecodeReportsATruncatedPath, both clauses' hypotheses: `01` under the tree of B5 ends inside a code. -/
theorem witness_truncated : Walkable open01.inputs 3 ∧
    DecodeAt open01.params open01.inputs [0x61#8] [false] [true] ∧ open01.inputs.bitLen.toNat = 2 ∧
    BitsHold open01.inputs.bits [false, true] ∧
    ∃ t, exec .decode open01 = .next t ∧ t.err = true ∧ t.errRec.code = .malformed :=
  ⟨⟨rfl, shape_threeLeaves, rfl⟩,
    ⟨rfl, by decide, by decide, ⟨[[false]], .cons code_a5 .nil, rfl⟩, .inr ⟨3, _, rfl, rfl, rfl⟩, bitsHold_cons rfl rfl⟩,
    rfl, bitsHold_cons rfl rfl, ⟨_, rfl, by decide, by decide⟩⟩

/-- DecodeReportsTooManySymbols: MSG_DEPTH = 1 and the bit-string `01`. -/
theorem witness_tooMany :
    let s : State := { bits01 with params := { msgDepth := 1, bitDepth := 2 } }
    DecodeAt s.params s.inputs [0x61#8] [false] [] ∧ [0x61#8].length = s.params.msgDepth ∧
      Codeword (Store.read s.inputs.node) s.inputs.root.toNat 0x62#8 [true] ∧ BitsHold s.inputs.bits [false, true] ∧
      2 ≤ s.inputs.bitLen.toNat :=
  ⟨⟨rfl, by decide, by decide, ⟨[[false]], .cons code_a .nil, rfl⟩, .inl rfl, fun j b h => by
      match j with
      | 0 => obtain rfl := Option.some.inj h; rfl
      | j + 1 => simp at h⟩,
    rfl, code_b, bitsHold_cons rfl rfl, by decide⟩

/-- DecodeUnderALoneLeaf: `0` alone, and `01`. -/
theorem witness_loneLeaf :
    let s : State := { loneLeaf with bitLen := 2#32, mem := { loneLeaf.mem with bits := [(0, 0x30#8), (1, 0x31#8)] } }
    s.inputs.treeValid = true ∧ s.inputs.bitLen.toNat ≤ s.params.bitDepth ∧
      (∃ nd, Store.read s.inputs.node s.inputs.root.toNat = some nd ∧ nd.leaf = true) ∧ 1 ≤ s.params.msgDepth ∧
      (∀ j, j < 1 → Store.read s.inputs.bits j = some 0x30#8) ∧ 1 < s.inputs.bitLen.toNat ∧
      Store.read s.inputs.bits 1 = some 0x31#8 ∧ ({ s with bitLen := 1#32 } : State).inputs.bitLen.toNat = 1 :=
  ⟨rfl, by decide, ⟨_, rfl, rfl⟩, by decide, fun j h => match j, h with | 0, _ => rfl, by decide, rfl, rfl⟩

/-- DecodeIsAUniqueParse and TamperedBitsAreNoticed: BITS holds `01`, the code of "ab"; and it is not `00`, the code of
"aa". -/
theorem witness_parse : Walkable bits01.inputs 2 ∧ bits01.params.legal ∧ BitsHold bits01.inputs.bits [false, true] ∧
    bits01.inputs.bitLen.toNat = 2 ∧ 2 ≤ bits01.params.bitDepth ∧
    CodedAs (Store.read bits01.inputs.node) bits01.inputs.root.toNat [0x61#8, 0x61#8] [false, false] ∧
    [false, true] ≠ [false, false] :=
  ⟨⟨rfl, shape_twoLeaves, rfl⟩, by decide, bitsHold_cons rfl rfl, rfl, by decide,
    ⟨[[false], [false]], .cons code_a (.cons code_a .nil), rfl⟩, by decide⟩

theorem holds_two {α : Type} {st : Store α} {x y : α} (h0 : Store.read st 0 = some x) (h1 : Store.read st 1 = some y) :
    Holds st [x, y] := fun j v hj => by
  match j with
  | 0 => obtain rfl := Option.some.inj hj; exact h0
  | 1 => obtain rfl := Option.some.inj hj; exact h1
  | j + 2 => simp at hj

/-- EncodeConcatenatesCodes; the same message with MSG_LEN = 3: its third symbol unwritten (UnwrittenInputStops, ENCODE),
without a code, and with one that does not fit in BIT_DEPTH = 2 (EncodeReportsTheFirstBadSymbol). -/
theorem witness_encodeAt :
    EncodeAt messageAB.params messageAB.inputs [0x61#8, 0x62#8] [[false], [true]] ∧ messageAB.inputs.msgLen.toNat = 2 ∧
    (let s : State := { messageAB with msgLen := 3#32 }
     EncodeAt s.params s.inputs [0x61#8, 0x62#8] [[false], [true]] ∧ 2 < s.inputs.msgLen.toNat ∧
       Store.read s.inputs.msg 2 = none) ∧
    (let s : State := { messageAB with
       msgLen := 3#32, mem := { messageAB.mem with msg := [(0, 0x61#8), (1, 0x62#8), (2, 0x63#8)] } }
     EncodeAt s.params s.inputs [0x61#8, 0x62#8] [[false], [true]] ∧ 2 < s.inputs.msgLen.toNat ∧
       Store.read s.inputs.msg 2 = some 0x63#8 ∧ Store.read s.inputs.code 0x63 = some { bits := [] }) ∧
    (let s : State := { messageAB with
       params := { msgDepth := 4, bitDepth := 2 }, msgLen := 3#32
       mem := { messageAB.mem with msg := [(0, 0x61#8), (1, 0x62#8), (2, 0x61#8)] } }
     EncodeAt s.params s.inputs [0x61#8, 0x62#8] [[false], [true]] ∧ 2 < s.inputs.msgLen.toNat ∧
       Store.read s.inputs.msg 2 = some 0x61#8 ∧ HasCode s.inputs.code 0x61#8 [false] ∧ s.params.bitDepth < 2 + 1) := by
  refine ⟨⟨rfl, by decide, holds_two rfl rfl, ?_, by decide⟩, rfl, ⟨⟨rfl, by decide, holds_two rfl rfl, ?_, by decide⟩,
    by decide, rfl⟩, ⟨⟨rfl, by decide, holds_two rfl rfl, ?_, by decide⟩, by decide, rfl, rfl⟩,
    ⟨⟨rfl, by decide, holds_two rfl rfl, ?_, by decide⟩, by decide, rfl, ⟨rfl, by decide⟩, by decide⟩⟩
  all_goals exact .cons ⟨rfl, by decide⟩ (.cons ⟨rfl, by decide⟩ .nil)

/-- EncodePreChecks, DecodePreChecks, GencodeNeedsATree: a state for each clause, at the first length out of range. -/
theorem witness_preChecks :
    idle.inputs.codesValid = false ∧ idle.inputs.treeValid = false ∧
    (let s : State := { messageAB with msgLen := 5#32 }
     s.inputs.codesValid = true ∧ s.params.msgDepth < s.inputs.msgLen.toNat) ∧
    (let s : State := { messageAB with msgLen := 0#32 }
     s.inputs.codesValid = true ∧ s.inputs.msgLen = 0#32) ∧
    (let s : State := { bits01 with bitLen := 9#32 }
     s.inputs.treeValid = true ∧ s.params.bitDepth < s.inputs.bitLen.toNat) :=
  ⟨rfl, rfl, ⟨rfl, by decide⟩, ⟨rfl, rfl⟩, ⟨rfl, by decide⟩⟩

/-- BuildChecksItsInput: all entries 0; and the overflow at the second nonzero entry (vector B13). -/
theorem witness_buildChecks :
    (∀ k, k < 256 → Store.read (building (List.replicate 256 0#32)).inputs.freq k = some 0#32) ∧
    (tableAt 5 1#32 0xFFFFFFFF#32).length = 256 ∧
    Holds (building (tableAt 5 1#32 0xFFFFFFFF#32)).inputs.freq (tableAt 5 1#32 0xFFFFFFFF#32) ∧
    freqSum ((tableAt 5 1#32 0xFFFFFFFF#32).take 6) ≤ 0xFFFFFFFF ∧
    0xFFFFFFFF < freqSum ((tableAt 5 1#32 0xFFFFFFFF#32).take 7) := by
  refine ⟨fun k hk => ?_, tableAt_length (by decide) _ _, holds_ofList _, by decide, by decide⟩
  exact holds_ofList (List.replicate 256 0#32) k 0#32 (by rw [List.getElem?_replicate, if_pos hk])

/-- UnwrittenInputStops, BUILD: the first entry, and the last. -/
theorem witness_unwrittenFreq : Store.read idle.inputs.freq 0 = none ∧
    Store.read (building (List.replicate 255 0#32)).inputs.freq 255 = none ∧
    ∀ j, j < 255 → Store.read (building (List.replicate 255 0#32)).inputs.freq j ≠ none := by
  refine ⟨rfl, ?_, fun j hj => ?_⟩
  · show Store.read (Store.ofList 0 (List.replicate 255 0#32)) 255 = none
    rw [Store.read_ofList, if_pos (by decide), List.getElem?_replicate, if_neg (by decide)]
  · have h : Store.read (building (List.replicate 255 0#32)).inputs.freq j = some 0#32 :=
      holds_ofList (List.replicate 255 0#32) j 0#32 (by rw [List.getElem?_replicate, if_pos hj])
    rw [h]
    exact Option.some_ne_none _

/-- RoundTrip: the message "ab" with its counts. -/
theorem witness_roundTrip :
    let m : List Byte := [0x61#8, 0x62#8]
    let s : State := { idle with
      msgLen := 2#32
      mem := { idle.mem with
               msg := [(0, 0x61#8), (1, 0x62#8)]
               freq := Store.ofList 0 ((List.range 256).map fun k => BitVec.ofNat 32 (m.count (BitVec.ofNat 8 k))) } }
    s.params.legal ∧ m ≠ [] ∧ m.length ≤ s.params.msgDepth ∧ Holds s.mem.msg m ∧ s.msgLen.toNat = m.length ∧
      ∀ c : Byte, Store.read s.mem.freq c.toNat = some (BitVec.ofNat 32 (m.count c)) := by
  refine ⟨by decide, by decide, by decide, holds_two rfl rfl, rfl, fun c => ?_⟩
  refine holds_ofList _ c.toNat _ ?_
  rw [List.getElem?_map, List.getElem?_range c.isLt]
  simp

/-- The states of StepRunsTheAcceptedCommand, EveryCommandReachesItsCompletion, CommandIsAccepted, AccessWhileBusy: reset asserted,
idle, and busy with the completion due or one edge away. -/
theorem witness_phases :
    ({ idle with bus := { idle.bus with rst := true } } : State).bus.rst = true ∧
    idle.bus.rst = false ∧ idle.phase = .idle ∧
    (∃ x, (idle.accept 0x5#32 0).phase = .busy .clear x) ∧ (idle.accept 0x5#32 0).latencyLeft = 0 ∧
    (idle.accept 0x5#32 1).latencyLeft = 0 + 1 ∧ (idle.accept 0x5#32 1).bus.rst = false ∧
    ∀ k, HostOp.reset k ∉ (idle.accept 0x5#32 1).program :=
  ⟨rfl, rfl, rfl, ⟨_, rfl⟩, rfl, rfl, rfl, fun k h => by simp [State.accept, idle, State.reset] at h⟩

/-- DecodeFollowsTheOpcodeMap: a word for each clause at a boundary of its range. -/
theorem witness_opcodeMap :
    (0x00000010#32 : Word).toNat / 16 ≠ 0 ∧ (0xFFFFFFFF#32 : Word).toNat / 16 ≠ 0 ∧
    (0x00000000#32 : Word).toNat / 16 = 0 ∧ (0x00000005#32 : Word).toNat % 16 = 5 ∧
    (0x00000006#32 : Word).toNat / 16 = 0 ∧ 6 ≤ (0x00000006#32 : Word).toNat % 16 ∧
    (0x0000000F#32 : Word).toNat / 16 = 0 ∧ 6 ≤ (0x0000000F#32 : Word).toNat % 16 := by
  decide

/-- FailedCommandKeepsState, CommandFrame, InterruptLine: a completion that fails, and one that succeeds. -/
theorem witness_completions : (∃ t, exec (.illegal 0x6#32) idle = .next t ∧ t.err = true) ∧
    (∃ t, exec .nop idle = .next t ∧ t.err = false) ∧ (0x2#32 : Word).getLsbD 1 = true :=
  ⟨⟨_, rfl, rfl⟩, ⟨_, rfl, rfl⟩, by decide⟩

/-- ReservedAddresses and ReadOnlyAddresses: both ends of the ranges. -/
theorem witness_addresses :
    (∀ a ∈ [0x0000A, 0x0000F, 0x00013, 0x000FF, 0x00300, 0x003FF, 0x00C00, 0x00FFF, 0x01800, 0x0FFFF, 0x10004, 0x1FFFF,
      0x20004, 0x2FFFF, 0x30000, 0x3FFFF, 0x40008, 0x7FFFF], idle.params.reserved a) ∧
    (∀ a ∈ [0x00000, 0x00003, 0x00006, 0x00008, 0x0000E, 0x00010, 0x00012, 0x00200, 0x002FF, 0x00400, 0x00BFF, 0x01000,
      0x017FF, 0x20000, 0x20003], idle.params.readOnly a) := by
  simp [Params.reserved, Params.readOnly, idle]

/-- The cycle of a read's `ack`: the host still holds the request (R61). -/
def inAck : State :=
  { idle with bus := { rst := false, request := some (.read addrSTATUS), ack := true, rdata := some 0#32 } }

/-- AccessTakesEffectAtAck, EveryRequestIsAcknowledged: a write and a read that are due, in IDLE and while a command
runs. -/
theorem witness_bus :
    let w : State := { idle with
      bus := { idle.bus with request := some (.write addrCMD 0x5#32) }, program := [.write addrCMD 0x5#32] }
    let r : State := { idle.accept 0x5#32 1 with
      bus := { idle.bus with request := some (.read addrSTATUS) }, program := [.read addrSTATUS] }
    w.bus.rst = false ∧ w.phase = .idle ∧ w.ackLeft = 0 ∧ w.outstanding = some (.write addrCMD 0x5#32) ∧
    r.bus.rst = false ∧ r.latencyLeft ≠ 0 ∧ r.ackLeft = 0 ∧ r.outstanding = some (.read addrSTATUS) :=
  ⟨rfl, rfl, rfl, rfl, rfl, by decide, rfl, rfl⟩

/-- HostProgramNotation: no access waits, neither in IDLE, nor in the cycle of an `ack`, nor while a command runs, and
the program goes on with any of its lines. -/
theorem witness_program :
    let poll : HostOp := .poll addrSTATUS 0x1#32 0x0#32
    let busy : State := { idle.accept 0x5#32 1 with program := [.waitIrq] }
    poll.access = some (.read addrSTATUS) ∧
    (∀ op rest, ({ idle with program := op :: rest } : State).outstanding = none) ∧ idle.bus.rst = false ∧
    idle.phase = .idle ∧ inAck.outstanding = none ∧ inAck.bus.rst = false ∧ inAck.phase = .idle ∧ inAck.program = [] ∧
    busy.outstanding = none ∧ busy.bus.rst = false ∧ busy.latencyLeft ≠ 0 ∧ busy.program = .waitIrq :: [] :=
  ⟨rfl, fun _ _ => rfl, rfl, rfl, rfl, rfl, rfl, rfl, rfl, rfl, by decide, rfl⟩

/-- EndOfARun: a read and a write to MSG_LEN that are due, a completion that is due, and an ended program, each with a
WAITIRQ left (and the first with a reset after it). -/
theorem witness_end :
    let left : List HostOp := [.waitIrq, .reset 0]
    let r : State := { idle with
      bus := { idle.bus with request := some (.read addrSTATUS) }, program := .read addrSTATUS :: left }
    let w : State := { idle with
      bus := { idle.bus with request := some (.write addrMSGLEN 1#32) }, program := .write addrMSGLEN 1#32 :: left }
    let c : State := { idle.accept 0x5#32 0 with program := left }
    let e : State := { inAck with program := [.waitIrq] }
    NoAccessLeft left ∧ r.phase = .idle ∧ r.bus.rst = false ∧ r.ackLeft = 0 ∧
    r.outstanding = some (.read addrSTATUS) ∧ w.phase = .idle ∧ w.bus.rst = false ∧ w.ackLeft = 0 ∧
    w.outstanding = some (.write addrMSGLEN 1#32) ∧ addrMSGLEN ≠ addrCMD ∧
    (∃ x, c.phase = .busy .clear x) ∧ c.bus.rst = false ∧ c.latencyLeft = 0 ∧ c.outstanding = none ∧
    (∃ t, exec .clear c.quiet = .next t) ∧
    e.ended ∧ e.bus.rst = false ∧ ∀ k, HostOp.reset k ∉ e.program := by
  refine ⟨by decide, rfl, rfl, rfl, rfl, rfl, rfl, rfl, rfl, by decide, ⟨_, rfl⟩, rfl, rfl, rfl, ⟨_, rfl⟩,
    ⟨by decide, rfl, rfl⟩, rfl, by simp⟩

/-- R61: in the cycle after the `ack` the request is dropped. -/
theorem test_request_dropped_after_ack : ∃ t, step inAck = .next t ∧ t.bus.request = none ∧ t.bus.ack = false :=
  ⟨_, rfl, rfl, rfl⟩

/-- ArraysRead: the first and the last cell of each window, written and unwritten. -/
theorem witness_arrays :
    let s : State := { messageAB with
      mem := { messageAB.mem with
               freq := [(255, 7#32)], dec := [(3, 0x61#8)], bits := [(0, 0x30#8), (7, 0x31#8)] } }
    s.phase = .idle ∧ s.params.legal ∧ Store.read s.mem.freq (0xFF#8 : Byte).toNat = some 7#32 ∧
    Store.read s.mem.msg 0 = some 0x61#8 ∧ Store.read s.mem.msg 3 = none ∧ 3 < s.params.msgDepth ∧
    Store.read s.mem.dec 3 = some 0x61#8 ∧ Store.read s.mem.dec 0 = none ∧
    Store.read s.mem.bits 7 = some 0x31#8 ∧ Store.read s.mem.bits 1 = none ∧ 7 < s.params.bitDepth :=
  ⟨rfl, by decide, rfl, rfl, rfl, by decide, rfl, rfl, rfl, rfl, by decide⟩

/-- WritesStoreAndReadBack, NodeWindow, CodeWindow, HiddenStorageIsInvisible: an idle state with a tree, codes and legal
sizes, both sides of NODE_COUNT, and another hidden slot. -/
theorem witness_windows : messageAB.phase = .idle ∧ messageAB.params.legal ∧
    2 < messageAB.nodeCount.toNat ∧ (∃ nd, Store.read messageAB.mem.node 2 = some nd) ∧ messageAB.nodeCount.toNat ≤ 3 ∧
    messageAB.codesValid = true ∧ Store.read messageAB.mem.code (0x61#8 : Byte).toNat = some { bits := [false] } ∧
    twoLeaves.codesValid = false ∧
    ∀ i, i < twoLeaves.nodeCount.toNat → Store.read (Store.write nodesB1 3 (leafNode 7#32 9)) i = Store.read nodesB1 i := by
  refine ⟨rfl, by decide, by decide, ⟨_, rfl⟩, by decide, rfl, rfl, rfl, fun i hi => ?_⟩
  have : i < 3 := hi
  exact Store.read_write_other _ _ (by omega)

theorem inv_idle : Inv idle where
  params := by decide
  mem := by decide
  tree := ⟨rfl, rfl, rfl⟩
  codes h := absurd h (by decide)
  phase op x h := absurd h (by simp [idle, State.reset])
  err := rfl
  dec := by decide
  host := by simp [HostInv, idle, State.reset]

/-- The statements about the invariant: a state with a tree, which satisfies it, and its step (a host write to CMD). -/
theorem witness_invariant :
    let s : State := { twoLeaves with
      bus := { twoLeaves.bus with request := some (.write addrCMD 0x2#32) }, program := [.write addrCMD 0x2#32] }
    Inv s ∧ Memory.wf s.params s.mem ∧ (∃ t, step s = .next t) ∧ Inv idle ∧ idle.treeValid = false := by
  have hw : Memory.wf twoLeaves.params twoLeaves.mem := by decide
  refine ⟨⟨by decide, hw, ⟨2, shape_twoLeaves, rfl, rfl, rfl⟩, fun h => absurd h (by decide), ?_, rfl, by decide, ?_⟩, hw,
    ⟨_, rfl⟩, inv_idle, rfl⟩
  · intro op x h
    simp [twoLeaves, idle, State.reset] at h
  · simp [HostInv, twoLeaves, idle, State.reset]

/-- CompletionUnderTheInvariant: a command word just accepted, whatever it is; BUILD's reads nothing that was written. -/
theorem witness_completion (w : Word) : Inv (idle.hostWrite addrCMD w) ∧
    (∃ x, (idle.hostWrite addrCMD w).phase = .busy (decode w) x) ∧ Store.read idle.mem.freq 0 = none :=
  ⟨inv_idle.of_hostWrite addrCMD w, ⟨_, rfl⟩, rfl⟩

end Sys2Proof.Tests
end

section
/-! The way of an accepted command to its completion (R14, R283): while a command's time has not come, no edge without
reset changes its operation, its snapshot or the count of its edges except by one. -/

namespace Sys2Proof.Machine

/-! ### Acceptance and completion -/

/-- The wait given at acceptance is within the bound that R14 promises. -/
theorem State.hostWrite_cmd_latencyLeft_le {s : State} (h : s.phase = .idle) (w : Word) :
    (s.hostWrite addrCMD w).latencyLeft ≤
      Config.latencyBound w s.nodeCount.toNat s.msgLen.toNat s.bitLen.toNat := by
  rw [State.hostWrite_idle h, region_cmd]
  exact Nat.min_le_right _ _

/-- Every completion, successful or not, leaves PHASE = IDLE and DONE = 1 (R240). -/
theorem exec_idle_done {i : Instr} {s t : State} (h : exec i s = .next t) : t.phase = .idle ∧ t.done = true := by
  rcases exec_next h with ⟨_, rfl⟩ | ⟨_, rfl⟩ | ⟨_, rfl⟩ | ⟨_, _, _, rfl⟩ | ⟨_, _, _, rfl⟩ | ⟨_, _, _, rfl⟩ |
    ⟨_, _, _, rfl⟩ <;> exact ⟨rfl, rfl⟩

/-! ### A running command under the host's edges -/

/-- The command `op` runs from the snapshot `x`, `k` edges before its completion, and no reset is on its way: `rst` is 0
and the host program holds no reset line. -/
structure Running (op : Instr) (x : Inputs) (k : Nat) (s : State) : Prop where
  phase : s.phase = .busy op x
  rst : s.bus.rst = false
  noReset : ∀ extra, HostOp.reset extra ∉ s.program
  left : s.latencyLeft = k

section

variable {op : Instr} {x : Inputs} {k : Nat} {s : State}

theorem afterWrite_subset (ops : List HostOp) : afterWrite ops ⊆ ops := by
  rw [afterWrite.eq_def]
  split
  · exact List.subset_cons_self _ _
  · exact List.Subset.refl _

theorem afterRead_subset (v : Word) (ops : List HostOp) : afterRead v ops ⊆ ops := by
  rw [afterRead.eq_def]
  split
  · exact List.subset_cons_self _ _
  · split
    · exact List.subset_cons_self _ _
    · exact List.Subset.refl _
  · exact List.Subset.refl _

/-- A host write while a command runs leaves its operation, its snapshot and its wait alone (R70). -/
theorem State.hostWrite_keeps_running (h : s.phase = .busy op x) (a : Addr) (v : Word) :
    (s.hostWrite a v).phase = s.phase ∧ (s.hostWrite a v).latencyLeft = s.latencyLeft := by
  rcases s.hostWrite_cases a v with e | e | e | ⟨hidle, -⟩
  · rw [e, State.writeStatus_eq]; exact ⟨rfl, rfl⟩
  · rw [e]; exact ⟨rfl, rfl⟩
  · rw [e]; exact ⟨rfl, rfl⟩
  · simp [h] at hidle

theorem Running.acknowledge (h : Running op x k s) (acc : Access) : Running op x k (s.acknowledge acc) := by
  cases acc with
  | write a v =>
    obtain ⟨hphase, hleft⟩ := State.hostWrite_keeps_running h.phase a v
    exact ⟨hphase.trans h.phase, h.rst, fun extra hm => h.noReset extra (afterWrite_subset _ hm), hleft.trans h.left⟩
  | read a => exact ⟨h.phase, h.rst, fun extra hm => h.noReset extra (afterRead_subset _ _ hm), h.left⟩

/-- The host's part of an edge leaves a running command alone: it can raise `rst` only at a reset line. -/
theorem Running.hostEdge (h : Running op x k s) : Running op x k s.hostEdge := by
  rcases s.hostEdge_cases with e | ⟨_, _, _, -, -, -, e⟩ | ⟨rest, -, hprog, -, e⟩ | ⟨extra, rest, -, hprog, -⟩ |
    ⟨acc, -, -, e⟩ | ⟨_, -, -, e⟩
  · rw [e]; exact h
  · rw [e]; exact ⟨h.phase, h.rst, h.noReset, h.left⟩
  · rw [e]
    exact ⟨h.phase, h.rst, fun extra hm => h.noReset extra (by rw [hprog]; exact List.mem_cons_of_mem _ hm), h.left⟩
  · exact absurd (by rw [hprog]; exact List.mem_cons_self) (h.noReset extra)
  · rw [e]; exact h.acknowledge acc
  · rw [e]; exact ⟨h.phase, h.rst, h.noReset, h.left⟩

/-! ### The steps up to the completion -/

/-- One step before the completion is due brings the command one edge nearer to it. -/
theorem Running.step_succ (h : Running op x (k + 1) s) : ∃ t, step s = .next t ∧ Running op x k t := by
  have hbusy : s.phase ≠ .idle := by simp [h.phase]
  obtain ⟨l, hstep, -, hl⟩ := step_edge (.inr (by simp [h.left])) h.rst
  have hlk : l = k := Nat.succ.inj ((hl hbusy).trans h.left)
  have hquiet : Running op x k { s.quiet with latencyLeft := l } := ⟨h.phase, h.rst, h.noReset, hlk⟩
  exact ⟨_, hstep, hquiet.hostEdge⟩

/-- As many steps as the wait lead to the state in which the completion is due. -/
theorem Running.run_to_completion (h : Running op x k s) :
    ∃ u, Host.Core.run Sys2Proof.core k s = .next u ∧ Running op x 0 u := by
  induction k generalizing s with
  | zero => exact ⟨s, rfl, h⟩
  | succ k ih =>
    obtain ⟨t, hstep, ht⟩ := h.step_succ
    obtain ⟨u, hrun, hu⟩ := ih ht
    exact ⟨u, (run_next hstep).trans hrun, hu⟩

/-- The step of a command whose completion is due is its `exec`. -/
theorem Running.step_zero (h : Running op x 0 s) : step s = exec op s.quiet := by
  simp [step, h.rst, h.phase, h.left]

end

/-- Settles O8: the bound is the one the wait is capped by, and the run of the wait's length keeps `Running`. -/
theorem everyCommandReachesItsCompletion : Obligations.EveryCommandReachesItsCompletion := by
  refine ⟨⟨Config.latencyBound, fun s w hidle => State.hostWrite_cmd_latencyLeft_le hidle w⟩, ?_⟩
  intro s op x hphase hrst hprog
  have hs : Running op x s.latencyLeft s := ⟨hphase, hrst, hprog, rfl⟩
  obtain ⟨u, hrun, hu⟩ := hs.run_to_completion
  refine ⟨u, hrun, hu.phase, hu.step_zero, State.inputs_busy hu.phase, fun t ht => ?_⟩
  exact exec_idle_done (hu.step_zero.symm.trans ht)

end Sys2Proof.Machine
end

section
/-! What one step can do to the block itself, the ports and the host's program left aside, and that no step breaks the
canonical form of memory (R25, R38, R39). -/

namespace Sys2Proof.Machine

/-! ### The block without its surroundings -/

/-- The block alone: the state without its ports, the host's program and the model's own waits and draws. -/
def State.block (s : State) : State :=
  { s with bus := State.reset.bus, program := [], latencyLeft := 0, ackLeft := 0, draws := 0 }

theorem State.block_hostWrite (s : State) (a : Addr) (v : Word) :
    (s.hostWrite a v).block = (s.block.hostWrite a v).block := by
  rcases s.phase_cases with h | ⟨op, x, h⟩
  · rw [State.hostWrite_idle h, State.hostWrite_idle (s := s.block) h]
    change (s.writeRegion v (region s.params a)).block = (s.block.writeRegion v (region s.params a)).block
    cases region s.params a with
    | status => simp only [State.writeRegion, State.writeStatus_eq]; rfl
    | _ => rfl
  · rw [State.hostWrite_busy h, State.hostWrite_busy (s := s.block) h]
    change (s.writeRegionBusy v (region s.params a)).block = (s.block.writeRegionBusy v (region s.params a)).block
    cases region s.params a with
    | status => simp only [State.writeRegionBusy, State.writeStatus_eq]; rfl
    | _ => rfl

/-- A write changes the block in the same way whatever its surroundings are. -/
theorem State.block_hostWrite_congr {s u : State} (h : u.block = s.block) (a : Addr) (v : Word) :
    (u.hostWrite a v).block = (s.hostWrite a v).block := by
  rw [State.block_hostWrite u, h, ← State.block_hostWrite]

/-- The host's edge changes the block only by acknowledging a write (R61, R68). -/
theorem State.block_hostEdge (s : State) :
    s.hostEdge.block = s.block ∨
    ∃ a v, s.bus.request = some (.write a v) ∧ s.hostEdge.block = (s.hostWrite a v).block := by
  rcases s.hostEdge_cases with e | ⟨_, _, _, -, -, -, e⟩ | ⟨_, -, -, -, e⟩ | ⟨_, _, -, -, e⟩ | ⟨acc, hreq, -, e⟩ |
    ⟨_, -, -, e⟩ <;> rw [e]
  · exact .inl rfl
  · exact .inl rfl
  · exact .inl rfl
  · exact .inl rfl
  · cases acc with
    | write a v => exact .inr ⟨a, v, hreq, rfl⟩
    | read a => exact .inl rfl
  · exact .inl rfl

/-- What a step can do to the block: reset it, leave it alone, perform the host's write that waits, or complete the
running command. -/
theorem step_block {s t : State} (h : step s = .next t) :
    (s.bus.rst = true ∧ t = s.resetEdge) ∨
    t.block = s.block ∨
    (∃ a v, s.outstanding = some (.write a v) ∧ t.block = (s.hostWrite a v).block) ∨
    (∃ op x, s.phase = .busy op x ∧ exec op s.quiet = .next t) := by
  have edge : ∀ u : State, u.block = s.block → u.bus.request = s.outstanding →
      u.hostEdge.block = s.block ∨
      ∃ a v, s.outstanding = some (.write a v) ∧ u.hostEdge.block = (s.hostWrite a v).block := by
    intro u hu hreq
    rcases u.block_hostEdge with e | ⟨a, v, hw, e⟩
    · exact .inl (e.trans hu)
    · exact .inr ⟨a, v, hreq.symm.trans hw, e.trans (State.block_hostWrite_congr hu a v)⟩
  rcases step_next h with hreset | ⟨-, -, rfl⟩ | ⟨-, op, x, hphase, -, he⟩ | ⟨-, _, _, -, -, rfl⟩
  · exact .inl hreset
  · exact .inr ((edge s.quiet rfl rfl).imp_right .inl)
  · exact .inr (.inr (.inr ⟨op, x, hphase, he⟩))
  · exact .inr ((edge { s.quiet with latencyLeft := s.latencyLeft - 1 } rfl rfl).imp_right .inl)

/-! ### The canonical form of memory -/

/-- BUILD's nodes fit into NODE (R10, R125). -/
theorem buildResult_nodes_length_le {x : Inputs} {r : Nat × BuiltTree} (h : buildResult x = .ok r) :
    r.2.nodes.length ≤ 511 := by
  obtain ⟨hshape, hlen, -⟩ := buildResult_shape h []
  have := hshape.count.2
  simp only [Config.nsym] at this
  omega

/-- ENCODE's bit-string fits into BITS (R174). -/
theorem encodeResult_length_le {p : Params} {x : Inputs} {bits : List Bool} (h : encodeResult p x = .ok bits) :
    bits.length ≤ p.bitDepth := by
  rw [encodeResult] at h
  split at h
  · exact absurd h raise_ne_ok
  · split at h
    · exact absurd h raise_ne_ok
    · split at h
      · exact absurd h raise_ne_ok
      · obtain ⟨codes, hscan, hflat⟩ := Stop.bind_eq_ok.mp h
        obtain rfl := Except.ok.inj hflat
        simpa using (encodeScan_ok hscan (Nat.zero_le _)).2.1

/-- DECODE's symbols fit into DEC (R197). -/
theorem decodeResult_length_le {p : Params} {x : Inputs} {out : List Byte} (h : decodeResult p x = .ok out) :
    out.length ≤ p.msgDepth := by
  rw [decodeResult] at h
  split at h
  · exact absurd h raise_ne_ok
  · split at h
    · exact absurd h raise_ne_ok
    · exact decodeLoop_length h (Nat.zero_le _)

/-- A completion keeps the sizes and the form, whatever the snapshot and the flags are: each command checks by itself
that its output fits. -/
theorem exec_keeps_memory_form {i : Instr} {s t : State} (hwf : Memory.wf s.params s.mem) (h : exec i s = .next t) :
    t.params = s.params ∧ Memory.wf t.params t.mem := by
  rcases exec_next h with ⟨_, rfl⟩ | ⟨-, rfl⟩ | ⟨-, rfl⟩ | ⟨-, _, hr, rfl⟩ | ⟨-, _, hr, rfl⟩ | ⟨-, _, hr, rfl⟩ |
    ⟨-, _, hr, rfl⟩
  · exact ⟨rfl, hwf⟩
  · exact ⟨rfl, hwf⟩
  · exact ⟨rfl, Memory.wf_clear hwf⟩
  · exact ⟨rfl, Memory.wf_build hwf (buildResult_nodes_length_le hr)⟩
  · obtain ⟨hlen, hcodes⟩ := gencodeResult_length hr
    exact ⟨rfl, Memory.wf_gencode hwf hlen hcodes⟩
  · exact ⟨rfl, Memory.wf_encode hwf (by rw [List.length_map]; exact encodeResult_length_le hr)⟩
  · exact ⟨rfl, Memory.wf_decode hwf (decodeResult_length_le hr)⟩

/-- A host write keeps the sizes and the form: it stores only inside an array (R65). -/
theorem State.hostWrite_keeps_memory_form {s : State} (hwf : Memory.wf s.params s.mem) (a : Addr) (v : Word) :
    (s.hostWrite a v).params = s.params ∧ Memory.wf (s.hostWrite a v).params (s.hostWrite a v).mem := by
  rcases s.hostWrite_cases a v with e | e | e | ⟨-, e | e | e | ⟨_, hk, e⟩ | ⟨_, hk, e⟩ | ⟨_, hk, e⟩⟩ <;> rw [e]
  · rw [State.writeStatus_eq]; exact ⟨rfl, hwf⟩
  · exact ⟨rfl, hwf⟩
  · exact ⟨rfl, hwf⟩
  · exact ⟨rfl, hwf⟩
  · exact ⟨rfl, hwf⟩
  · exact ⟨rfl, hwf⟩
  · exact ⟨rfl, Memory.wf_freq hwf hk v⟩
  · exact ⟨rfl, Memory.wf_msg hwf hk _⟩
  · exact ⟨rfl, Memory.wf_bits hwf hk _⟩

/-- Sizes and memory are the block's, so what holds of them in one state holds in every state with the same block. -/
theorem memory_form_of_block {s t u : State} (h : t.block = u.block)
    (hu : u.params = s.params ∧ Memory.wf u.params u.mem) : t.params = s.params ∧ Memory.wf t.params t.mem := by
  have hparams : t.params = u.params := (congrArg State.params h :)
  have hmem : t.mem = u.mem := (congrArg State.mem h :)
  rw [hparams, hmem]
  exact hu

/-- Settles O56, by what a step can do to the block: reset memory is canonical, and host writes and completions keep the
form. -/
theorem stepKeepsTheMemoryForm : Obligations.StepKeepsTheMemoryForm := by
  intro s t hwf h
  rcases step_block h with ⟨-, rfl⟩ | hsame | ⟨a, v, -, hwrite⟩ | ⟨op, x, -, he⟩
  · exact ⟨rfl, Memory.wf_unspecified s.params⟩
  · exact memory_form_of_block hsame ⟨rfl, hwf⟩
  · exact memory_form_of_block hwrite (State.hostWrite_keeps_memory_form hwf a v)
  · exact exec_keeps_memory_form (s := s.quiet) hwf he

end Sys2Proof.Machine
end

section
/-! The flags of STATUS: the events that change them, and how (R22). -/

namespace Sys2Proof.Machine

/-! ### What a host write does to the flags -/

/-- No other address than 0x00005 is STATUS (R65). -/
theorem region_eq_status {p : Params} {a : Addr} (h : region p a = .status) : a = addrSTATUS := by
  have h5 : a.toNat = 5 := by
    unfold region regionOf windowRegion arrayRegion cellRegion at h
    split_ifs at h
    unfold registerRegion at h
    split at h <;> first | assumption | cases h
  exact BitVec.eq_of_toNat_eq h5

/-- The writes that are rejected with ACC_ERR (R66, R67, R70). -/
def State.rejects (s : State) (a : Addr) : Prop :=
  s.params.reserved a.toNat ∨ s.params.readOnly a.toNat ∨ (s.phase ≠ .idle ∧ a ≠ addrSTATUS ∧ a ≠ addrIRQEN)

/-- Which writes touch flags: an accepted command, a write to STATUS, a rejected write. All others store. -/
theorem State.hostWrite_addr_cases {s : State} (hl : s.params.msgDepth ≤ 0x10000) (a : Addr) (v : Word) :
    (s.phase = .idle ∧ a = addrCMD ∧ s.hostWrite a v = s.acceptCommand v) ∨
    (a = addrSTATUS ∧ s.hostWrite a v = s.writeStatus v) ∨
    (s.rejects a ∧ s.hostWrite a v = s.accessError) ∨
    (∃ ie ml bl m, s.hostWrite a v = { s with doneIE := ie, msgLen := ml, bitLen := bl, mem := m }) := by
  rcases s.phase_cases with hp | ⟨op, x, hp⟩
  · rw [State.hostWrite_idle hp]
    cases hr : region s.params a with
    | cmd => exact .inl ⟨hp, region_eq_cmd hr, rfl⟩
    | status => exact .inr (.inl ⟨region_eq_status hr, rfl⟩)
    | irqEn | msgLen | bitLen | freq _ | msg _ | bits _ => exact .inr (.inr (.inr ⟨_, _, _, _, rfl⟩))
    | reserved => exact .inr (.inr (.inl ⟨.inl ((regionOf_reserved_iff _ _).mp hr), rfl⟩))
    | _ =>
      have hro : (region s.params a).readOnly = true := by rw [hr]; rfl
      exact .inr (.inr (.inl ⟨.inr (.inl ((regionOf_readOnly_iff hl _).mp hro)), rfl⟩))
  · rw [State.hostWrite_busy hp]
    cases hr : region s.params a with
    | status => exact .inr (.inl ⟨region_eq_status hr, rfl⟩)
    | irqEn => exact .inr (.inr (.inr ⟨_, _, _, _, rfl⟩))
    | _ =>
      have hstatus : a ≠ addrSTATUS := by rintro rfl; simp at hr
      have hirqEn : a ≠ addrIRQEN := by rintro rfl; simp at hr
      exact .inr (.inr (.inl ⟨.inr (.inr ⟨by simp [hp], hstatus, hirqEn⟩), rfl⟩))

/-! ### What a completion does to the flags -/

/-- The flags of STATUS (R27); BUSY is the phase. -/
structure Flags where
  phase : Phase
  done : Bool
  err : Bool
  treeValid : Bool
  codesValid : Bool
  accErr : Bool

def State.flags (s : State) : Flags := ⟨s.phase, s.done, s.err, s.treeValid, s.codesValid, s.accErr⟩

/-- TREE_VALID after the success of a command (R125, R221). -/
def treeValidAfter : Instr → Bool → Bool
  | .build, _ => true
  | .clear, _ => false
  | _, b => b

/-- CODES_VALID after the success of a command (R125, R153, R221). -/
def codesValidAfter : Instr → Bool → Bool
  | .gencode, _ => true
  | .build, _ => false
  | .clear, _ => false
  | _, b => b

theorem treeValidAfter_rises_iff {i : Instr} : treeValidAfter i false = true ↔ i = .build := by
  cases i <;> simp [treeValidAfter]

theorem treeValidAfter_falls_iff {i : Instr} : treeValidAfter i true = false ↔ i = .clear := by
  cases i <;> simp [treeValidAfter]

theorem codesValidAfter_rises_iff {i : Instr} : codesValidAfter i false = true ↔ i = .gencode := by
  cases i <;> simp [codesValidAfter]

theorem codesValidAfter_falls_iff {i : Instr} : codesValidAfter i true = false ↔ i = .clear ∨ i = .build := by
  cases i <;> simp [codesValidAfter]

/-! ### What a step does to the flags -/

/-- The events of R22, each with the flags it leaves. -/
inductive FlagEvent (s : State) : Flags → Prop where
  | reset (hrst : s.bus.rst = true) : FlagEvent s State.reset.flags
  | none : FlagEvent s s.flags
  | accepted (w : Word) (hidle : s.phase = .idle) (hwrite : s.outstanding = some (.write addrCMD w)) :
      FlagEvent s { s.flags with phase := .busy (decode w) s.currentInputs, done := false, err := false }
  | status (v : Word) (hwrite : s.outstanding = some (.write addrSTATUS v)) :
      FlagEvent s { s.flags with done := s.done && !v.getLsbD 1, accErr := s.accErr && !v.getLsbD 5 }
  | rejected (hwrite : ∃ a v, s.outstanding = some (.write a v) ∧ s.rejects a) :
      FlagEvent s { s.flags with accErr := true }
  | failed (op : Instr) (x : Inputs) (hbusy : s.phase = .busy op x) :
      FlagEvent s { s.flags with phase := .idle, done := true, err := true }
  | succeeded (op : Instr) (x : Inputs) (hbusy : s.phase = .busy op x) :
      FlagEvent s { s.flags with
                    phase := .idle, done := true, err := false
                    treeValid := treeValidAfter op s.treeValid, codesValid := codesValidAfter op s.codesValid }

theorem State.flags_of_block {t u : State} (h : t.block = u.block) : t.flags = u.flags :=
  (congrArg State.flags h :)

/-- A completion fails, or succeeds (R240, R241). -/
theorem exec_flagEvent {op : Instr} {x : Inputs} {s t : State} (hbusy : s.phase = .busy op x)
    (h : exec op s.quiet = .next t) : FlagEvent s t.flags := by
  rcases exec_next h with ⟨_, rfl⟩ | ⟨rfl, rfl⟩ | ⟨rfl, rfl⟩ | ⟨rfl, _, -, rfl⟩ | ⟨rfl, _, -, rfl⟩ |
    ⟨rfl, _, -, rfl⟩ | ⟨rfl, _, -, rfl⟩
  · exact .failed op x hbusy
  all_goals exact .succeeded _ x hbusy

/-- The host's write that waits is accepted, acts on STATUS, is rejected, or leaves the flags alone. -/
theorem hostWrite_flagEvent {s : State} (hl : s.params.msgDepth ≤ 0x10000) {a : Addr} {v : Word}
    (hwrite : s.outstanding = some (.write a v)) : FlagEvent s (s.hostWrite a v).flags := by
  rcases State.hostWrite_addr_cases hl a v with ⟨hidle, rfl, e⟩ | ⟨rfl, e⟩ | ⟨hrejects, e⟩ | ⟨_, _, _, _, e⟩ <;> rw [e]
  · exact .accepted v hidle hwrite
  · rw [State.writeStatus_eq]; exact .status v hwrite
  · exact .rejected ⟨a, v, hwrite, hrejects⟩
  · exact .none

/-- Every step is one of the events. -/
theorem step_flagEvent {s t : State} (hl : s.params.msgDepth ≤ 0x10000) (h : step s = .next t) :
    FlagEvent s t.flags := by
  rcases step_block h with ⟨hrst, rfl⟩ | hsame | ⟨a, v, hwrite, hblock⟩ | ⟨op, x, hbusy, he⟩
  · exact .reset hrst
  · rw [State.flags_of_block hsame]; exact .none
  · rw [State.flags_of_block hblock]; exact hostWrite_flagEvent hl hwrite
  · exact exec_flagEvent hbusy he

/-- Settles O57, by the events of R22 one by one: the twelve clauses are compared with the flags that each event leaves. -/
theorem flagsChangeOnlyAsListed : Obligations.FlagsChangeOnlyAsListed := by
  intro s t hinv h
  have event : FlagEvent s t.flags := step_flagEvent hinv.params.2.1 h
  rw [State.flags] at event
  generalize t.phase = phase, t.done = done, t.err = err, t.treeValid = treeValid, t.codesValid = codesValid,
    t.accErr = accErr at event ⊢
  cases event with
  | reset hrst => simp [hrst, State.reset]
  | none => simp +contextual
  | accepted w hidle hwrite => simp +contextual [State.flags, hidle, hwrite]
  | status v hwrite => simp +contextual [State.flags, hwrite]
  | rejected hwrite =>
    simp only [State.rejects] at hwrite
    simp +contextual [State.flags, hwrite, -exists_and_right]
  | failed op x hbusy => simp +contextual [State.flags, hbusy]
  | succeeded op x hbusy =>
    obtain ⟨-, -, herr⟩ := hinv.phase op x hbusy
    simp +contextual [State.flags, hbusy, herr, treeValidAfter_rises_iff, treeValidAfter_falls_iff,
      codesValidAfter_rises_iff, codesValidAfter_falls_iff, exists_or]

end Sys2Proof.Machine
end

section
/-! What the host reads in the registers and windows: STATUS with its write-1-to-clear bits, every other register at its
address, and that no read in IDLE shows hidden storage (R23 to R37, R40). -/

namespace Sys2Proof.Machine

/-- A register that R70 lists reads in any phase as in IDLE. -/
theorem State.hostRead_of_readableWhileBusy {s : State} {a : Addr} (h : (region s.params a).readableWhileBusy = true) :
    s.hostRead a = s.readRegion a (region s.params a) := by
  simp [State.hostRead, h]

theorem zext_toNat {n : Nat} (hn : n ≤ 32) (v : BitVec n) : (zext v).toNat = v.toNat :=
  BitVec.toNat_setWidth_of_le hn

/-! ### STATUS -/

theorem State.isBusy_iff {s : State} : s.isBusy = true ↔ s.phase ≠ .idle := by
  unfold State.isBusy
  split <;> simp_all

/-- The bits of STATUS (R27). -/
theorem State.statusWord_getLsbD (s : State) (k : Nat) :
    s.statusWord.getLsbD k = [s.isBusy, s.done, s.err, s.treeValid, s.codesValid, s.accErr].getD k false := by
  simp only [State.statusWord, zext, BitVec.getLsbD_setWidth, BitVec.getLsbD_append]
  match k with
  | 0 | 1 | 2 | 3 | 4 | 5 => simp
  | k + 6 => simp

theorem State.hostRead_status (s : State) : s.hostRead addrSTATUS = s.statusWord :=
  State.hostRead_of_readableWhileBusy rfl

/-- A write to STATUS does the same in any phase (R70). -/
theorem State.hostWrite_status (s : State) (v : Word) : s.hostWrite addrSTATUS v = s.writeStatus v := by
  rw [State.hostWrite, region_status]
  split <;> rfl

/-- Settles O41, by the bits of the word of STATUS. -/
theorem statusRegister : Obligations.StatusRegister := by
  intro s
  have hread : s.hostRead 0x00005#19 = s.statusWord := s.hostRead_status
  have hwrite : ∀ v, s.hostWrite 0x00005#19 v = s.writeStatus v := s.hostWrite_status
  simp only [hread, hwrite, State.statusWord_getLsbD]
  refine ⟨State.isBusy_iff, rfl, rfl, rfl, rfl, rfl, fun k hk => List.getD_eq_default _ _ hk, fun v => ?_⟩
  rw [State.writeStatus_eq]
  cases v.getLsbD 1 <;> cases v.getLsbD 5 <;> simp

/-! ### The other registers -/

/-- IRQ_EN reads DONE_IE (R31). -/
theorem State.irqEnWord_eq (s : State) : s.irqEnWord = if s.doneIE then 1#32 else 0#32 := by
  rw [State.irqEnWord]
  cases s.doneIE <;> rfl

/-- ERR_CODE reads CODE + 256 SUB (R28). -/
theorem ErrRec.codeWord_toNat (e : ErrRec) : e.codeWord.toNat = 256 * e.sub.toNat + e.code.toByte.toNat := by
  rw [ErrRec.codeWord, zext_toNat (by decide), BitVec.toNat_append, ← Nat.shiftLeft_add_eq_or_of_lt e.code.toByte.isLt,
    Nat.shiftLeft_eq, Nat.mul_comm]

/-- Settles O42: the registers of the first group read so in any phase, the others in IDLE. -/
theorem registersRead : Obligations.RegistersRead := by
  intro s
  refine ⟨?_, fun hidle => ?_⟩
  · exact ⟨State.hostRead_of_readableWhileBusy rfl, State.hostRead_of_readableWhileBusy rfl,
      State.hostRead_of_readableWhileBusy rfl, State.hostRead_of_readableWhileBusy rfl,
      State.hostRead_of_readableWhileBusy rfl, (State.hostRead_of_readableWhileBusy rfl).trans s.irqEnWord_eq⟩
  · simp only [State.hostRead_idle hidle]
    exact ⟨s.errRec.codeWord_toNat, rfl, rfl, rfl, rfl, rfl, zext_toNat (by decide) s.root,
      zext_toNat (by decide) s.nodeCount, zext_toNat (by decide) s.leafCount⟩

/-! ### Hidden storage -/

/-- The state with other contents of NODE and CODE. -/
def State.withStores (s : State) (node : Store Node) (code : Store Code) : State :=
  { s with mem := { s.mem with node := node, code := code } }

section

variable {s : State} {node : Store Node} {code : Store Code}

/-- The node window shows only the slots below NODE_COUNT (R72). -/
theorem State.nodeWindow_withStores (hnode : ∀ i, i < s.nodeCount.toNat → Store.read node i = Store.read s.mem.node i)
    (a : Addr) (i f : Nat) : (s.withStores node code).nodeWindow a i f = s.nodeWindow a i f := by
  by_cases hi : i < s.nodeCount.toNat
  · simp only [State.nodeWindow, State.withStores, hi, hnode i hi]
  · simp only [State.nodeWindow, State.withStores, hi, if_false]

/-- The code window shows CODE only while CODES_VALID = 1 (R73). -/
theorem State.codeWindow_withStores (hcode : s.codesValid = true → code = s.mem.code) (a : Addr) (sym w : Nat) :
    (s.withStores node code).codeLenWindow a sym = s.codeLenWindow a sym ∧
      (s.withStores node code).codeBitsWindow a sym w = s.codeBitsWindow a sym w := by
  cases hv : s.codesValid with
  | true => rw [hcode hv]; exact ⟨rfl, rfl⟩
  | false => simp [State.codeLenWindow, State.codeBitsWindow, State.withStores, hv]

end

/-- Settles O49: the node window is the only region that shows NODE, and the code window the only one that shows CODE. -/
theorem hiddenStorageIsInvisible : Obligations.HiddenStorageIsInvisible := by
  intro s node code hidle hnode hcode a
  change (s.withStores node code).hostRead a = s.hostRead a
  rw [State.hostRead_idle hidle, State.hostRead_idle (s := s.withStores node code) hidle]
  change (s.withStores node code).readRegion a (region s.params a) = s.readRegion a (region s.params a)
  cases region s.params a with
  | node i f => exact State.nodeWindow_withStores hnode a i f
  | codeLen sym => exact (State.codeWindow_withStores hcode a sym 0).1
  | codeBits sym w => exact (State.codeWindow_withStores hcode a sym w).2
  | _ => rfl

end Sys2Proof.Machine
end

section
/-! The word that is offered to CMD (R71, R100): its decoding, and that the next step runs it on the state as it
stood. -/

namespace Sys2Proof.Machine

/-- A bus word is the number that its 32 bits write (R105). -/
theorem ofNat_toNat_mod (w : Word) : BitVec.ofNat 32 (w.toNat % 2 ^ 32) = w := by
  rw [Nat.mod_eq_of_lt w.isLt, BitVec.ofNat_toNat, BitVec.setWidth_eq]

theorem decodeTableWord_toNat (w : Word) : decodeTableWord 32 w.toNat = some (decode w) := by
  have hlt : w.toNat % 2 ^ 32 < 2 ^ 32 := Nat.mod_lt _ (Nat.two_pow_pos 32)
  rw [decodeTableWord, decodeNat, if_pos hlt, ofNat_toNat_mod]

/-- Settles O6: the offered word is in the phase, its completion is due, and `rst` is 0. -/
theorem fetchedWordRunsNext : Obligations.FetchedWordRunsNext := by
  intro s w
  have hphase : (s.withFetchWord 32 w.toNat).phase = .busy (decode w) s.currentInputs := by
    rw [State.withFetchWord, ofNat_toNat_mod]
    rfl
  refine ⟨decodeTableWord_toNat w, State.inputs_busy hphase, ?_⟩
  have hrst : (s.withFetchWord 32 w.toNat).bus.rst = false := rfl
  have hleft : (s.withFetchWord 32 w.toNat).latencyLeft = 0 := rfl
  simp [step, hrst, hphase, hleft]

end Sys2Proof.Machine
end

section
/-! Reserved and read-only addresses, and access while a command runs (R66, R67, R70). -/

namespace Sys2Proof.Machine

/-! ### One address for each region -/

/-- The address of a region (R65); the reserved addresses, which share one region, have none. -/
def Region.address : Region → Nat
  | .id => 0x00
  | .version => 0x01
  | .cfgMsgDepth => 0x02
  | .cfgBitDepth => 0x03
  | .cmd => 0x04
  | .status => 0x05
  | .errCode => 0x06
  | .errPos => 0x07
  | .errInfo => 0x08
  | .irqEn => 0x09
  | .msgLen => 0x0C
  | .bitLen => 0x0D
  | .decLen => 0x0E
  | .root => 0x10
  | .nodeCount => 0x11
  | .leafCount => 0x12
  | .freq s => 0x100 + s
  | .codeLen s => 0x200 + s
  | .codeBits s w => 0x400 + 8 * s + w
  | .node i f => 0x1000 + 4 * i + f
  | .msg i => 0x10000 + i
  | .dec i => 0x20000 + i
  | .bits i => 0x40000 + i
  | .reserved => 0

theorem registerRegion_address (a : Nat) : registerRegion a = .reserved ∨ (registerRegion a).address = a := by
  unfold registerRegion
  split <;> simp [Region.address]

theorem windowRegion_address {a : Nat} (h : 0x100 ≤ a) :
    windowRegion a = .reserved ∨ (windowRegion a).address = a := by
  unfold windowRegion
  split_ifs <;> simp only [Region.address, true_or] <;> omega

theorem arrayRegion_address (p : Params) {a : Nat} (h : 0x10000 ≤ a) :
    arrayRegion p a = .reserved ∨ (arrayRegion p a).address = a := by
  unfold arrayRegion cellRegion
  split_ifs <;> simp only [Region.address, true_or] <;> omega

/-- An address that is not reserved is the address of its region. -/
theorem regionOf_address (p : Params) (a : Nat) : regionOf p a = .reserved ∨ (regionOf p a).address = a := by
  unfold regionOf
  split_ifs with h1 h2
  · exact registerRegion_address a
  · exact windowRegion_address (by omega)
  · exact arrayRegion_address p (by omega)

/-- Two addresses of one region are equal, unless they are reserved. -/
theorem region_injective {p : Params} {a b : Addr} (h : region p a = region p b) (hr : region p a ≠ .reserved) :
    a = b := by
  have ha : (region p a).address = a.toNat := (regionOf_address p a.toNat).resolve_left hr
  have hb : (region p b).address = b.toNat := (regionOf_address p b.toNat).resolve_left (by rwa [← region, ← h])
  exact BitVec.eq_of_toNat_eq (by rw [← ha, ← hb, h])

/-! ### Rejected writes -/

/-- A write to a read-only or a reserved address is rejected, in any phase (R66, R67, R70). -/
theorem State.hostWrite_rejected {s : State} {a : Addr}
    (h : (region s.params a).readOnly = true ∨ region s.params a = .reserved) (v : Word) :
    s.hostWrite a v = s.accessError := by
  rw [State.hostWrite]
  cases hr : region s.params a with
  | cmd | status | irqEn | msgLen | bitLen | freq _ | msg _ | bits _ => simp [hr, Region.readOnly] at h
  | _ => exact ite_self _

/-- Settles O43: a reserved address of R65 is one whose region is `reserved`. -/
theorem reservedAddresses : Obligations.ReservedAddresses := by
  intro s a v h
  have hr : region s.params a = .reserved := (regionOf_reserved_iff _ _).mpr h
  refine ⟨?_, State.hostWrite_rejected (.inr hr) v⟩
  rw [State.hostRead_of_readableWhileBusy (by rw [hr]; rfl), hr]
  rfl

/-- Settles O44: a read-only address of R65 is one whose region is read-only. -/
theorem readOnlyAddresses : Obligations.ReadOnlyAddresses := by
  refine ⟨fun s a v hlegal h => ?_, fun s => ⟨?_, fun v h => ?_, State.hostRead_of_readableWhileBusy rfl⟩⟩
  · exact State.hostWrite_rejected (.inl ((regionOf_readOnly_iff hlegal.2.1 _).mpr h)) v
  · simp [Params.readOnly, addrSTATUS]
  · rw [State.hostWrite_status, State.writeStatus_eq] at h
    exact (Bool.and_eq_true_iff.mp h).1

/-! ### Access while a command runs -/

/-- A write to IRQ_EN stores bit 0 in any phase (R69, R70). -/
theorem State.hostWrite_irqEn (s : State) (v : Word) : s.hostWrite addrIRQEN v = { s with doneIE := v.getLsbD 0 } := by
  rw [State.hostWrite, region_irqEn]
  split <;> rfl

/-- While a command runs, only STATUS and IRQ_EN take a write (R70). -/
theorem State.hostWrite_busy_rejected {s : State} {op : Instr} {x : Inputs} (h : s.phase = .busy op x) {a : Addr}
    (hstatus : a ≠ addrSTATUS) (hirqEn : a ≠ addrIRQEN) (v : Word) : s.hostWrite a v = s.accessError := by
  rw [State.hostWrite_busy h]
  cases hr : region s.params a with
  | status => exact absurd (region_eq_status hr) hstatus
  | irqEn => exact absurd (region_injective (hr.trans region_irqEn.symm) (by simp [hr])) hirqEn
  | _ => rfl

/-- STATUS and IRQ_EN take a write as in IDLE (R70). -/
theorem State.hostWrite_eq_idle (s : State) {a : Addr} (h : a = addrSTATUS ∨ a = addrIRQEN) (v : Word) :
    s.hostWrite a v = { ({ s with phase := .idle } : State).hostWrite a v with phase := s.phase } := by
  rcases h with rfl | rfl
  · rw [State.hostWrite_status, State.hostWrite_status, State.writeStatus_eq, State.writeStatus_eq]
  · rw [State.hostWrite_irqEn, State.hostWrite_irqEn]

theorem registerRegion_readableWhileBusy_iff (a : Nat) :
    (registerRegion a).readableWhileBusy = true ↔ a ≤ 5 ∨ a = 9 ∨ registerRegion a = .reserved := by
  unfold registerRegion
  split <;> simp [Region.readableWhileBusy]

/-- Above the registers only reserved addresses read true while a command runs. -/
theorem regionOf_readableWhileBusy_iff_of_le {p : Params} {a : Nat} (h : 0x100 ≤ a) :
    (regionOf p a).readableWhileBusy = true ↔ regionOf p a = .reserved := by
  unfold regionOf windowRegion arrayRegion cellRegion
  split_ifs
  · omega
  all_goals simp [Region.readableWhileBusy]

/-- The addresses that R70 lists. -/
theorem region_readableWhileBusy_iff (p : Params) (a : Addr) :
    (region p a).readableWhileBusy = true ↔ a.toNat ≤ 5 ∨ a.toNat = 9 ∨ p.reserved a.toNat := by
  rw [← regionOf_reserved_iff, region]
  by_cases h : a.toNat < 0x100
  · rw [regionOf, if_pos h, registerRegion_readableWhileBusy_iff]
  · rw [regionOf_readableWhileBusy_iff_of_le (by omega)]
    exact ⟨fun hr => .inr (.inr hr), fun hr => (hr.resolve_left (by omega)).resolve_left (by omega)⟩

/-- Of the registers that R70 lists only STATUS shows the phase (R27). -/
theorem State.readRegion_idle_of_readableWhileBusy (s : State) (a : Addr) {r : Region}
    (h : r.readableWhileBusy = true) (hr : r ≠ .status) :
    s.readRegion a r = { s with phase := .idle }.readRegion a r := by
  cases r with
  | status => exact absurd rfl hr
  | id | version | cfgMsgDepth | cfgBitDepth | irqEn | cmd | reserved => rfl
  | _ => simp [Region.readableWhileBusy] at h

theorem toNat_append_ofBool {n : Nat} (x : BitVec n) (b : Bool) :
    (x ++ BitVec.ofBool b).toNat = 2 * x.toNat + b.toNat := by
  rw [BitVec.toNat_append, ← Nat.shiftLeft_add_eq_or_of_lt (BitVec.isLt _), Nat.shiftLeft_eq, BitVec.toNat_ofBool]
  omega

/-- BUSY is bit 0 of STATUS, above it stand the flags (R27). -/
theorem State.statusWord_toNat (s : State) :
    s.statusWord.toNat = 2 * (BitVec.ofBool s.accErr ++ BitVec.ofBool s.codesValid ++ BitVec.ofBool s.treeValid ++
      BitVec.ofBool s.err ++ BitVec.ofBool s.done).toNat + s.isBusy.toNat := by
  rw [State.statusWord, zext_toNat (by decide), toNat_append_ofBool]

theorem State.hostRead_status_busy {s : State} {op : Instr} {x : Inputs} (h : s.phase = .busy op x) :
    (s.hostRead addrSTATUS).toNat = (({ s with phase := .idle } : State).hostRead addrSTATUS).toNat + 1 := by
  have hbusy : s.isBusy = true := State.isBusy_iff.mpr (by simp [h])
  rw [State.hostRead_status, State.hostRead_status, State.statusWord_toNat, State.statusWord_toNat, hbusy]
  rfl

/-- Settles O45, by the two registers that take a write and the list of those that read true. -/
theorem accessWhileBusy : Obligations.AccessWhileBusy := by
  intro s op x h
  refine ⟨fun a v hstatus hirqEn => State.hostWrite_busy_rejected h hstatus hirqEn v, ?_, fun a ha => ?_, ?_,
    fun a ha => ?_⟩
  · exact fun a v ha => s.hostWrite_eq_idle ha v
  · have hreadable : (region s.params a).readableWhileBusy = true :=
      (region_readableWhileBusy_iff _ _).mpr (ha.imp_left Nat.le_succ_of_le)
    have hne : region s.params a ≠ .status := by
      intro hr
      have h5 : a.toNat = 5 := by rw [region_eq_status hr]; rfl
      unfold Params.reserved at ha
      omega
    rw [State.hostRead_of_readableWhileBusy hreadable, State.hostRead_idle rfl]
    exact s.readRegion_idle_of_readableWhileBusy a hreadable hne
  · exact State.hostRead_status_busy h
  · have hhidden : (region s.params a).readableWhileBusy = false :=
      Bool.eq_false_iff.mpr fun hr => ha ((region_readableWhileBusy_iff _ _).mp hr)
    rw [State.hostRead, State.isBusy_iff.mpr (by simp [h]), hhidden]
    rfl

end Sys2Proof.Machine
end

section
/-! What a stored write leaves, and what the host reads in the arrays and the windows (R63, R69, R72 to R74). -/

namespace Sys2Proof.Machine

/-! ### Writes that are stored -/

/-- The regions whose write in IDLE stores a word or a byte and does nothing else (R69). -/
def Region.stores : Region → Bool
  | .irqEn | .msgLen | .bitLen | .freq _ | .msg _ | .bits _ => true
  | _ => false

theorem region_of_freq_range {p : Params} {a : Addr} (h : 0x100 ≤ a.toNat ∧ a.toNat < 0x200) :
    region p a = .freq (a.toNat - 0x100) := by
  obtain ⟨k, hk⟩ := Nat.exists_eq_add_of_le h.1
  rw [region, hk, regionOf_freq (by omega), Nat.add_sub_cancel_left]

theorem region_of_msg_range {p : Params} (hlegal : p.legal) {a : Addr}
    (h : 0x10000 ≤ a.toNat ∧ a.toNat < 0x10000 + p.msgDepth) : region p a = .msg (a.toNat - 0x10000) := by
  obtain ⟨i, hi⟩ := Nat.exists_eq_add_of_le h.1
  have hdepth : p.msgDepth ≤ 0x10000 := hlegal.2.1
  rw [region, hi, regionOf_msg (by omega) (by omega), Nat.add_sub_cancel_left]

theorem region_of_bits_range {p : Params} {a : Addr} (h : 0x40000 ≤ a.toNat ∧ a.toNat < 0x40000 + p.bitDepth) :
    region p a = .bits (a.toNat - 0x40000) := by
  obtain ⟨i, hi⟩ := Nat.exists_eq_add_of_le h.1
  rw [region, hi, regionOf_bits (by omega), Nat.add_sub_cancel_left]

/-- The addresses of the stored regions (R65). -/
theorem region_stores_of_address {p : Params} (hlegal : p.legal) {a : Addr}
    (h : (0x100 ≤ a.toNat ∧ a.toNat < 0x200) ∨ a = addrMSGLEN ∨ a = addrBITLEN ∨ a = addrIRQEN ∨
      (0x10000 ≤ a.toNat ∧ a.toNat < 0x10000 + p.msgDepth) ∨
      (0x40000 ≤ a.toNat ∧ a.toNat < 0x40000 + p.bitDepth)) :
    (region p a).stores = true := by
  rcases h with h | rfl | rfl | rfl | h | h
  · rw [region_of_freq_range h]; rfl
  · rfl
  · rfl
  · rfl
  · rw [region_of_msg_range hlegal h]; rfl
  · rw [region_of_bits_range h]; rfl

section

variable {s : State} {r : Region}

/-- A stored write changes MSG_LEN, BIT_LEN, IRQ_EN, FREQ, MSG or BITS, and nothing else (R69). -/
theorem State.writeRegion_frame (s : State) (v : Word) (h : r.stores = true) :
    s.writeRegion v r =
      { s with
        msgLen := (s.writeRegion v r).msgLen, bitLen := (s.writeRegion v r).bitLen
        doneIE := (s.writeRegion v r).doneIE
        mem := { s.mem with
                 freq := (s.writeRegion v r).mem.freq, msg := (s.writeRegion v r).mem.msg
                 bits := (s.writeRegion v r).mem.bits } } := by
  cases r with
  | irqEn | msgLen | bitLen | freq _ | msg _ | bits _ => rfl
  | _ => simp [Region.stores] at h

/-- After a stored write every other region reads as before (R69). -/
theorem State.readRegion_writeRegion_other (s : State) (v : Word) (h : r.stores = true) {r' : Region} (hne : r' ≠ r)
    (b : Addr) : (s.writeRegion v r).readRegion b r' = s.readRegion b r' := by
  cases r with
  | irqEn => cases r' with
    | irqEn => exact absurd rfl hne
    | _ => rfl
  | msgLen => cases r' with
    | msgLen => exact absurd rfl hne
    | _ => rfl
  | bitLen => cases r' with
    | bitLen => exact absurd rfl hne
    | _ => rfl
  | freq i => cases r' with
    | freq j => exact congrArg (s.readElement b) (Store.read_write_other _ _ fun e => hne (by rw [e]))
    | _ => rfl
  | msg i => cases r' with
    | msg j => exact congrArg (s.readElement b) (Store.read_write_other _ _ fun e => hne (by rw [e]))
    | _ => rfl
  | bits i => cases r' with
    | bits j => exact congrArg (s.readElement b) (Store.read_write_other _ _ fun e => hne (by rw [e]))
    | _ => rfl
  | _ => simp [Region.stores] at h

/-- A read after a stored write shows the region of its address in the state that the write left. -/
theorem State.hostRead_hostWrite_stored {a : Addr} (hidle : s.phase = .idle) (h : (region s.params a).stores = true)
    (v : Word) (b : Addr) :
    (s.hostWrite a v).hostRead b = (s.writeRegion v (region s.params a)).readRegion b (region s.params b) := by
  have hframe := s.writeRegion_frame v h
  have hphase : (s.writeRegion v (region s.params a)).phase = .idle := (congrArg State.phase hframe).trans hidle
  have hparams : (s.writeRegion v (region s.params a)).params = s.params := (congrArg State.params hframe :)
  rw [State.hostWrite_idle hidle, State.hostRead_idle hphase, hparams]

end

/-! ### What a stored write reads back as -/

/-- A word element reads as itself (R63). -/
theorem State.readElement_word (s : State) (a : Addr) (v : Word) : s.readElement a (some v) = v :=
  BitVec.eq_of_toNat_eq (s.readElement_some (Nat.le_refl 32) a v)

/-- The low byte of a word, read as an element, is the word modulo 256 (R63). -/
theorem State.readElement_lowByte (s : State) (a : Addr) (v : Word) :
    (s.readElement a (some (v.setWidth 8))).toNat = v.toNat % 256 := by
  rw [s.readElement_some (by decide), BitVec.toNat_setWidth]

theorem State.readRegion_writeRegion_freq (s : State) (v : Word) (a : Addr) (i : Nat) :
    (s.writeRegion v (.freq i)).readRegion a (.freq i) = v :=
  (congrArg (s.readElement a) (Store.read_write_same s.mem.freq i v)).trans (s.readElement_word a v)

theorem State.readRegion_writeRegion_msg (s : State) (v : Word) (a : Addr) (i : Nat) :
    ((s.writeRegion v (.msg i)).readRegion a (.msg i)).toNat = v.toNat % 256 := by
  rw [← s.readElement_lowByte a, ← Store.read_write_same s.mem.msg i (v.setWidth 8)]
  rfl

theorem State.readRegion_writeRegion_bits (s : State) (v : Word) (a : Addr) (i : Nat) :
    ((s.writeRegion v (.bits i)).readRegion a (.bits i)).toNat = v.toNat % 256 := by
  rw [← s.readElement_lowByte a, ← Store.read_write_same s.mem.bits i (v.setWidth 8)]
  rfl

theorem State.readRegion_writeRegion_irqEn (s : State) (v : Word) (a : Addr) :
    ((s.writeRegion v .irqEn).readRegion a .irqEn).toNat = v.toNat % 2 := by
  change (zext (BitVec.ofBool (v.getLsbD 0))).toNat = v.toNat % 2
  rw [zext_toNat (by decide), BitVec.toNat_ofBool, BitVec.getLsbD, Nat.toNat_testBit, Nat.pow_zero, Nat.div_one]

/-- Settles O46: the element of a stored write reads back as it was stored, and no other address is of its region. -/
theorem writesStoreAndReadBack : Obligations.WritesStoreAndReadBack := by
  refine ⟨State.hostWrite_irqEn, fun s a v hidle hlegal => ⟨fun h => ?_, fun h => ?_, fun h => ?_, fun h => ?_⟩⟩
  · rw [State.hostRead_hostWrite_stored hidle
      (region_stores_of_address hlegal (h.imp_right fun h => h.imp_right .inl))]
    rcases h with h | rfl | rfl
    · rw [region_of_freq_range h, State.readRegion_writeRegion_freq]
    · rfl
    · rfl
  · rw [State.hostRead_hostWrite_stored hidle (region_stores_of_address hlegal (.inr (.inr (.inr (.inr h)))))]
    rcases h with h | h
    · rw [region_of_msg_range hlegal h, State.readRegion_writeRegion_msg]
    · rw [region_of_bits_range h, State.readRegion_writeRegion_bits]
  · rw [State.hostRead_hostWrite_stored hidle (region_stores_of_address hlegal (.inr (.inr (.inr (.inl h)))))]
    subst h
    exact s.readRegion_writeRegion_irqEn v _
  · have hstores : (region s.params a).stores = true := region_stores_of_address hlegal h
    refine ⟨fun b hb => ?_, ?_⟩
    · have hne : region s.params b ≠ region s.params a := fun e =>
        hb (region_injective e.symm fun hr => by simp [hr, Region.stores] at hstores).symm
      rw [State.hostRead_hostWrite_stored hidle hstores, s.readRegion_writeRegion_other v hstores hne,
        State.hostRead_idle hidle]
    · rw [State.hostWrite_idle hidle]
      exact s.writeRegion_frame v hstores

/-! ### The arrays and the windows -/

/-- Settles O59: in IDLE a read of a cell inside its array shows the element, or a value of its width. -/
theorem arraysRead : Obligations.ArraysRead := by
  intro s hidle hlegal
  have hmsg : s.params.msgDepth ≤ 0x10000 := hlegal.2.1
  have hbits : s.params.bitDepth ≤ 0x40000 := hlegal.2.2.2
  have readMSG : ∀ i, i < s.params.msgDepth →
      s.hostRead (addrMSG i) = s.readElement (addrMSG i) (Store.read s.mem.msg i) :=
    fun i hi => by rw [State.hostRead_idle hidle, region_addrMSG hi (by omega)]; rfl
  have readDEC : ∀ i, i < s.params.msgDepth →
      s.hostRead (addrDEC i) = s.readElement (addrDEC i) (Store.read s.mem.dec i) :=
    fun i hi => by rw [State.hostRead_idle hidle, region_addrDEC hi (by omega)]; rfl
  have readBITS : ∀ i, i < s.params.bitDepth →
      s.hostRead (addrBITS i) = s.readElement (addrBITS i) (Store.read s.mem.bits i) :=
    fun i hi => by rw [State.hostRead_idle hidle, region_addrBITS hi (by omega)]; rfl
  refine ⟨fun c f hf => ?_, fun i hi => ?_, fun i hi => ?_⟩
  · rw [State.hostRead_idle hidle, region_addrFREQ, State.readRegion, hf, State.readElement_word]
  · rw [readMSG i hi, readDEC i hi]
    exact ⟨fun b h => by rw [h, s.readElement_some (by decide)], fun b h => by rw [h, s.readElement_some (by decide)],
      fun h => by rw [h]; exact s.readElement_none _, fun h => by rw [h]; exact s.readElement_none _⟩
  · rw [readBITS i hi]
    exact ⟨fun b h => by rw [h, s.readElement_some (by decide)], fun h => by rw [h]; exact s.readElement_none _⟩

theorem region_addrNODE {p : Params} {i f : Nat} (h : i < 512) (hf : f < 4) : region p (addrNODE i f) = .node i f := by
  have ha : (addrNODE i f).toNat = 0x1000 + 4 * i + f := by simp [addrNODE]; omega
  rw [region, ha, regionOf_node h hf]

theorem region_addrCODELEN {p : Params} (c : Byte) : region p (addrCODELEN c) = .codeLen c.toNat := by
  have hc := c.isLt
  have ha : (addrCODELEN c).toNat = 0x200 + c.toNat := by simp [addrCODELEN]; omega
  rw [region, ha, regionOf_codeLen hc]

theorem region_addrCODEBITS {p : Params} (c : Byte) {w : Nat} (h : w < 8) :
    region p (addrCODEBITS c w) = .codeBits c.toNat w := by
  have hc := c.isLt
  have ha : (addrCODEBITS c w).toNat = 0x400 + 8 * c.toNat + w := by simp [addrCODEBITS]; omega
  rw [region, ha, regionOf_codeBits hc h]

/-- Word 1 of a node record is 256 LEAF + SYM (R72). -/
theorem Node.word_one_toNat (nd : Node) : (nd.word 1).toNat = (if nd.leaf then 256 else 0) + nd.sym.toNat := by
  have hword : nd.word 1 = zext (BitVec.ofBool nd.leaf ++ nd.sym) := rfl
  rw [hword, zext_toNat (by decide), BitVec.toNat_append, ← Nat.shiftLeft_add_eq_or_of_lt nd.sym.isLt]
  cases nd.leaf <;> rfl

/-- In IDLE a read of the node window shows the record of a slot below NODE_COUNT, and an empty slot above (R72). -/
theorem State.hostRead_addrNODE {s : State} (hidle : s.phase = .idle) {i f : Nat} (hi : i < 512) (hf : f < 4) :
    (∀ nd, i < s.nodeCount.toNat → Store.read s.mem.node i = some nd → s.hostRead (addrNODE i f) = nd.word f) ∧
    (s.nodeCount.toNat ≤ i → s.hostRead (addrNODE i f) = emptyNodeWord f) := by
  rw [State.hostRead_idle hidle, region_addrNODE hi hf, State.readRegion, State.nodeWindow]
  refine ⟨fun nd hlt hnd => ?_, fun hle => if_neg (by omega)⟩
  rw [if_pos hlt, hnd]

/-- Settles O47, word by word. -/
theorem nodeWindow : Obligations.NodeWindow := by
  intro s i hidle hi
  have read := fun f (hf : f < 4) => State.hostRead_addrNODE hidle hi hf
  refine ⟨fun nd hlt hnd => ?_, fun hle => ?_⟩
  · rw [(read 0 (by decide)).1 nd hlt hnd, (read 1 (by decide)).1 nd hlt hnd, (read 2 (by decide)).1 nd hlt hnd,
      (read 3 (by decide)).1 nd hlt hnd]
    exact ⟨rfl, nd.word_one_toNat, zext_toNat (by decide) nd.left, zext_toNat (by decide) nd.right⟩
  · exact ⟨(read 0 (by decide)).2 hle, (read 1 (by decide)).2 hle, (read 2 (by decide)).2 hle,
      (read 3 (by decide)).2 hle⟩

/-- Bit `b` of word `w` of the code window is code bit `32 w + b`, 0 beyond the code (R73). -/
theorem Code.word_getLsbD (c : Code) (w : Nat) {b : Nat} (hb : b < 32) :
    (c.word w).getLsbD b = c.bits.getD (32 * w + b) false := by
  rw [Code.word, BitVec.getLsbD_setWidth, BitVec.getLsbD_ofBoolListLE, List.getD_eq_getElem?_getD,
    List.getElem?_take_of_lt hb, List.getElem?_drop, ← List.getD_eq_getElem?_getD]
  simp [hb]

/-- Settles O48: with CODES_VALID = 1 the windows show the code's record, else 0. -/
theorem codeWindow : Obligations.CodeWindow := by
  intro s c hidle
  have readLen : s.hostRead (addrCODELEN c) = s.codeLenWindow (addrCODELEN c) c.toNat := by
    rw [State.hostRead_idle hidle, region_addrCODELEN]; rfl
  have readBits : ∀ w, w < 8 → s.hostRead (addrCODEBITS c w) = s.codeBitsWindow (addrCODEBITS c w) c.toNat w :=
    fun w hw => by rw [State.hostRead_idle hidle, region_addrCODEBITS c hw]; rfl
  refine ⟨fun code hvalid hread hlen => ⟨?_, fun w b hw hb => ?_⟩, fun hinvalid => ⟨?_, fun w hw => ?_⟩⟩
  · rw [readLen, State.codeLenWindow, if_pos hvalid, hread]
    change (zext (BitVec.ofNat 8 code.bits.length)).toNat = _
    rw [zext_toNat (by decide), BitVec.toNat_ofNat, Nat.mod_eq_of_lt (by omega)]
  · rw [readBits w hw, State.codeBitsWindow, if_pos hvalid, hread]
    exact code.word_getLsbD w hb
  · rw [readLen, State.codeLenWindow, hinvalid]
    rfl
  · rw [readBits w hw, State.codeBitsWindow, hinvalid]
    rfl

end Sys2Proof.Machine
end

section
/-! The bus handshake (R60, R61, R62, R68): an access takes effect on the edge of its `ack`, every request is
acknowledged, and after its `ack` it is dropped. -/

namespace Sys2Proof.Machine

/-! ### The edge of an `ack` -/

/-- The ports while a request waits for its acknowledge (R60). -/
def Bus.waiting (acc : Access) : Bus := { rst := false, request := some acc, ack := false, rdata := none }

/-- The ports on which a request waits, once the last cycle is over. -/
theorem State.quiet_bus_waiting {s : State} {acc : Access} (hrst : s.bus.rst = false)
    (hreq : s.outstanding = some acc) : s.quiet.bus = Bus.waiting acc := by
  simp [Bus.waiting, hrst, hreq]

/-- The state in which the host's part of an edge begins while the request `acc` waits, with `l` edges left for a running
command. -/
def State.waiting (s : State) (acc : Access) (l : Nat) : State := { s with bus := Bus.waiting acc, latencyLeft := l }

/-- The host's part of an edge over a waiting request starts from the state without the last cycle's ports. -/
theorem step_edge_waiting {s : State} {acc : Access} (hrun : s.phase = .idle ∨ s.latencyLeft ≠ 0)
    (hrst : s.bus.rst = false) (hreq : s.outstanding = some acc) :
    ∃ l, step s = .next (s.waiting acc l).hostEdge ∧
      (s.phase = .idle → l = s.latencyLeft) ∧ (s.phase ≠ .idle → l + 1 = s.latencyLeft) := by
  obtain ⟨l, hstep, hl⟩ := step_edge hrun hrst
  have hquiet : ({ s.quiet with latencyLeft := l } : State) = s.waiting acc l :=
    congrArg (fun b => { s with bus := b, latencyLeft := l }) (State.quiet_bus_waiting hrst hreq)
  exact ⟨l, by rw [hstep, hquiet], hl⟩

/-- The edge on which a waiting request is not yet due brings it one edge nearer. -/
theorem State.hostEdge_wait {s : State} {acc : Access} {n : Nat} (h : s.bus.request = some acc)
    (hleft : s.ackLeft = n + 1) : s.hostEdge = { s with ackLeft := n } := by
  rw [State.hostEdge, h]
  simp [hleft]

/-- What a write does to the state depends neither on the ports nor, while a command runs, on the command's wait; and it
touches the wait only in IDLE, when it is an accepted command. -/
theorem State.hostWrite_surroundings (s : State) (b : Bus) {l : Nat} (hl : s.phase = .idle → l = s.latencyLeft)
    (a : Addr) (v : Word) :
    ({ s with bus := b, latencyLeft := l } : State).hostWrite a v =
      { s.hostWrite a v with
        bus := b, latencyLeft := if s.phase = .idle then (s.hostWrite a v).latencyLeft else l } := by
  rcases s.phase_cases with h | ⟨op, x, h⟩
  · obtain rfl := hl h
    rw [if_pos h, State.hostWrite_idle h, State.hostWrite_idle (by exact h)]
    change ({ s with bus := b } : State).writeRegion v (region s.params a) = _
    cases region s.params a with
    | status => simp only [State.writeRegion, State.writeStatus_eq]
    | _ => rfl
  · rw [if_neg (by simp [h]), State.hostWrite_busy h, State.hostWrite_busy (op := op) (x := x) (by exact h)]
    change ({ s with bus := b, latencyLeft := l } : State).writeRegionBusy v (region s.params a) = _
    cases region s.params a with
    | status => simp only [State.writeRegionBusy, State.writeStatus_eq]
    | _ => rfl

/-- A read in IDLE shows nothing of the ports, the host's program or the model's counters. -/
theorem State.hostRead_of_block {s t : State} (h : t.block = s.block) (hidle : s.phase = .idle) (a : Addr) :
    t.hostRead a = s.hostRead a := by
  have hphase : t.phase = s.phase := (congrArg State.phase h :)
  have hparams : t.params = s.params := (congrArg State.params h :)
  have hblock : ∀ u : State, ∀ r, u.readRegion a r = u.block.readRegion a r := fun u r => by cases r <;> rfl
  rw [State.hostRead_idle hidle, State.hostRead_idle (hphase.trans hidle), hparams, hblock t, h, ← hblock s]

/-- Settles O50: the edge acknowledges the access, and neither the write's effect nor the value read depends on the ports
or on the running command's wait. -/
theorem accessTakesEffectAtAck : Obligations.AccessTakesEffectAtAck := by
  intro s hrst hrun hack
  refine ⟨fun a v hreq => ?_, fun a hreq => ?_⟩
  · obtain ⟨l, hstep, hidle, hbusy⟩ := step_edge_waiting hrun hrst hreq
    rw [State.hostEdge_ack (s := s.waiting _ l) rfl hack, State.acknowledge, State.waiting,
      s.hostWrite_surroundings _ hidle] at hstep
    exact ⟨_, hstep, rfl, fun h => if_pos h, fun h => (congrArg (· + 1) (if_neg h)).trans (hbusy h)⟩
  · obtain ⟨l, hstep, -, -⟩ := step_edge_waiting hrun hrst hreq
    rw [State.hostEdge_ack (s := s.waiting _ l) rfl hack] at hstep
    exact ⟨_, hstep, rfl, fun hidle => State.hostRead_of_block (by rfl) hidle a⟩

/-! ### From the request to its `ack` -/

/-- The host holds the request `acc`, which waits for its acknowledge, and `rst` is 0. -/
structure Held (acc : Access) (s : State) : Prop where
  rst : s.bus.rst = false
  waits : s.outstanding = some acc

/-- A completion changes neither the ports nor the wait of a request. -/
theorem exec_keeps_request {i : Instr} {s t : State} (h : exec i s = .next t) :
    t.bus = s.bus ∧ t.ackLeft = s.ackLeft := by
  rcases exec_next h with ⟨_, rfl⟩ | ⟨_, rfl⟩ | ⟨_, rfl⟩ | ⟨_, _, _, rfl⟩ | ⟨_, _, _, rfl⟩ | ⟨_, _, _, rfl⟩ |
    ⟨_, _, _, rfl⟩ <;> exact ⟨rfl, rfl⟩

theorem State.acknowledge_bus (s : State) (acc : Access) :
    (s.acknowledge acc).bus.request = s.bus.request ∧ (s.acknowledge acc).bus.ack = true := by
  cases acc <;> exact ⟨rfl, rfl⟩

section

variable {acc : Access} {s : State}

theorem Held.of_bus (h : s.bus = Bus.waiting acc) : Held acc s :=
  ⟨by rw [h]; rfl, by rw [State.outstanding, h]; rfl⟩

/-- One edge over a request: the run faults; the request is acknowledged; it comes one edge nearer to that; or a
completion comes first, after which the block is idle. -/
theorem Held.step_cases (h : Held acc s) :
    (∃ f, step s = .fault f) ∨
    ∃ t, step s = .next t ∧
      ((t.bus.request = some acc ∧ t.bus.ack = true) ∨
       (Held acc t ∧ t.phase = s.phase ∧ t.ackLeft + 1 = s.ackLeft) ∨
       (Held acc t ∧ s.phase ≠ .idle ∧ t.phase = .idle ∧ t.ackLeft = s.ackLeft)) := by
  by_cases hrun : s.phase = .idle ∨ s.latencyLeft ≠ 0
  · obtain ⟨l, hstep, -⟩ := step_edge_waiting hrun h.rst h.waits
    cases hleft : s.ackLeft with
    | zero =>
      rw [State.hostEdge_ack (s := s.waiting acc l) rfl hleft] at hstep
      exact .inr ⟨_, hstep, .inl (State.acknowledge_bus _ acc)⟩
    | succ n =>
      rw [State.hostEdge_wait (s := s.waiting acc l) rfl hleft] at hstep
      exact .inr ⟨_, hstep, .inr (.inl ⟨.of_bus rfl, rfl, rfl⟩)⟩
  · obtain ⟨hphase, hleft⟩ : s.phase ≠ .idle ∧ s.latencyLeft = 0 := by simpa using hrun
    obtain ⟨op, x, hbusy⟩ := s.phase_cases.resolve_left hphase
    have hstep : step s = exec op s.quiet := by simp [step, h.rst, hbusy, hleft]
    cases hexec : exec op s.quiet with
    | next t =>
      obtain ⟨hkeep, hack⟩ := exec_keeps_request hexec
      have ht : Held acc t := .of_bus (hkeep.trans (State.quiet_bus_waiting h.rst h.waits))
      exact .inr ⟨t, hstep.trans hexec, .inr (.inr ⟨ht, hphase, (exec_idle_done hexec).1, hack⟩)⟩
    | fault f => exact .inl ⟨f, hstep.trans hexec⟩
    | refused q => exact absurd hexec exec_not_refused

/-- Within `n` steps from `s` the run faults, or `acc` is acknowledged and is held unchanged up to then (R61). -/
def AcknowledgedWithin (acc : Access) (n : Nat) (s : State) : Prop :=
  (∃ f, Host.Core.run Sys2Proof.core n s = .fault f) ∨
  ∃ k u, k ≤ n ∧ Host.Core.run Sys2Proof.core k s = .next u ∧ u.bus.ack = true ∧ u.bus.request = some acc ∧
    ∀ j v, j < k → Host.Core.run Sys2Proof.core j s = .next v → v.bus.request = some acc ∧ v.bus.ack = false

theorem AcknowledgedWithin.of_ack {n : Nat} (hreq : s.bus.request = some acc) (hack : s.bus.ack = true) :
    AcknowledgedWithin acc n s :=
  .inr ⟨0, s, Nat.zero_le n, rfl, hack, hreq, fun _ _ hj => absurd hj (Nat.not_lt_zero _)⟩

theorem AcknowledgedWithin.of_step {n : Nat} {t : State} (h : Held acc s) (hstep : step s = .next t)
    (ht : AcknowledgedWithin acc n t) : AcknowledgedWithin acc (n + 1) s := by
  rcases ht with ⟨f, hf⟩ | ⟨k, u, hk, hrun, hack, hreq, hbefore⟩
  · exact .inl ⟨f, (run_next hstep).trans hf⟩
  · refine .inr ⟨k + 1, u, Nat.succ_le_succ hk, (run_next hstep).trans hrun, hack, hreq, fun j v hj hv => ?_⟩
    cases j with
    | zero =>
      obtain rfl : s = v := Host.Outcome.next.inj hv
      exact State.outstanding_eq_some.mp h.waits
    | succ j => exact hbefore j v (Nat.lt_of_succ_lt_succ hj) ((run_next hstep).symm.trans hv)

/-- The wait of a request and one edge suffice in IDLE, and one edge more while a command runs, whose completion may come
first. -/
theorem Held.acknowledgedWithin {n : Nat} (h : Held acc s) (hn : s.ackLeft < n)
    (hbusy : s.phase = .idle ∨ s.ackLeft + 1 < n) : AcknowledgedWithin acc n s := by
  induction n generalizing s with
  | zero => exact absurd hn (Nat.not_lt_zero _)
  | succ n ih =>
    rcases h.step_cases with ⟨f, hf⟩ | ⟨t, hstep, ⟨hreq, hack⟩ | ⟨ht, hphase, hleft⟩ | ⟨ht, hs, hidle, hleft⟩⟩
    · exact .inl ⟨f, run_fault hf⟩
    · exact .of_step h hstep (.of_ack hreq hack)
    · exact .of_step h hstep (ih ht (by omega) (by rw [hphase]; exact hbusy.imp_right fun _ => by omega))
    · exact .of_step h hstep (ih ht (by have := hbusy.resolve_left hs; omega) (.inl hidle))

end

/-! ### After the `ack` -/

/-- The host's edge with no request outstanding leaves none, or that of the program's next line. -/
theorem State.hostEdge_of_no_request {s : State} (hreq : s.bus.request = none) (hack : s.bus.ack = false) :
    s.hostEdge.bus.ack = false ∧ (s.hostEdge.bus.request = none ∨
      ∃ op rest acc, s.program = op :: rest ∧ op.access = some acc ∧ s.hostEdge.bus.request = some acc) := by
  rcases s.hostEdge_cases with e | ⟨op, acc, rest, -, hprog, hacc, e⟩ | ⟨_, -, -, -, e⟩ | ⟨_, _, -, -, e⟩ |
    ⟨_, hsome, -, -⟩ | ⟨_, hsome, -, -⟩
  · rw [e]; exact ⟨hack, .inl hreq⟩
  · rw [e]; exact ⟨hack, .inr ⟨op, rest, acc, hprog, hacc, rfl⟩⟩
  · rw [e]; exact ⟨hack, .inl hreq⟩
  · rw [e]; exact ⟨hack, .inl hreq⟩
  · simp [hreq] at hsome
  · simp [hreq] at hsome

/-- The cycle after an `ack` has `ack` = 0, and the request is dropped or is that of the program's next line (R61). -/
theorem step_after_ack {u t : State} (hack : u.bus.ack = true) (h : step u = .next t) :
    t.bus.ack = false ∧ (t.bus.request = none ∨
      ∃ op rest acc, u.program = op :: rest ∧ op.access = some acc ∧ t.bus.request = some acc) := by
  have hnone : u.outstanding = none := by rw [State.outstanding, hack]; rfl
  rcases step_next h with ⟨-, rfl⟩ | ⟨-, -, rfl⟩ | ⟨-, op, x, -, -, hexec⟩ | ⟨-, op, x, -, -, rfl⟩
  · exact ⟨rfl, .inl rfl⟩
  · exact State.hostEdge_of_no_request (s := u.quiet) hnone rfl
  · rw [(exec_keeps_request hexec).1]
    exact ⟨rfl, .inl hnone⟩
  · exact State.hostEdge_of_no_request (s := { u.quiet with latencyLeft := u.latencyLeft - 1 }) hnone rfl

/-- Settles O51, by the request's way to its `ack` and the step after it. -/
theorem everyRequestIsAcknowledged : Obligations.EveryRequestIsAcknowledged := by
  intro s acc hreq hrst
  have held : Held acc s := ⟨hrst, hreq⟩
  have hwithin : AcknowledgedWithin acc (s.ackLeft + 2) s :=
    held.acknowledgedWithin (by omega) (.inr (by omega))
  rcases hwithin with hfault | ⟨k, u, hk, hrun, hack, hacc, hbefore⟩
  · exact .inl hfault
  · exact .inr ⟨k, u, hk, hrun, hack, hacc, hbefore, fun t ht => step_after_ack hack ht⟩

end Sys2Proof.Machine
end

section
/-! The command words (R100 to R105): decoding and encoding are inverse to each other between the words and the
well-formed instructions, because a word is illegal exactly from 6 on. -/

namespace Sys2Proof.Machine

/-! ### The fields of a word -/

theorem opcodeField_toNat (w : Word) : (opcodeField w).toNat = w.toNat % 16 := by
  simp [opcodeField, BitVec.extractLsb'_toNat]

theorem rsvdField_toNat (w : Word) : (rsvdField w).toNat = w.toNat / 16 := by
  rw [rsvdField, BitVec.extractLsb'_toNat, Nat.shiftRight_eq_div_pow]
  have := w.isLt
  omega

theorem rsvdNonzero_iff (w : Word) : rsvdNonzero w = true ↔ w.toNat / 16 ≠ 0 := by
  rw [rsvdNonzero, bne_iff_ne, ← rsvdField_toNat, Ne, ← BitVec.toNat_inj]
  rfl

theorem reservedOpcode_iff (w : Word) : reservedOpcode w = true ↔ 6 ≤ w.toNat % 16 := by
  rw [reservedOpcode, decide_eq_true_iff, opcodeField_toNat]

/-- The two ways to be illegal are one comparison: the legal words are 0 to 5. -/
theorem illegalWord_iff (w : Word) : illegalWord w = true ↔ 6 ≤ w.toNat := by
  rw [illegalWord, Bool.or_eq_true, rsvdNonzero_iff, reservedOpcode_iff]
  omega

/-! ### Decoding -/

/-- An illegal word decodes to itself, by either of the two branches. -/
theorem decode_of_illegalWord {w : Word} (h : illegalWord w = true) : decode w = .illegal w := by
  rw [decode]
  split
  · rfl
  next hrsvd =>
    have hop : reservedOpcode w = true := by simpa [illegalWord, hrsvd] using h
    rw [reservedOpcode, decide_eq_true_iff] at hop
    split
    case h_7 => rfl
    all_goals omega

/-- Every word is the word of a well-formed instruction: a command's, or an illegal one. -/
theorem exists_wellFormed_encode_eq (w : Word) : ∃ i : Instr, i.wellFormed = true ∧ encode i = w := by
  cases h : illegalWord w with
  | true => exact ⟨.illegal w, h, rfl⟩
  | false =>
    have hlt : w.toNat < 6 := by simpa [h] using illegalWord_iff w
    obtain ⟨i, hwf, hi⟩ : ∃ i : Instr, i.wellFormed = true ∧ (encode i).toNat = w.toNat := by
      generalize w.toNat = n at hlt
      match n, hlt with
      | 0, _ => exact ⟨.nop, rfl, rfl⟩
      | 1, _ => exact ⟨.build, rfl, rfl⟩
      | 2, _ => exact ⟨.gencode, rfl, rfl⟩
      | 3, _ => exact ⟨.encode, rfl, rfl⟩
      | 4, _ => exact ⟨.decode, rfl, rfl⟩
      | 5, _ => exact ⟨.clear, rfl, rfl⟩
    exact ⟨i, hwf, BitVec.eq_of_toNat_eq hi⟩

/-- Settles O3: the six commands by their words, and an illegal instruction because it carries an illegal word. -/
theorem decodeOfEncodeIsIdentity : Obligations.DecodeOfEncodeIsIdentity := by
  intro i hwf
  cases i with
  | illegal w => exact decode_of_illegalWord hwf
  | nop | build | gencode | encode | decode | clear => decide

/-- Settles O4: the word is that of some well-formed instruction, which is then what it decodes to. -/
theorem encodeOfDecodeIsIdentity : Obligations.EncodeOfDecodeIsIdentity := by
  intro w
  obtain ⟨i, hwf, rfl⟩ := exists_wellFormed_encode_eq w
  rw [decodeOfEncodeIsIdentity i hwf]
  exact ⟨hwf, rfl⟩

/-- A word with the two fields of a well-formed instruction's word decodes to that instruction. -/
theorem decode_of_fields {w : Word} {i : Instr} (hwf : i.wellFormed = true)
    (hrsvd : w.toNat / 16 = (encode i).toNat / 16) (hop : w.toNat % 16 = (encode i).toNat % 16) : decode w = i := by
  have hw : w = encode i := BitVec.eq_of_toNat_eq (by omega)
  rw [hw]
  exact decodeOfEncodeIsIdentity i hwf

/-- Settles O2: the legal opcodes by their fields, the two illegal clauses by the two parts of `illegalWord`, of which
`illegalSub` asks for RSVD first. -/
theorem decodeFollowsTheOpcodeMap : Obligations.DecodeFollowsTheOpcodeMap := by
  intro w
  refine ⟨fun hrsvd => ⟨?_, ?_⟩, decode_of_fields (i := .nop) rfl, decode_of_fields (i := .build) rfl,
    decode_of_fields (i := .gencode) rfl, decode_of_fields (i := .encode) rfl, decode_of_fields (i := .decode) rfl,
    decode_of_fields (i := .clear) rfl, fun hrsvd hop => ⟨?_, ?_⟩⟩
  · exact decode_of_illegalWord ((illegalWord_iff w).mpr (by omega))
  · exact if_pos ((rsvdNonzero_iff w).mpr hrsvd)
  · exact decode_of_illegalWord ((illegalWord_iff w).mpr (by omega))
  · exact if_neg (mt (rsvdNonzero_iff w).mp (not_not_intro hrsvd))

/-- Settles O1: six words of commands, and two illegal ones, from 6 on. -/
theorem commandWordsDecode : Obligations.CommandWordsDecode := by
  refine ⟨?_, ?_, ?_, ?_, ?_, ?_, ?_, ?_⟩
  · exact decodeOfEncodeIsIdentity .nop rfl
  · exact decodeOfEncodeIsIdentity .build rfl
  · exact decodeOfEncodeIsIdentity .gencode rfl
  · exact decodeOfEncodeIsIdentity .encode rfl
  · exact decodeOfEncodeIsIdentity .decode rfl
  · exact decodeOfEncodeIsIdentity .clear rfl
  · exact decodeOfEncodeIsIdentity (.illegal _) (by decide)
  · exact decodeOfEncodeIsIdentity (.illegal _) (by decide)

end Sys2Proof.Machine
end

section
/-! What a completion changes, command by command (R102). -/

namespace Sys2Proof.Machine

/-- Settles O14, by the ways a completion ends: a failure writes the error record (R241), a success what its command
commits. In each case the laws of `State.recordError` and of that commit say field by field what is left as it was. -/
theorem commandFrame : Obligations.CommandFrame := by
  intro i s t h
  rcases exec_next h with ⟨_, rfl⟩ | ⟨rfl, rfl⟩ | ⟨rfl, rfl⟩ | ⟨rfl, _, -, rfl⟩ | ⟨rfl, _, -, rfl⟩ | ⟨rfl, _, -, rfl⟩ |
    ⟨rfl, _, -, rfl⟩ <;> simp

end Sys2Proof.Machine
end

section
/-! How the host's program goes on between its accesses (R106, R107). -/

namespace Sys2Proof.Machine

/-- The state in which the host begins its program's next line: no port carries anything, and a running command has `l`
edges left. -/
def State.unrequested (s : State) (l : Nat) : State := { s with bus := State.reset.bus, latencyLeft := l }

/-- The edge with no access outstanding is the beginning of the next line (log entry 10). -/
theorem step_issue {s : State} (hrun : s.phase = .idle ∨ s.latencyLeft ≠ 0) (hrst : s.bus.rst = false)
    (hnone : s.outstanding = none) : ∃ l, step s = .next (s.unrequested l).issue := by
  obtain ⟨l, hstep, -⟩ := step_edge hrun hrst
  have hbus : s.quiet.bus = State.reset.bus := by simp [State.reset, hrst, hnone]
  have hquiet : ({ s.quiet with latencyLeft := l } : State) = s.unrequested l :=
    congrArg (fun b => { s with bus := b, latencyLeft := l }) hbus
  exact ⟨l, by rw [hstep, hquiet]; rfl⟩

/-- A WAITIRQ line ends exactly if `irq` = 1 (R107). -/
theorem State.issue_waitIrq {s : State} {rest : List HostOp} (hprog : s.program = .waitIrq :: rest) :
    s.issue = { s with program := if s.irq then rest else s.program } := by
  rw [State.issue, hprog]
  cases s.irq with
  | true => rfl
  | false => simp [← hprog]

theorem State.issue_reset {s : State} {k : Nat} {rest : List HostOp} (hprog : s.program = .reset k :: rest) :
    s.issue = { s with bus := { s.bus with rst := true } } := by
  rw [State.issue, hprog]

theorem State.issue_nil {s : State} (hprog : s.program = []) : s.issue = s := by
  rw [State.issue, hprog]

/-- Settles O52: how a line ends by its definition, and how the next one begins by what `issue` does with it. -/
theorem hostProgramNotation : Obligations.HostProgramNotation := by
  refine ⟨fun _ _ _ _ => ⟨rfl, rfl⟩, fun _ _ _ _ _ => rfl, fun s hrun hrst hnone => ?_⟩
  obtain ⟨l, hstep⟩ := step_issue hrun hrst hnone
  refine ⟨fun op acc rest hprog hacc => ?_, fun rest hprog => ?_, fun k rest hprog => ?_, fun hprog => ?_⟩
  · rw [State.issue_access (s := s.unrequested l) hprog hacc] at hstep
    exact ⟨_, hstep, rfl⟩
  · rw [State.issue_waitIrq (s := s.unrequested l) hprog] at hstep
    exact ⟨_, hstep, rfl⟩
  · rw [State.issue_reset (s := s.unrequested l) hprog] at hstep
    exact ⟨_, hstep, rfl⟩
  · rw [State.issue_nil (s := s.unrequested l) hprog] at hstep
    exact ⟨_, hstep, rfl⟩

end Sys2Proof.Machine
end

section
/-! The invariant of the machine under every step: a reset edge comes to it, the other parts of an edge keep it. -/

namespace Sys2Proof.Machine

/-- After an edge with `rst` = 1 the pulse goes on only for what is left of a `reset` line (R272). -/
theorem afterResetEdge_pulse {ops : List HostOp} (h : (afterResetEdge ops).1 = true) :
    ∃ k rest, (afterResetEdge ops).2 = .reset k :: rest := by
  cases ops with
  | nil => cases h
  | cons op rest =>
    cases op with
    | reset extra =>
      cases extra with
      | zero => cases h
      | succ extra => exact ⟨extra, rest, rfl⟩
    | _ => cases h

/-- A reset edge comes to the invariant whatever stood before, if only the sizes are legal (R270, R274). -/
theorem Inv.of_resetEdge {s : State} (h : s.params.legal) : Inv s.resetEdge where
  params := h
  mem := Memory.wf_unspecified _
  tree := by simp [TreeInv, State.reset]
  codes := by simp [CodesInv, State.reset]
  phase := by simp [PhaseInv, State.reset]
  err := by simp [ErrInv, State.reset]
  dec := by simp [State.reset]
  host := ⟨by simp [State.reset], afterResetEdge_pulse, by simp [State.reset], fun _ => rfl⟩

/-- Settles O55: each part of an edge keeps the invariant, the host's part and the completion after the ports have gone
quiet. -/
theorem stepKeepsTheInvariant : Obligations.StepKeepsTheInvariant := by
  intro s t hinv hstep
  have hquiet : Inv s.quiet := hinv.of_quiet
  rcases step_next hstep with ⟨-, rfl⟩ | ⟨hrst, -, rfl⟩ | ⟨-, op, x, hbusy, -, hexec⟩ | ⟨hrst, op, x, -, -, rfl⟩
  · exact Inv.of_resetEdge hinv.params
  · exact hquiet.of_hostEdge hrst rfl
  · exact hquiet.of_exec hbusy hexec
  · exact (hquiet.of_latency _).of_hostEdge hrst rfl

end Sys2Proof.Machine
end

section
/-! BUILD's checks of its input (R121). -/

namespace Sys2Proof.Machine

/-- BUILD over a table that FREQ holds comes to its checks with that table (R120). -/
theorem buildResult_of_holds {x : Inputs} {fs : List Word} (hsize : fs.length = 256) (htable : Holds x.freq fs) :
    buildResult x = (buildTree fs >>= fun t => .ok (distinctSymbols fs, t)) := by
  have hread : readFreqs x.freq 0 Config.nsym = .ok fs :=
    readFreqs_ok.mpr ⟨hsize, fun k f hf => by simpa using htable k f hf⟩
  rw [buildResult, hread]
  rfl

/-- BUILD records the error that its checks raise (R121, R241). -/
theorem exec_build_of_raise {s : State} {fs : List Word} {e : ErrRec} (hsize : fs.length = 256)
    (htable : Holds s.inputs.freq fs) (hraise : buildTree fs = .error (.raise e)) :
    exec .build s = .next (s.recordError e) := by
  rw [exec, execBuild, buildResult_of_holds hsize htable, hraise]
  rfl

theorem freqSum_le_of_sublist {xs ys : List Word} (h : xs.Sublist ys) : freqSum xs ≤ freqSum ys :=
  (h.map BitVec.toNat).sum_le_sum fun _ _ => Nat.zero_le _

/-- The check reports the symbol at which the running sum first exceeds the largest frequency (R121 (b)). -/
theorem firstOverflow_eq_some {fs : List Word} {k : Nat} (hfit : freqSum (fs.take k) ≤ Config.freqMax)
    (hover : Config.freqMax < freqSum (fs.take (k + 1))) : firstOverflow fs 0 0 = some k := by
  cases hfirst : firstOverflow fs 0 0 with
  | none =>
    have htotal := freqSum_le_of_sublist (List.take_sublist (k + 1) fs)
    rcases firstOverflow_none.mp hfirst with rfl | hsum
    · simp at hover
    · omega
  | some j =>
    obtain ⟨-, -, hj, hbefore⟩ := firstOverflow_some hfirst
    simp only [Nat.zero_add, Nat.sub_zero] at hj hbefore
    rcases Nat.lt_trichotomy j k with hlt | rfl | hlt
    · have := freqSum_le_of_sublist (List.take_sublist_take_left (l := fs) (show j + 1 ≤ k from hlt))
      omega
    · rfl
    · have := hbefore k hlt
      omega

theorem distinctSymbols_zeros (k : Nat) : distinctSymbols (List.replicate k 0#32) = 0 := by
  simp [distinctSymbols, List.countP_replicate]

/-- A table without symbols sums to 0. -/
theorem freqSum_eq_zero_of_distinctSymbols {fs : List Word} (h : distinctSymbols fs = 0) : freqSum fs = 0 := by
  have hleaves : leavesFrom fs 0 = [] := List.length_eq_zero_iff.mp ((leavesFrom_length fs 0).trans h)
  rw [← leavesFrom_sum fs 0, hleaves]
  rfl

/-- Settles O16: the zero table has no symbol; the overflow check stops at the first symbol with too large a sum. -/
theorem buildChecksItsInput : Obligations.BuildChecksItsInput := by
  constructor
  · intro s hzero
    refine exec_build_of_raise (fs := List.replicate 256 0#32) List.length_replicate (fun k f hf => ?_) ?_
    · obtain ⟨hk, rfl⟩ := List.getElem?_eq_some_iff.mp hf
      rw [List.getElem_replicate]
      exact hzero k (by rwa [List.length_replicate] at hk)
    · rw [buildTree, if_pos (distinctSymbols_zeros 256)]
      rfl
  · intro s fs k hsize htable _ hfit hover
    refine exec_build_of_raise hsize htable ?_
    have hsome : distinctSymbols fs ≠ 0 := fun h => by
      have := freqSum_le_of_sublist (List.take_sublist (k + 1) fs)
      have := freqSum_eq_zero_of_distinctSymbols h
      omega
    rw [buildTree, if_neg hsome, firstOverflow_eq_some hfit hover]
    rfl

end Sys2Proof.Machine
end

section
/-! A BUILD whose input passes its checks: it commits the tree of its table. What the nodes of that tree are: the leaves in
symbol order (R123), a tree (R130), the root's frequency (R131), the order of the merges (R133). -/

namespace Sys2Proof.Machine

/-! ### The state that BUILD leaves -/

/-- The state after a BUILD that commits the tree of the table `fs` (R125). -/
def State.built (s : State) (fs : List Word) : State := (s.commitBuild (leafNumber fs) (treeOf fs)).succeed

section

variable {s : State} {x : Inputs} {fs : List Word}

theorem Buildable.distinctSymbols_ne_zero (h : Buildable x fs) : distinctSymbols fs ≠ 0 := Nat.ne_of_gt h.occupied

theorem Buildable.buildTree_eq (h : Buildable x fs) : buildTree fs = .ok (treeOf fs) :=
  buildTree_ok.mpr ⟨h.distinctSymbols_ne_zero, firstOverflow_none.mpr (.inr ((Nat.zero_add _).trans_le h.fits)), rfl⟩

theorem Buildable.exec_build (h : Buildable s.inputs fs) : exec .build s = .next (s.built fs) := by
  rw [exec, execBuild, buildResult_of_holds h.size h.table, h.buildTree_eq]
  rfl

theorem Buildable.treeOf_root_eq (h : Buildable x fs) : (treeOf fs).root = 2 * leafNumber fs - 2 :=
  treeOf_root h.size h.distinctSymbols_ne_zero h.fits

/-- The nodes BUILD makes are those at the end of the merge loop, where the root alone is left in the queue. -/
theorem Buildable.mergeInv (h : Buildable x fs) :
    ∃ r : QueueItem, r.index = 2 * leafNumber fs - 2 ∧ MergeInv (leafNumber fs) (freqSum fs) (treeOf fs).nodes [r] := by
  obtain ⟨r, hinv, hroot, -⟩ := treeOf_inv h.size h.distinctSymbols_ne_zero h.fits
  exact ⟨r, hroot.symm.trans h.treeOf_root_eq, hinv⟩

theorem Buildable.leaves_prefix (h : Buildable x fs) : leavesFrom fs 0 <+: (treeOf fs).nodes := by
  obtain ⟨-, -, -, hprefix⟩ := treeOf_inv h.size h.distinctSymbols_ne_zero h.fits
  exact hprefix

theorem Buildable.nodes_length (h : Buildable x fs) : (treeOf fs).nodes.length = 2 * leafNumber fs - 1 :=
  treeOf_length h.size h.distinctSymbols_ne_zero h.fits

theorem Buildable.leafNumber_le (h : Buildable x fs) : leafNumber fs ≤ 256 := h.size ▸ List.countP_le_length

theorem Buildable.built_node (h : Buildable x fs) (s : State) {i : Nat} (hi : i < 2 * leafNumber fs - 1) :
    Store.read (s.built fs).mem.node i = lookIn (treeOf fs).nodes i := by
  rw [← h.nodes_length] at hi
  exact (Store.read_writePrefix ..).trans (if_pos hi)

theorem Buildable.built_node_above (h : Buildable x fs) (s : State) {i : Nat} (hi : 2 * leafNumber fs - 1 ≤ i) :
    Store.read (s.built fs).mem.node i = Store.read s.mem.node i := by
  rw [← h.nodes_length] at hi
  exact Store.read_writePrefix_ge _ _ hi

theorem Buildable.built_shape (h : Buildable x fs) (s : State) :
    TreeShape (Store.read (s.built fs).mem.node) (leafNumber fs) := by
  obtain ⟨r, -, hinv⟩ := h.mergeInv
  exact (hinv.shape h.size rfl h.leaves_prefix).congr fun i hi => h.built_node s hi

/-- The leaves stand in the first slots (R123). -/
theorem Buildable.built_leaf (h : Buildable x fs) (s : State) {i : Nat} {nd : Node}
    (hnd : (leavesFrom fs 0)[i]? = some nd) :
    i < leafNumber fs ∧ Store.read (s.built fs).mem.node i = some nd ∧ nd.leaf = true := by
  have hi : i < (leavesFrom fs 0).length := (List.getElem?_eq_some_iff.mp hnd).1
  have hn : i < leafNumber fs := by rwa [leavesFrom_length] at hi
  obtain ⟨_, _, -, -, rfl⟩ := mem_leavesFrom.mp (List.mem_of_getElem? hnd)
  exact ⟨hn, (h.built_node s (by omega)).trans ((prefix_getElem? h.leaves_prefix hi).trans hnd), rfl⟩

theorem Buildable.built_nodeCount (h : Buildable x fs) (s : State) :
    (s.built fs).nodeCount.toNat = 2 * leafNumber fs - 1 := by
  have := h.leafNumber_le
  simp only [State.built, State.succeed_nodeCount, State.commitBuild_nodeCount, h.nodes_length, BitVec.toNat_ofNat]
  omega

/-- The leaves stand in the first slots (R123). -/
theorem Buildable.built_leafCount (h : Buildable x fs) (s : State) : (s.built fs).leafCount.toNat = leafNumber fs := by
  have := h.leafNumber_le
  simp only [State.built, State.succeed_leafCount, State.commitBuild_leafCount, BitVec.toNat_ofNat]
  omega

theorem Buildable.built_root (h : Buildable x fs) (s : State) :
    (s.built fs).root.toNat = 2 * leafNumber fs - 2 := by
  have := h.leafNumber_le
  simp only [State.built, State.succeed_root, State.commitBuild_root, h.treeOf_root_eq, BitVec.toNat_ofNat]
  omega

end

/-- Settles O17: the committed tree has its root in the last of its 2n - 1 slots. -/
theorem buildSucceeds : Obligations.BuildSucceeds := by
  rintro s fs _ h rfl
  refine ⟨s.built fs, h.exec_build, ?_, fun i hi => ?_, fun i hi => h.built_node_above s hi⟩
  · rw [← h.treeOf_root_eq, ← h.nodes_length]
    rfl
  · rw [h.built_node s hi]
    exact ⟨_, List.getElem?_eq_getElem (by rwa [h.nodes_length])⟩

/-- Settles O19: the nodes at the end of the merge loop are a tree, and the registers count them. -/
theorem buildLeavesATree : Obligations.BuildLeavesATree := by
  rintro s fs _ h rfl
  exact ⟨s.built fs, h.exec_build, h.built_shape s, h.built_nodeCount s, h.built_leafCount s, h.built_root s⟩

/-! ### The leaves (R123) -/

/-- A present symbol's leaf comes after the leaves of the present symbols below it. -/
theorem leavesFrom_getElem? {fs : List Word} {k : Nat} {f : Word} (hk : fs[k]? = some f) (hf : f ≠ 0#32) (start : Nat) :
    (leavesFrom fs start)[leafNumber (fs.take k)]? = some (leafNode f (start + k)) := by
  induction fs generalizing start k with
  | nil => simp at hk
  | cons g fs ih =>
    rw [leavesFrom]
    cases k with
    | zero =>
      obtain rfl : g = f := by simpa using hk
      simp [hf]
    | succ k =>
      have hrest := ih (by simpa using hk) (start + 1)
      rw [show start + 1 + k = start + (k + 1) by omega] at hrest
      by_cases hg : g = 0#32
      · simpa [hg] using hrest
      · simpa [hg] using hrest

/-- Settles O18: the merge loop leaves the leaves in the first slots, where each present symbol has its place. -/
theorem buildMakesTheLeaves : Obligations.BuildMakesTheLeaves := by
  intro s fs h
  refine ⟨s.built fs, h.exec_build, fun k f hk hf => ?_⟩
  have hleaf := leavesFrom_getElem? hk hf 0
  rw [Nat.zero_add] at hleaf
  exact (h.built_leaf s hleaf).2.1

/-! ### The frequencies and the height -/

/-- Settles O21: the queue's frequencies sum to the total throughout, and in the end the root's is the only one. -/
theorem rootFrequencyIsTheTotal : Obligations.RootFrequencyIsTheTotal := by
  rintro s fs _ h rfl
  obtain ⟨r, hindex, hinv⟩ := h.mergeInv
  obtain ⟨nd, hroot, hfreq⟩ := hinv.item r (by simp)
  have htotal : nd.freq.toNat = freqSum fs := by simpa [hfreq] using hinv.weight
  have hocc := h.occupied
  refine ⟨s.built fs, nd, h.exec_build, ?_, htotal, h.fits, fun i m hi hm => ?_⟩
  · rw [h.built_root, h.built_node s (by omega), ← hindex]
    exact hroot
  · rw [h.built_node s hi] at hm
    rw [htotal]
    exact hinv.below i m hm

/-- Settles O22: the merge loop keeps its sums in order, and a path in a tree goes through internal nodes only. -/
theorem mergeOrder : Obligations.MergeOrder := by
  rintro s fs _ h rfl
  obtain ⟨r, -, hinv⟩ := h.mergeInv
  refine ⟨s.built fs, h.exec_build, fun i nd nd' hi hi' hnd hnd' => ?_, fun p j hpath => ?_⟩
  · rw [h.built_node s (by omega)] at hnd hnd'
    exact hinv.order i nd nd' hi hnd hnd'
  · rw [h.built_root] at hpath
    exact (h.built_shape s).follow_length hpath

end Sys2Proof.Machine
end

section
/-! The merges of BUILD: each takes the two waiting nodes with the least keys (R122, R124). -/

namespace Sys2Proof.Machine

/-! ### What the merge loop keeps -/

/-- What every merge keeps holds at the end of the loop. -/
theorem mergeLoop_keeps {n total : Nat} {P : List Node → Prop}
    (hmerge : ∀ {nodes : List Node} {q q1 q2 : List QueueItem} {a b : QueueItem}, MergeInv n total nodes q →
      extractMin q = some (a, q1) → extractMin q1 = some (b, q2) → P nodes → P (nodes ++ [internalNode a b]))
    {rounds : Nat} {nodes : List Node} {q : List QueueItem} (hinv : MergeInv n total nodes q) (hP : P nodes) :
    P (mergeLoop rounds nodes q).nodes := by
  induction rounds generalizing nodes q with
  | zero => exact hP
  | succ rounds ih =>
    rw [mergeLoop]
    split
    · exact hP
    · rename_i a q1 ha
      split
      · exact hP
      · rename_i b q2 hb
        exact ih (hinv.merge ha hb) (hmerge hinv ha hb hP)

/-! ### A merge of the least keys, in the terms of the finished nodes -/

/-- Node `i` was made by a merge of the two least keys among the nodes that waited then (R122, R124). -/
def LeastMerge (look : Nat → Option Node) (i : Nat) : Prop :=
  ∃ nd l r, look i = some nd ∧ nd.leaf = false ∧ look nd.left.toNat = some l ∧ look nd.right.toNat = some r ∧
    nd.freq.toNat = l.freq.toNat + r.freq.toNat ∧
    Waiting look i nd.left.toNat ∧ Waiting look i nd.right.toNat ∧
    KeyBefore look nd.left.toNat nd.right.toNat ∧
    ∀ j, Waiting look i j → j ≠ nd.left.toNat → j ≠ nd.right.toNat → KeyBefore look nd.right.toNat j

section

variable {look look' : Nat → Option Node} {i : Nat}

theorem Waiting.congr (he : ∀ k < i, look' k = look k) {j : Nat} : Waiting look' i j ↔ Waiting look i j := by
  refine and_congr_right fun _ => forall₂_congr fun k hk => not_congr ?_
  rw [IsParent, IsParent, he k hk]

theorem KeyBefore.congr (he : ∀ k < i, look' k = look k) {a b : Nat} (ha : a < i) (hb : b < i) :
    KeyBefore look' a b ↔ KeyBefore look a b := by
  rw [KeyBefore, KeyBefore, he a ha, he b hb]

/-- How node `i` was made is said by the nodes up to `i`. -/
theorem LeastMerge.congr (h : LeastMerge look i) (he : ∀ k ≤ i, look' k = look k) : LeastMerge look' i := by
  have he' : ∀ k < i, look' k = look k := fun k hk => he k (Nat.le_of_lt hk)
  obtain ⟨nd, l, r, hnd, hinner, hl, hr, hsum, hwl, hwr, hlr, hleast⟩ := h
  refine ⟨nd, l, r, by rwa [he i (Nat.le_refl i)], hinner, by rwa [he' _ hwl.1], by rwa [he' _ hwr.1], hsum,
    (Waiting.congr he').mpr hwl, (Waiting.congr he').mpr hwr, (KeyBefore.congr he' hwl.1 hwr.1).mpr hlr,
    fun j hj hjl hjr => ?_⟩
  have hwj := (Waiting.congr he').mp hj
  exact (KeyBefore.congr he' hwr.1 hwj.1).mpr (hleast j hwj hjl hjr)

end

/-! ### One merge -/

section

variable {n total : Nat} {nodes : List Node} {q : List QueueItem}

theorem MergeInv.index_lt (h : MergeInv n total nodes q) {x : QueueItem} (hx : x ∈ q) : x.index < nodes.length := by
  obtain ⟨nd, hnd, -⟩ := h.item x hx
  exact (List.getElem?_eq_some_iff.mp hnd).1

/-- The nodes that wait are those of the queue's entries (R120). -/
theorem MergeInv.waiting_iff (h : MergeInv n total nodes q) (j : Nat) :
    Waiting (lookIn nodes) nodes.length j ↔ j ∈ q.map QueueItem.index := by
  constructor
  · rintro ⟨hj, hno⟩
    by_contra hout
    obtain ⟨i, hi, hparent, -⟩ := h.parent j hj hout
    exact hno i hi hparent
  · intro hin
    obtain ⟨x, hx, rfl⟩ := List.mem_map.mp hin
    exact ⟨h.index_lt hx, fun k _ => h.top x hx k⟩

/-- The entry extracted from a part of the queue has a lesser key than those that stay in it. -/
theorem MergeInv.keyBefore_extractMin (h : MergeInv n total nodes q) {q' rest : List QueueItem} {m x : QueueItem}
    (hsub : q'.Subperm q) (hm : extractMin q' = some (m, rest)) (hx : x ∈ rest) :
    KeyBefore (lookIn nodes) m.index x.index := by
  have hperm := extractMin_perm hm
  have hmq : m ∈ q := hsub.subset (hperm.symm.subset (by simp))
  have hxq : x ∈ q := hsub.subset (hperm.symm.subset (by simp [hx]))
  obtain ⟨nm, hnm, hfm⟩ := h.item m hmq
  obtain ⟨nx, hnx, hfx⟩ := h.item x hxq
  have hne : m.index ≠ x.index := by
    obtain ⟨l, hl, hlq⟩ := hsub
    have hnodup : (m.index :: rest.map QueueItem.index).Nodup :=
      ((hl.trans hperm).map QueueItem.index).nodup_iff.mp (h.nodup.sublist (hlq.map QueueItem.index))
    exact fun e => (List.nodup_cons.mp hnodup).1 (e ▸ List.mem_map_of_mem hx)
  have hleast := extractMin_least hm hx
  rw [Bool.eq_false_iff, Ne, QueueItem.before_iff] at hleast
  exact ⟨nm, nx, hnm, hnx, by omega⟩

theorem MergeInv.internalNode_children (h : MergeInv n total nodes q) {a b : QueueItem} (ha : a ∈ q) (hb : b ∈ q) :
    (internalNode a b).left.toNat = a.index ∧ (internalNode a b).right.toNat = b.index := by
  have hai := h.index_lt ha
  have hbi := h.index_lt hb
  have hsize := h.size
  have hcount := h.count
  simp only [internalNode, BitVec.toNat_ofNat]
  omega

/-- A merge is one of the two least keys. -/
theorem MergeInv.leastMerge (h : MergeInv n total nodes q) {q1 q2 : List QueueItem} {a b : QueueItem}
    (ha : extractMin q = some (a, q1)) (hb : extractMin q1 = some (b, q2)) :
    LeastMerge (lookIn (nodes ++ [internalNode a b])) nodes.length := by
  have hpa := extractMin_perm ha
  have hpb := extractMin_perm hb
  have hsub : q1.Subperm q := (List.subperm_cons_self).trans hpa.symm.subperm
  have haq : a ∈ q := hpa.symm.subset (by simp)
  have hbq1 : b ∈ q1 := hpb.symm.subset (by simp)
  have hbq : b ∈ q := hsub.subset hbq1
  obtain ⟨hleft, hright⟩ := h.internalNode_children haq hbq
  have hold : ∀ k < nodes.length, lookIn (nodes ++ [internalNode a b]) k = lookIn nodes k :=
    fun k hk => List.getElem?_append_left hk
  have hnew : lookIn (nodes ++ [internalNode a b]) nodes.length = some (internalNode a b) := by simp
  have hwait : ∀ j, Waiting (lookIn (nodes ++ [internalNode a b])) nodes.length j ↔ j ∈ q.map QueueItem.index :=
    fun j => (Waiting.congr hold).trans (h.waiting_iff j)
  obtain ⟨l, hl, -⟩ := h.item a haq
  obtain ⟨r, hr, -⟩ := h.item b hbq
  replace hl := (hold a.index (h.index_lt haq)).trans hl
  replace hr := (hold b.index (h.index_lt hbq)).trans hr
  have hsum : (internalNode a b).freq.toNat = l.freq.toNat + r.freq.toNat :=
    (h.merge ha hb).sum nodes.length _ l r h.atLeast hnew (by rwa [hleft]) (by rwa [hright])
  refine ⟨internalNode a b, l, r, hnew, rfl, ?_⟩
  rw [hleft, hright]
  refine ⟨hl, hr, hsum, (hwait _).mpr (List.mem_map_of_mem haq), (hwait _).mpr (List.mem_map_of_mem hbq),
    (KeyBefore.congr hold (h.index_lt haq) (h.index_lt hbq)).mpr
      (h.keyBefore_extractMin (List.Subperm.refl q) ha hbq1), fun j hj hja hjb => ?_⟩
  obtain ⟨x, hx, rfl⟩ := List.mem_map.mp ((hwait j).mp hj)
  have hx2 : x ∈ q2 := by
    rcases List.mem_cons.mp (hpa.subset hx) with rfl | hx1
    · exact absurd rfl hja
    · rcases List.mem_cons.mp (hpb.subset hx1) with rfl | hx2
      · exact absurd rfl hjb
      · exact hx2
  exact (KeyBefore.congr hold (h.index_lt hbq) (h.index_lt hx)).mpr (h.keyBefore_extractMin hsub hb hx2)

end

/-! ### All merges -/

/-- Every node from slot `n` on was made by a merge of the two least keys. -/
def AllLeastMerges (n : Nat) (nodes : List Node) : Prop :=
  ∀ i, n ≤ i → i < nodes.length → LeastMerge (lookIn nodes) i

theorem MergeInv.allLeastMerges_merge {n total : Nat} {nodes : List Node} {q q1 q2 : List QueueItem} {a b : QueueItem}
    (h : MergeInv n total nodes q) (ha : extractMin q = some (a, q1)) (hb : extractMin q1 = some (b, q2))
    (hall : AllLeastMerges n nodes) : AllLeastMerges n (nodes ++ [internalNode a b]) := by
  intro i hn hi
  rw [List.length_append, List.length_singleton] at hi
  rcases Nat.lt_succ_iff_lt_or_eq.mp hi with hlt | rfl
  · exact (hall i hn hlt).congr fun k hk => List.getElem?_append_left (Nat.lt_of_le_of_lt hk hlt)
  · exact h.leastMerge ha hb

theorem Buildable.allLeastMerges {x : Inputs} {fs : List Word} (h : Buildable x fs) :
    AllLeastMerges (leafNumber fs) (treeOf fs).nodes :=
  mergeLoop_keeps MergeInv.allLeastMerges_merge (mergeInv_start h.size h.distinctSymbols_ne_zero h.fits)
    fun i hn hi => absurd hi (by rw [leavesFrom_length]; exact Nat.not_lt.mpr hn)

/-- Settles O20: every merge takes the least keys of the queue, whose entries are the nodes that wait. -/
theorem mergesTakeTheLeastKeys : Obligations.MergesTakeTheLeastKeys := by
  rintro s fs _ h rfl
  obtain ⟨r, hindex, hinv⟩ := h.mergeInv
  refine ⟨s.built fs, h.exec_build, h.built_nodeCount s, h.built_root s, fun j => ?_, fun i hn hi => ?_⟩
  · rw [Waiting.congr fun k hk => h.built_node s hk, ← h.nodes_length, hinv.waiting_iff]
    simp [hindex]
  · exact (h.allLeastMerges i hn (by rwa [h.nodes_length])).congr fun k hk =>
      h.built_node s (Nat.lt_of_le_of_lt hk hi)

end Sys2Proof.Machine
end

section
/-! The encoded length over BUILD's counts (R134, R160). Every node but the root is the child of one node, so that the sum
of frequency times depth over all nodes can be taken over the leaves and the internal nodes, or over the children of the
internal nodes; the difference is the sum of the internal frequencies. -/

namespace Sys2Proof.Machine

/-! ### Depth in a tree -/

section

variable {look : Nat → Option Node} {n : Nat}

theorem TreeShape.exists_node (h : TreeShape look n) {i : Nat} (hi : i < 2 * n - 1) : ∃ nd, look i = some nd := by
  by_cases hn : i < n
  · obtain ⟨nd, hnd, -⟩ := h.leaf i hn
    exact ⟨nd, hnd⟩
  · obtain ⟨nd, hnd, -⟩ := h.internal i (by omega) hi
    exact ⟨nd, hnd⟩

theorem TreeShape.isParent_bounds (h : TreeShape look n) {i j : Nat} (hi : i < 2 * n - 1) (hp : IsParent look i j) :
    n ≤ i ∧ j < i := by
  obtain ⟨nd, hnd, hinner, hchild⟩ := hp
  have hn := h.internal_ge hnd hinner
  obtain ⟨m, hm, -, -, hl, hr, -⟩ := h.internal i hn hi
  obtain rfl := Option.some.inj (hnd.symm.trans hm)
  omega

/-- A path to a node goes on to each of its children. -/
theorem follow_snoc_of_isParent {root i j : Nat} {p : List Bool} (hp : follow look root p = some i)
    (hparent : IsParent look i j) : ∃ b, follow look root (p ++ [b]) = some j := by
  obtain ⟨nd, hnd, hinner, hchild⟩ := hparent
  rcases hchild with rfl | rfl
  · exact ⟨false, by simp [follow_append, hp, follow_cons hnd hinner]⟩
  · exact ⟨true, by simp [follow_append, hp, follow_cons hnd hinner]⟩

/-- Every node of a tree is reached from the root. -/
theorem TreeShape.exists_path (h : TreeShape look n) {j : Nat} (hj : j < 2 * n - 1) :
    ∃ p, follow look (2 * n - 2) p = some j := by
  induction hk : 2 * n - 2 - j using Nat.strong_induction_on generalizing j with
  | _ k ih =>
    by_cases hroot : j = 2 * n - 2
    · exact ⟨[], by rw [hroot]; rfl⟩
    · obtain ⟨i, hi, hparent, -⟩ := h.parent j (by omega)
      have hji := (h.isParent_bounds hi hparent).2
      obtain ⟨p, hp⟩ := ih _ (by omega) hi rfl
      obtain ⟨b, hb⟩ := follow_snoc_of_isParent hp hparent
      exact ⟨p ++ [b], hb⟩

/-- `d` gives the number of branches from the root to each node. -/
def IsDepth (look : Nat → Option Node) (n : Nat) (d : Nat → Nat) : Prop :=
  ∀ j < 2 * n - 1, ∃ p, follow look (2 * n - 2) p = some j ∧ p.length = d j

theorem TreeShape.exists_isDepth (h : TreeShape look n) : ∃ d, IsDepth look n d := by
  choose! path hpath using fun j (hj : j < 2 * n - 1) => h.exists_path hj
  exact ⟨fun j => (path j).length, fun j hj => ⟨path j, hpath j hj, rfl⟩⟩

theorem TreeShape.depth_of_path (h : TreeShape look n) {d : Nat → Nat} (hd : IsDepth look n d) {j : Nat}
    (hj : j < 2 * n - 1) {p : List Bool} (hp : follow look (2 * n - 2) p = some j) : d j = p.length := by
  obtain ⟨q, hq, hlen⟩ := hd j hj
  rw [← hlen, h.follow_unique hq hp]

theorem TreeShape.depth_root (h : TreeShape look n) {d : Nat → Nat} (hd : IsDepth look n d) : d (2 * n - 2) = 0 :=
  h.depth_of_path hd (by have := h.count; omega) (p := []) rfl

theorem TreeShape.depth_child (h : TreeShape look n) {d : Nat → Nat} (hd : IsDepth look n d) {i j : Nat}
    (hi : i < 2 * n - 1) (hparent : IsParent look i j) : d j = d i + 1 := by
  obtain ⟨p, hp, hlen⟩ := hd i hi
  obtain ⟨b, hb⟩ := follow_snoc_of_isParent hp hparent
  have hj := (h.isParent_bounds hi hparent).2
  rw [h.depth_of_path hd (by omega) hb, ← hlen, List.length_append, List.length_singleton]

/-! ### Sums over a tree -/

/-- The frequency in slot `i`. -/
def weightAt (look : Nat → Option Node) (i : Nat) : Nat := (look i).elim 0 fun nd => nd.freq.toNat

/-- The left child of the node in slot `i`. -/
def leftAt (look : Nat → Option Node) (i : Nat) : Nat := (look i).elim 0 fun nd => nd.left.toNat

/-- The right child of the node in slot `i`. -/
def rightAt (look : Nat → Option Node) (i : Nat) : Nat := (look i).elim 0 fun nd => nd.right.toNat

theorem weightAt_of_some {i : Nat} {nd : Node} (h : look i = some nd) : weightAt look i = nd.freq.toNat := by
  rw [weightAt, h]
  rfl

theorem TreeShape.isParent_iff (h : TreeShape look n) {i : Nat} (hn : n ≤ i) (hi : i < 2 * n - 1) (j : Nat) :
    IsParent look i j ↔ j = leftAt look i ∨ j = rightAt look i := by
  obtain ⟨nd, hnd, hinner, -⟩ := h.internal i hn hi
  simp only [IsParent, leftAt, rightAt, hnd, Option.some.injEq, exists_eq_left', hinner, true_and, Option.elim_some,
    eq_comm]

theorem TreeShape.leftAt_ne_rightAt (h : TreeShape look n) {i : Nat} (hn : n ≤ i) (hi : i < 2 * n - 1) :
    leftAt look i ≠ rightAt look i := by
  obtain ⟨nd, hnd, -, -, -, -, hne⟩ := h.internal i hn hi
  simp only [leftAt, rightAt, hnd, Option.elim_some]
  exact fun e => hne (BitVec.eq_of_toNat_eq e)

theorem TreeShape.weightAt_internal (h : TreeShape look n) {i : Nat} (hn : n ≤ i) (hi : i < 2 * n - 1) :
    weightAt look i = weightAt look (leftAt look i) + weightAt look (rightAt look i) := by
  obtain ⟨nd, hnd, -, -, hl, hr, -⟩ := h.internal i hn hi
  obtain ⟨l, hlook⟩ := h.exists_node (i := nd.left.toNat) (by omega)
  obtain ⟨r, hrook⟩ := h.exists_node (i := nd.right.toNat) (by omega)
  have hleft : leftAt look i = nd.left.toNat := by rw [leftAt, hnd]; rfl
  have hright : rightAt look i = nd.right.toNat := by rw [rightAt, hnd]; rfl
  rw [hleft, hright, weightAt_of_some hnd, weightAt_of_some hlook, weightAt_of_some hrook]
  exact h.sum i nd l r hn hi hnd hlook hrook

/-- The children of the internal nodes are all nodes but the root, each once (R130 (d)). -/
theorem TreeShape.sum_children (h : TreeShape look n) (g : Nat → Nat) :
    ∑ i ∈ Finset.Ico n (2 * n - 1), (g (leftAt look i) + g (rightAt look i)) = ∑ j ∈ Finset.range (2 * n - 2), g j := by
  choose! parent hlt hparent hunique using h.parent
  have hmaps : ∀ j ∈ Finset.range (2 * n - 2), parent j ∈ Finset.Ico n (2 * n - 1) := fun j hj => by
    have hj := Finset.mem_range.mp hj
    exact Finset.mem_Ico.mpr ⟨(h.isParent_bounds (hlt j hj) (hparent j hj)).1, hlt j hj⟩
  rw [← Finset.sum_fiberwise_of_maps_to hmaps]
  refine Finset.sum_congr rfl fun i hi => ?_
  obtain ⟨hn, hi⟩ := Finset.mem_Ico.mp hi
  have hfiber : {j ∈ Finset.range (2 * n - 2) | parent j = i} = {leftAt look i, rightAt look i} := by
    ext j
    rw [Finset.mem_filter, Finset.mem_range, Finset.mem_insert, Finset.mem_singleton, ← h.isParent_iff hn hi]
    constructor
    · rintro ⟨hj, rfl⟩
      exact hparent j hj
    · intro hp
      have hji := (h.isParent_bounds hi hp).2
      have hj : j < 2 * n - 2 := by omega
      exact ⟨hj, (hunique j hj i hi hp).symm⟩
  rw [hfiber, Finset.sum_pair (h.leftAt_ne_rightAt hn hi)]

/-- Over the leaves, frequency times depth sums to the internal frequencies (R134). -/
theorem TreeShape.sum_leaf_depths (h : TreeShape look n) {d : Nat → Nat} (hd : IsDepth look n d) :
    ∑ i ∈ Finset.range n, weightAt look i * d i = ∑ i ∈ Finset.Ico n (2 * n - 1), weightAt look i := by
  have hcount := h.count
  have hchildren : ∑ i ∈ Finset.Ico n (2 * n - 1), weightAt look i * (d i + 1) =
      ∑ j ∈ Finset.range (2 * n - 2), weightAt look j * d j := by
    rw [← h.sum_children]
    refine Finset.sum_congr rfl fun i hi => ?_
    obtain ⟨hn, hi⟩ := Finset.mem_Ico.mp hi
    rw [h.depth_child hd hi ((h.isParent_iff hn hi _).mpr (.inl rfl)),
      h.depth_child hd hi ((h.isParent_iff hn hi _).mpr (.inr rfl)), h.weightAt_internal hn hi, Nat.add_mul]
  have hroot : ∑ j ∈ Finset.range (2 * n - 1), weightAt look j * d j =
      ∑ j ∈ Finset.range (2 * n - 2), weightAt look j * d j := by
    rw [show 2 * n - 1 = 2 * n - 2 + 1 by omega, Finset.sum_range_succ, h.depth_root hd, Nat.mul_zero, Nat.add_zero]
  have hsplit := Finset.sum_range_add_sum_Ico (fun j => weightAt look j * d j) (show n ≤ 2 * n - 1 by omega)
  simp only [Nat.mul_add, Nat.mul_one, Finset.sum_add_distrib] at hchildren
  omega

end

theorem sum_map_eq_sum_range {α : Type} (l : List α) (f : α → Nat) :
    (l.map f).sum = ∑ i ∈ Finset.range l.length, (l[i]?).elim 0 f := by
  rw [Finset.sum_range, ← Fin.sum_univ_fun_getElem]
  simp

/-! ### The code table that GENCODE makes -/

/-- The list gives every symbol its code under the tree, and no code to a symbol that has none (R153). -/
def ListsCodes (look : Nat → Option Node) (root : Nat) (table : List Code) : Prop :=
  ∀ c : Byte, ∃ code, table[c.toNat]? = some code ∧ ∀ p, p ≠ [] → (code.bits = p ↔ Codeword look root c p)

/-- GENCODE over a tree computes its code table (R150 to R153). -/
theorem Walkable.gencodeResult_ok {x : Inputs} {n : Nat} (h : Walkable x n) :
    ∃ table, gencodeResult x = .ok table ∧ table.length = 256 ∧
      ListsCodes (Store.read x.node) x.root.toNat table := by
  obtain ⟨bs, hbs, hmem⟩ := bindings_ok h.shape
  refine ⟨codeTable bs, ?_, codeTable_length bs, fun c => ?_⟩
  · rw [gencodeResult, if_pos h.valid, h.root, hbs]
    rfl
  · rw [h.root]
    exact codeTable_isCodeTable h.shape hmem c

theorem holds_writePrefix {α : Type} (st : Store α) (vs : List α) : Holds (Store.writePrefix st vs) vs := by
  intro j v hj
  rw [Store.read_writePrefix, if_pos (List.getElem?_eq_some_iff.mp hj).1, hj]

theorem exec_gencode_of_ok {s : State} {table : List Code} (h : gencodeResult s.inputs = .ok table) :
    exec .gencode s = .next (s.commitGencode table).succeed := by
  rw [exec, execGencode, h]
  rfl

/-- The length of the code that the table gives a symbol. -/
def codeLength (table : List Code) (c : Byte) : Nat := (table[c.toNat]?).elim 0 fun code => code.bits.length

theorem ListsCodes.codeLength_eq {look : Nat → Option Node} {root : Nat} {table : List Code}
    (h : ListsCodes look root table) {c : Byte} {p : List Bool} (hp : Codeword look root c p) (hne : p ≠ []) :
    codeLength table c = p.length := by
  obtain ⟨code, hcode, hbits⟩ := h c
  rw [codeLength, hcode, Option.elim_some, (hbits p hne).mpr hp]

/-- The encoded length is a sum over the leaves: a symbol that is absent adds nothing. -/
theorem encodedLength_eq_sum_leaves {fs : List Word} {table : List Code} (hlen : table.length = 256) {start : Nat}
    (hfit : start + fs.length ≤ 256) :
    (List.zipWith (fun f c => f.toNat * c.bits.length) fs (table.drop start)).sum =
      ((leavesFrom fs start).map fun nd => nd.freq.toNat * codeLength table nd.sym).sum := by
  induction fs generalizing start with
  | nil => rfl
  | cons f fs ih =>
    rw [List.length_cons] at hfit
    have hstart : start < table.length := by omega
    have hhead : codeLength table (leafNode f start).sym = table[start].bits.length := by
      have hsym : (BitVec.ofNat 8 start).toNat = start := Nat.mod_eq_of_lt (by omega)
      rw [codeLength, leafNode, hsym, List.getElem?_eq_getElem hstart, Option.elim_some]
    rw [List.drop_eq_getElem_cons hstart, List.zipWith_cons_cons, List.sum_cons, ih (by omega), leavesFrom]
    split
    · rename_i hzero
      simp [hzero]
    · rw [List.map_cons, List.sum_cons, hhead]
      rfl

/-! ### The encoded length over BUILD's counts -/

section

variable {x : Inputs} {fs : List Word} {table : List Code}

/-- A lone leaf has a code of one bit (R151). -/
theorem Buildable.encodedLength_lone (h : Buildable x fs) (s : State)
    (htable : ListsCodes (Store.read (s.built fs).mem.node) (2 * leafNumber fs - 2) table) (hlone : leafNumber fs = 1) :
    ((leavesFrom fs 0).map fun nd => nd.freq.toNat * codeLength table nd.sym).sum = freqSum fs := by
  rw [← leavesFrom_sum fs 0]
  refine congrArg List.sum (List.map_congr_left fun nd hmem => ?_)
  obtain ⟨i, hnd⟩ := List.mem_iff_getElem?.mp hmem
  obtain ⟨hi, hread, hleaf⟩ := h.built_leaf s hnd
  have hcode : Codeword (Store.read (s.built fs).mem.node) (2 * leafNumber fs - 2) nd.sym [false] :=
    ⟨i, nd, hread, hleaf, rfl, .inl ⟨by omega, rfl⟩⟩
  rw [htable.codeLength_eq hcode (by simp)]
  simp

/-- With two leaves or more, a code is as long as its leaf is deep (R157). -/
theorem Buildable.encodedLength_eq_sum_depths (h : Buildable x fs) (s : State)
    (htable : ListsCodes (Store.read (s.built fs).mem.node) (2 * leafNumber fs - 2) table) (hmany : leafNumber fs ≠ 1)
    {d : Nat → Nat} (hd : IsDepth (Store.read (s.built fs).mem.node) (leafNumber fs) d) :
    ((leavesFrom fs 0).map fun nd => nd.freq.toNat * codeLength table nd.sym).sum =
      ∑ i ∈ Finset.range (leafNumber fs), weightAt (Store.read (s.built fs).mem.node) i * d i := by
  rw [sum_map_eq_sum_range, leavesFrom_length]
  refine Finset.sum_congr rfl fun i hi => ?_
  have hi : i < leafNumber fs := Finset.mem_range.mp hi
  obtain ⟨nd, hnd⟩ : ∃ nd, (leavesFrom fs 0)[i]? = some nd :=
    ⟨_, List.getElem?_eq_getElem (by rwa [leavesFrom_length])⟩
  obtain ⟨-, hread, hleaf⟩ := h.built_leaf s hnd
  obtain ⟨p, hp, hlen⟩ := hd i (by omega)
  have hne : p ≠ [] := by
    rintro rfl
    have : 2 * leafNumber fs - 2 = i := Option.some.inj hp
    omega
  rw [hnd, Option.elim_some, weightAt_of_some hread, ← hlen,
    htable.codeLength_eq ⟨i, nd, hread, hleaf, rfl, .inr ⟨hne, hp⟩⟩ hne]

theorem Buildable.sum_internal_freqs (h : Buildable x fs) (s : State) :
    (((treeOf fs).nodes.drop (leafNumber fs)).map fun nd => nd.freq.toNat).sum =
      ∑ i ∈ Finset.Ico (leafNumber fs) (2 * leafNumber fs - 1), weightAt (Store.read (s.built fs).mem.node) i := by
  rw [sum_map_eq_sum_range, List.length_drop, h.nodes_length, Finset.sum_Ico_eq_sum_range]
  refine Finset.sum_congr rfl fun i hi => ?_
  have hi := Finset.mem_range.mp hi
  rw [List.getElem?_drop, weightAt, h.built_node s (by omega)]

end

/-- Settles O28: the encoded length is frequency times depth over the leaves, or the number of symbols for a lone leaf. -/
theorem encodedLengthIsInternalWeight : Obligations.EncodedLengthIsInternalWeight := by
  rintro s fs _ h rfl
  have hwalk : Walkable (s.built fs).currentInputs (leafNumber fs) := ⟨rfl, h.built_shape s, h.built_root s⟩
  obtain ⟨table, hresult, hlen, htable⟩ := hwalk.gencodeResult_ok
  have htable : ListsCodes (Store.read (s.built fs).mem.node) (2 * leafNumber fs - 2) table := h.built_root s ▸ htable
  refine ⟨s.built fs, _, (treeOf fs).nodes, table, h.exec_build, exec_gencode_of_ok hresult, h.nodes_length,
    holds_writePrefix _ _, hlen, holds_writePrefix _ _, ?_⟩
  have hleaves := encodedLength_eq_sum_leaves hlen (fs := fs) (start := 0) (by rw [h.size])
  rw [List.drop_zero] at hleaves
  rw [hleaves]
  split_ifs with hlone
  · exact h.encodedLength_lone s htable hlone
  · obtain ⟨d, hd⟩ := (h.built_shape s).exists_isDepth
    rw [h.encodedLength_eq_sum_depths s htable hlone hd, h.sum_internal_freqs s]
    exact (h.built_shape s).sum_leaf_depths hd

end Sys2Proof.Machine
end

section
/-! GENCODE (R150 to R159): over a tree it writes the code table of that tree. From the table's entries and the paths of
the tree follow the length of each code, that no code begins another, and Kraft's sum. -/

namespace Sys2Proof.Machine

/-! ### The completion of GENCODE -/

/-- Over a tree GENCODE commits the code table of that tree (R150 to R153). -/
theorem Walkable.exec_gencode {s : State} {n : Nat} (h : Walkable s.inputs n) :
    ∃ table, exec .gencode s = .next (s.commitGencode table).succeed ∧ table.length = 256 ∧
      ListsCodes (Store.read s.inputs.node) s.inputs.root.toNat table := by
  obtain ⟨table, hresult, hlen, htable⟩ := h.gencodeResult_ok
  exact ⟨table, exec_gencode_of_ok hresult, hlen, htable⟩

theorem ListsCodes.isCodeTable_writePrefix {look : Nat → Option Node} {root : Nat} {table : List Code}
    (h : ListsCodes look root table) (st : Store Code) : IsCodeTable look root (Store.writePrefix st table) := by
  intro c
  obtain ⟨code, hcode, hbits⟩ := h c
  exact ⟨code, holds_writePrefix st table _ _ hcode, hbits⟩

/-- Settles O23: without a tree GENCODE raises NOT_READY before it walks (R154); the invariant allows codes only over a
tree. -/
theorem gencodeNeedsATree : Obligations.GencodeNeedsATree := by
  constructor
  · intro s hnone
    have hresult : gencodeResult s.inputs = raise .notReady 1#8 0#32 0#32 := by
      rw [gencodeResult, if_neg (by simp [hnone])]
    rw [exec, execGencode, hresult]
    rfl
  · intro s hinv hnone
    by_contra hcodes
    have htree := (hinv.codes (Bool.eq_true_of_not_eq_false hcodes)).1
    simp [hnone] at htree

/-- Settles O24: the table that the tree's bindings make is what the completion writes, below index 256. -/
theorem gencodeMakesTheCodeTable : Obligations.GencodeMakesTheCodeTable := by
  intro s n h
  obtain ⟨table, hexec, hlen, htable⟩ := h.exec_gencode
  exact ⟨_, hexec, rfl, htable.isCodeTable_writePrefix _,
    fun k hk => Store.read_writePrefix_ge _ _ (by rwa [hlen])⟩

/-! ### The codes of the leaves -/

section

variable {look : Nat → Option Node} {n root : Nat} {table : List Code}

/-- A path ends at a leaf. -/
theorem follow_leaf_some {i j : Nat} {nd : Node} {p : List Bool} (hnd : look i = some nd) (hleaf : nd.leaf = true)
    (hp : follow look i p = some j) : p = [] ∧ i = j := by
  cases p with
  | nil => exact ⟨rfl, Option.some.inj hp⟩
  | cons b p =>
    obtain ⟨m, hm, hinner, -⟩ := follow_cons_some hp
    obtain rfl := Option.some.inj (hnd.symm.trans hm)
    rw [hleaf] at hinner
    cases hinner

theorem Codeword.ne_nil {c : Byte} {p : List Bool} (h : Codeword look root c p) : p ≠ [] := by
  obtain ⟨_, _, -, -, -, ⟨-, rfl⟩ | ⟨hne, -⟩⟩ := h
  · exact List.cons_ne_nil _ _
  · exact hne

/-- The code of a leaf is the path to it, and the placeholder `0` for a lone leaf (R151, R152). -/
theorem TreeShape.codeword_of_path (h : TreeShape look n) {i : Nat} {nd : Node} {p : List Bool}
    (hp : follow look (2 * n - 2) p = some i) (hnd : look i = some nd) (hleaf : nd.leaf = true) :
    Codeword look (2 * n - 2) nd.sym (if n = 1 then [false] else p) := by
  have hcount := h.count
  have hdown := h.follow_lt (by omega) hp
  refine ⟨i, nd, hnd, hleaf, rfl, ?_⟩
  split_ifs with hlone
  · exact .inl ⟨by omega, rfl⟩
  · refine .inr ⟨?_, hp⟩
    rintro rfl
    have hroot : 2 * n - 2 = i := Option.some.inj hp
    have := h.leaf_lt (by omega) hnd hleaf
    omega

/-- A codeword belongs to a symbol of one of the tree's leaves. -/
theorem TreeShape.leaf_of_codeword (h : TreeShape look n) {c : Byte} {p : List Bool}
    (hp : Codeword look (2 * n - 2) c p) : ∃ i < n, ∃ nd, look i = some nd ∧ nd.sym = c := by
  have hcount := h.count
  obtain ⟨i, nd, hnd, hleaf, hsym, hpath⟩ := hp
  have hi : i < 2 * n - 1 := by
    rcases hpath with ⟨rfl, -⟩ | ⟨-, hfollow⟩
    · omega
    · have := h.follow_lt (by omega) hfollow
      omega
  exact ⟨i, h.leaf_lt hi hnd hleaf, nd, hnd, hsym⟩

theorem ListsCodes.entry (h : ListsCodes look root table) {c : Byte} {p : List Bool} (hp : Codeword look root c p) :
    table[c.toNat]? = some { bits := p } := by
  obtain ⟨code, hcode, hbits⟩ := h c
  rw [hcode, ← (hbits p hp.ne_nil).mpr hp]

end

/-- Settles O25: the code is the path to the leaf, which no tree of at most 256 leaves makes longer than 255 (R133). -/
theorem codeLengthIsDepth : Obligations.CodeLengthIsDepth := by
  intro s n h
  obtain ⟨table, hexec, -, htable⟩ := h.exec_gencode
  refine ⟨_, hexec, fun p i nd hp hnd hleaf => ?_⟩
  rw [h.root] at hp htable
  have hcode := h.shape.codeword_of_path hp hnd hleaf
  have hshort : p.length ≤ 255 := by
    have hcount : n ≤ 256 := h.shape.count.2
    have := h.shape.follow_length hp
    omega
  refine ⟨_, holds_writePrefix _ _ _ _ (htable.entry hcode), fun hlone => if_pos hlone, fun hmany => ?_,
    List.length_pos_iff.mpr hcode.ne_nil, ?_⟩
  · rw [if_neg (by omega)]
  · split_ifs
    · decide
    · exact hshort

/-! ### No code begins another (R158) -/

section

variable {look : Nat → Option Node} {root : Nat}

/-- A path that goes on from a leaf leads nowhere, so a codeword that another one extends is of the same symbol. -/
theorem Codeword.sym_eq_of_prefix {a b : Byte} {p q : List Bool} (ha : Codeword look root a p)
    (hb : Codeword look root b q) (hpq : p <+: q) : a = b := by
  obtain ⟨i, ni, hi, hleafi, rfl, hplace⟩ := ha
  obtain ⟨j, nj, hj, hleafj, rfl, hplace'⟩ := hb
  have hsame : i = j := by
    rcases hplace with ⟨rfl, -⟩ | ⟨hne, hp⟩
    · rcases hplace' with ⟨rfl, -⟩ | ⟨-, hq⟩
      · rfl
      · exact (follow_leaf_some hi hleafi hq).2
    · rcases hplace' with ⟨rfl, -⟩ | ⟨-, hq⟩
      · exact (follow_leaf_some hj hleafj hp).2.symm
      · obtain ⟨r, rfl⟩ := hpq
        rw [follow_append, hp, Option.bind_some] at hq
        exact (follow_leaf_some hi hleafi hq).2
  subst hsame
  rw [Option.some.inj (hi.symm.trans hj)]

theorem IsCodeTable.codeword {st : Store Code} (h : IsCodeTable look root st) {c : Byte} {code : Code}
    (hread : Store.read st c.toNat = some code) (hne : code.bits ≠ []) : Codeword look root c code.bits := by
  obtain ⟨code', hread', hbits⟩ := h c
  obtain rfl := Option.some.inj (hread.symm.trans hread')
  exact (hbits _ hne).mp rfl

end

/-- Settles O26: every code of the table is a codeword of the tree. -/
theorem codesArePrefixFree : Obligations.CodesArePrefixFree := by
  intro s n h
  obtain ⟨table, hexec, -, htable⟩ := h.exec_gencode
  have hcodes := htable.isCodeTable_writePrefix s.mem.code
  exact ⟨_, hexec, fun a b ca cb hca hcb hnea hneb hab hprefix =>
    hab ((hcodes.codeword hca hnea).sym_eq_of_prefix (hcodes.codeword hcb hneb) hprefix)⟩

/-! ### Kraft's sum (R159) -/

/-- What a code adds to Kraft's sum, in units of 2^(-255). -/
def kraftTerm (c : Code) : Nat := if c.bits = [] then 0 else 2 ^ (255 - c.bits.length)

/-- The symbol of the node in slot `i`. -/
def symAt (look : Nat → Option Node) (i : Nat) : Nat := (look i).elim 0 fun nd => nd.sym.toNat

theorem symAt_of_some {look : Nat → Option Node} {i : Nat} {nd : Node} (h : look i = some nd) :
    symAt look i = nd.sym.toNat := by
  rw [symAt, h]
  rfl

section

variable {look : Nat → Option Node} {n : Nat} {table : List Code}

/-- If every internal node weighs as much as its children, the leaves weigh as much as the root. -/
theorem TreeShape.sum_leaves_eq_root (h : TreeShape look n) {g : Nat → Nat}
    (hg : ∀ i, n ≤ i → i < 2 * n - 1 → g i = g (leftAt look i) + g (rightAt look i)) :
    ∑ i ∈ Finset.range n, g i = g (2 * n - 2) := by
  have hcount := h.count
  have hinternal : ∑ i ∈ Finset.Ico n (2 * n - 1), g i = ∑ j ∈ Finset.range (2 * n - 2), g j := by
    rw [← h.sum_children]
    refine Finset.sum_congr rfl fun i hi => ?_
    obtain ⟨hn, hi⟩ := Finset.mem_Ico.mp hi
    exact hg i hn hi
  have hroot : ∑ j ∈ Finset.range (2 * n - 1), g j = ∑ j ∈ Finset.range (2 * n - 2), g j + g (2 * n - 2) := by
    rw [show 2 * n - 1 = 2 * n - 2 + 1 by omega, Finset.sum_range_succ]
  have hsplit := Finset.sum_range_add_sum_Ico g (show n ≤ 2 * n - 1 by omega)
  omega

/-- Each branch halves 2^(255 - depth), so the leaves sum to the root's share. -/
theorem TreeShape.sum_two_pow_depths (h : TreeShape look n) {d : Nat → Nat} (hd : IsDepth look n d) :
    ∑ i ∈ Finset.range n, 2 ^ (255 - d i) = 2 ^ 255 := by
  have hhalf : ∀ i j, i < 2 * n - 1 → IsParent look i j → 2 ^ (255 - d i) = 2 * 2 ^ (255 - d j) := by
    intro i j hi hparent
    have hji := (h.isParent_bounds hi hparent).2
    obtain ⟨p, hp, hlen⟩ := hd j (by omega)
    have hcount : n ≤ 256 := h.count.2
    have hshort := h.follow_length hp
    have hchild := h.depth_child hd hi hparent
    rw [← Nat.pow_succ', show 255 - d i = 255 - d j + 1 by omega]
  have hsum := h.sum_leaves_eq_root (g := fun i => 2 ^ (255 - d i)) fun i hn hi => by
    have hleft := hhalf i _ hi ((h.isParent_iff hn hi _).mpr (.inl rfl))
    have hright := hhalf i _ hi ((h.isParent_iff hn hi _).mpr (.inr rfl))
    omega
  rw [hsum, h.depth_root hd]

theorem TreeShape.symAt_injOn (h : TreeShape look n) : Set.InjOn (symAt look) (Finset.range n) := by
  intro i hi j hj hsym
  have hi : i < n := Finset.mem_range.mp hi
  have hj : j < n := Finset.mem_range.mp hj
  obtain ⟨ni, hni⟩ := h.exists_node (i := i) (by omega)
  obtain ⟨nj, hnj⟩ := h.exists_node (i := j) (by omega)
  rw [symAt_of_some hni, symAt_of_some hnj] at hsym
  exact h.leaf_of_sym hi hj hni hnj (BitVec.eq_of_toNat_eq hsym)

/-- A sum over the code table is one over the leaves, as the other entries have no code (R153). -/
theorem TreeShape.sum_kraftTerm (h : TreeShape look n) (hlen : table.length = 256)
    (htable : ListsCodes look (2 * n - 2) table) :
    (table.map kraftTerm).sum = ∑ i ∈ Finset.range n, (table[symAt look i]?).elim 0 kraftTerm := by
  rw [sum_map_eq_sum_range, hlen]
  refine (Finset.sum_of_injOn (symAt look) h.symAt_injOn ?_ ?_ fun i _ => rfl).symm
  · intro i hi
    have hi : i < n := Finset.mem_range.mp hi
    obtain ⟨nd, hnd⟩ := h.exists_node (i := i) (by omega)
    rw [symAt_of_some hnd]
    exact Finset.mem_range.mpr nd.sym.isLt
  · intro k hk habsent
    have hsym : (BitVec.ofNat 8 k).toNat = k := Nat.mod_eq_of_lt (Finset.mem_range.mp hk)
    obtain ⟨code, hcode, hbits⟩ := htable (BitVec.ofNat 8 k)
    rw [hsym] at hcode
    rw [hcode, Option.elim_some, kraftTerm, if_pos]
    by_contra hne
    obtain ⟨i, hi, nd, hnd, hnds⟩ := h.leaf_of_codeword ((hbits _ hne).mp rfl)
    exact habsent ⟨i, Finset.mem_range.mpr hi, by rw [symAt_of_some hnd, hnds, hsym]⟩

/-- What a leaf's code adds: its share by depth, and half for a lone leaf. -/
theorem TreeShape.kraftTerm_leaf (h : TreeShape look n) (htable : ListsCodes look (2 * n - 2) table) {d : Nat → Nat}
    (hd : IsDepth look n d) {i : Nat} (hi : i < n) :
    (table[symAt look i]?).elim 0 kraftTerm = if n = 1 then 2 ^ 254 else 2 ^ (255 - d i) := by
  obtain ⟨nd, hnd, hleaf, -⟩ := h.leaf i hi
  obtain ⟨p, hp, hlen⟩ := hd i (by omega)
  have hcode := h.codeword_of_path hp hnd hleaf
  rw [symAt_of_some hnd, htable.entry hcode, Option.elim_some, kraftTerm, if_neg hcode.ne_nil]
  split_ifs
  · rfl
  · rw [hlen]

end

/-- Settles O27: the sum over the table is one over the leaves, and that of 2^(-depth) over the leaves is 1. -/
theorem kraftSum : Obligations.KraftSum := by
  intro s n h
  obtain ⟨table, hexec, hlen, htable⟩ := h.exec_gencode
  rw [h.root] at htable
  obtain ⟨d, hd⟩ := h.shape.exists_isDepth
  refine ⟨_, table, hexec, hlen, holds_writePrefix _ _, ?_⟩
  change (table.map kraftTerm).sum = _
  rw [h.shape.sum_kraftTerm hlen htable,
    Finset.sum_congr rfl fun i hi => h.shape.kraftTerm_leaf htable hd (Finset.mem_range.mp hi)]
  split_ifs with hlone
  · rw [hlone, Finset.sum_range_one]
  · exact h.shape.sum_two_pow_depths hd

end Sys2Proof.Machine
end

section
/-! ENCODE (R170 to R174): its pre-checks, the bit-string of a message whose codes fit, and the first symbol that stops
its checking pass. -/

namespace Sys2Proof.Machine

/-! ### The completion of ENCODE -/

theorem exec_encode_of_ok {s : State} {bits : List Bool} (h : encodeResult s.params s.inputs = .ok bits) :
    exec .encode s = .next (s.commitEncode bits).succeed := by
  rw [exec, execEncode, h]
  rfl

theorem exec_encode_of_raise {s : State} {e : ErrRec} (h : encodeResult s.params s.inputs = .error (.raise e)) :
    exec .encode s = .next (s.recordError e) := by
  rw [exec, execEncode, h]
  rfl

/-- Settles O29: each pre-check raises its error once those before it have passed. -/
theorem encodePreChecks : Obligations.EncodePreChecks := by
  refine ⟨fun s hnone => exec_encode_of_raise ?_, fun s hcodes hlong => exec_encode_of_raise ?_,
    fun s hcodes hempty => exec_encode_of_raise ?_⟩
  · rw [encodeResult, if_pos hnone]
    rfl
  · rw [encodeResult, if_neg (by simp [hcodes]), if_pos hlong]
    rfl
  · rw [encodeResult, if_neg (by simp [hcodes]), if_neg (by simp [hempty]), if_pos (by simp [hempty])]
    rfl

/-! ### The checking pass -/

section

variable {p : Params} {x : Inputs} {m : List Byte} {codes : List (List Bool)} {count i acc : Nat} {c : Byte}
  {b : List Bool}

/-- With the pre-checks and the symbols `m` passed, what is left of ENCODE is the pass over the rest of the message. -/
theorem EncodeAt.encodeResult_eq (h : EncodeAt p x m codes) (hlen : x.msgLen.toNat = m.length + count)
    (hpos : x.msgLen.toNat ≠ 0) :
    encodeResult p x =
      (encodeScan p x count m.length codes.flatten.length >>= fun rest => .ok (codes ++ rest).flatten) := by
  have hscan := encodeScan_prefix h.coded (count := count) (i := 0) (acc := 0)
    (fun k c hk => by rw [Nat.zero_add, h.symbols k c hk]) (by rw [Nat.zero_add]; exact h.fits)
  rw [Nat.zero_add, Nat.zero_add] at hscan
  rw [encodeResult, if_neg (by simp [h.valid]), if_neg (Nat.not_lt.mpr h.range), if_neg hpos, hlen, hscan]
  cases encodeScan p x count m.length codes.flatten.length <;> rfl

/-- The whole message has passed: the result is the concatenation of its codes (R173). -/
theorem EncodeAt.encodeResult_ok (h : EncodeAt p x m codes) (hm : m ≠ []) (hlen : x.msgLen.toNat = m.length) :
    encodeResult p x = .ok codes.flatten := by
  rw [h.encodeResult_eq (count := 0) hlen (by rw [hlen]; exact mt List.length_eq_zero_iff.mp hm), encodeScan,
    Stop.bind_ok, List.append_nil]

/-- The symbol after `m` stops the pass: its error is the error of the command. -/
theorem EncodeAt.encodeResult_raise (h : EncodeAt p x m codes) {e : ErrRec} (hlt : m.length < x.msgLen.toNat)
    (hstop : ∀ count, encodeScan p x (count + 1) m.length codes.flatten.length = .error (.raise e)) :
    encodeResult p x = .error (.raise e) := by
  obtain ⟨count, hlen⟩ := Nat.exists_eq_add_of_lt hlt
  rw [h.encodeResult_eq (count := count + 1) hlen (by omega), hstop, Stop.bind_error]

/-- A symbol without a code stops the pass (R172). -/
theorem encodeScan_missing (hm : Store.read x.msg i = some c) (hc : Store.read x.code c.toNat = some { bits := [] }) :
    encodeScan p x (count + 1) i acc = raise .symbolMissing 0#8 (BitVec.ofNat 32 i) (zext c) := by
  rw [encodeScan, memRead_of_read hm, Stop.bind_ok, memRead_of_read hc, Stop.bind_ok, if_pos List.length_nil]
  rfl

/-- A code that does not fit in the cells left stops the pass (R174). -/
theorem encodeScan_overflow (hm : Store.read x.msg i = some c) (hc : HasCode x.code c b)
    (hover : p.bitDepth < acc + b.length) :
    encodeScan p x (count + 1) i acc = raise .capacity 1#8 (BitVec.ofNat 32 i) (BitVec.ofNat 32 acc) := by
  obtain ⟨hread, hne⟩ := hc
  rw [encodeScan, memRead_of_read hm, Stop.bind_ok, memRead_of_read hread, Stop.bind_ok,
    if_neg (mt List.length_eq_zero_iff.mp hne), if_pos hover]

end

/-! ### The obligations about the message -/

/-- The cells that ENCODE writes hold its bit-string (R64, R173). -/
theorem bitsHold_commitEncode (s : State) (bits : List Bool) : BitsHold (s.commitEncode bits).mem.bits bits := by
  intro j b hj
  exact holds_writePrefix s.mem.bits (bits.map cellOf) j (cellOf b) (by rw [List.getElem?_map, hj]; rfl)

/-- Settles O30: the pass gives the codes of the whole message, and the completion writes the cells of their
concatenation over the first cells of BITS. -/
theorem encodeConcatenatesCodes : Obligations.EncodeConcatenatesCodes := by
  intro s m codes h hm hlen
  exact ⟨_, exec_encode_of_ok (h.encodeResult_ok hm hlen), rfl, bitsHold_commitEncode s codes.flatten,
    fun j hj => Store.read_writePrefix_ge _ _ (by rwa [List.length_map])⟩

/-- Settles O31: the pass comes to the symbol after `m` and stops there, for want of a code or of room. -/
theorem encodeReportsTheFirstBadSymbol : Obligations.EncodeReportsTheFirstBadSymbol := by
  constructor
  · intro s m codes c h hlt hsym hnone
    exact exec_encode_of_raise (h.encodeResult_raise hlt fun _ => encodeScan_missing hsym hnone)
  · intro s m codes c b h hlt hsym hcode hover
    exact exec_encode_of_raise (h.encodeResult_raise hlt fun _ => encodeScan_overflow hsym hcode hover)

end Sys2Proof.Machine
end

section
/-! DECODE (R190 to R202): its pre-checks, what it computes once it has consumed codes and an open path, how every
bit-string parses under a tree, and from that what a string of bits can decode to. -/

namespace Sys2Proof.Machine

/-! ### The completion of DECODE -/

theorem exec_decode_of_ok {s : State} {out : List Byte} (h : decodeResult s.params s.inputs = .ok out) :
    exec .decode s = .next (s.commitDecode out).succeed := by
  rw [exec, execDecode, h]
  rfl

theorem exec_decode_of_raise {s : State} {e : ErrRec} (h : decodeResult s.params s.inputs = .error (.raise e)) :
    exec .decode s = .next (s.recordError e) := by
  rw [exec, execDecode, h]
  rfl

/-- DEC_LEN is the number of symbols decoded, which a register of 32 bits can show (R12, R195). -/
theorem decLen_commitDecode {s : State} (hlegal : s.params.legal) {out : List Byte}
    (hroom : out.length ≤ s.params.msgDepth) : (s.commitDecode out).decLen.toNat = out.length := by
  obtain ⟨-, hmax, -, -⟩ := hlegal
  have : Config.msgDepthMax = 65536 := rfl
  exact Nat.mod_eq_of_lt (by omega)

/-- A bit-string longer than BITS stops DECODE before it walks (R191). -/
theorem decodeResult_long {p : Params} {x : Inputs} (hvalid : x.treeValid = true) (hlong : p.bitDepth < x.bitLen.toNat) :
    decodeResult p x = raise .lengthRange 2#8 0#32 x.bitLen := by
  rw [decodeResult, if_neg (by simp [hvalid]), if_pos hlong]

/-- Settles O32: each pre-check raises its error once the one before it has passed. -/
theorem decodePreChecks : Obligations.DecodePreChecks := by
  refine ⟨fun s hnone => exec_decode_of_raise ?_, fun s hvalid hlong =>
    exec_decode_of_raise (decodeResult_long hvalid hlong)⟩
  rw [decodeResult, if_pos hnone]
  rfl

/-! ### The walk after the codes and the path it has consumed -/

section

variable {p : Params} {x : Inputs} {syms : List Byte} {read path : List Bool} {count i : Nat} {out : List Byte}

/-- The loop passes over an open path and stands where the path leads. -/
theorem decodeLoop_openPath (hcells : BitsFrom x.bits i path) (hopen : OpenPath (Store.read x.node) x.root.toNat path) :
    ∃ cur, follow (Store.read x.node) x.root.toNat path = some cur ∧
      decodeLoop p x (path.length + count) i x.root.toNat out = decodeLoop p x count (i + path.length) cur out := by
  rcases hopen with rfl | ⟨cur, nd, hpath, hnd, hinner⟩
  · exact ⟨_, rfl, by rw [List.length_nil, Nat.zero_add, Nat.add_zero]⟩
  · exact ⟨cur, hpath, decodeLoop_open hcells hpath hnd hinner⟩

/-- With the pre-checks passed and the codes and the path consumed, what is left of DECODE is the loop over the other
cells, from the node that the path leads to. -/
theorem DecodeAt.decodeResult_eq (h : DecodeAt p x syms read path)
    (hlen : x.bitLen.toNat = (read ++ path).length + count) :
    ∃ cur, follow (Store.read x.node) x.root.toNat path = some cur ∧
      decodeResult p x = decodeLoop p x count (read ++ path).length cur syms := by
  obtain ⟨ps, hcoded, rfl⟩ := h.coded
  obtain ⟨hread, hpath⟩ := bitsFrom_append.mp (bitsFrom_zero.mpr h.cells)
  obtain ⟨cur, hcur, hloop⟩ := decodeLoop_openPath (p := p) (count := count) (out := syms) hpath h.opened
  refine ⟨cur, hcur, ?_⟩
  rw [decodeResult, if_neg (by simp [h.valid]), if_neg (Nat.not_lt.mpr h.range), hlen, List.length_append, Nat.add_assoc,
    decodeLoop_coded hcoded hread (by simpa using h.room), List.nil_append, hloop, Nat.zero_add]

/-- After the codes alone the walk stands at the root. -/
theorem DecodeAt.decodeResult_eq_root (h : DecodeAt p x syms read []) (hlen : x.bitLen.toNat = read.length + count) :
    decodeResult p x = decodeLoop p x count read.length x.root.toNat syms := by
  obtain ⟨cur, hcur, hresult⟩ := h.decodeResult_eq (count := count) (by rw [List.append_nil, hlen])
  obtain rfl : x.root.toNat = cur := Option.some.inj hcur
  rwa [List.append_nil] at hresult

/-- The bit-string ends after a code: its symbols are the result (R195). -/
theorem DecodeAt.decodeResult_ok (h : DecodeAt p x syms read []) (hlen : x.bitLen.toNat = read.length) :
    decodeResult p x = .ok syms := by
  rw [h.decodeResult_eq_root (count := 0) hlen, decodeLoop, if_pos rfl]

/-- A cell that is neither `0` nor `1` stops the walk, wherever it stands (R192). -/
theorem DecodeAt.decodeResult_badCell (h : DecodeAt p x syms read path) {b : Byte}
    (hlt : (read ++ path).length < x.bitLen.toNat) (hcell : Store.read x.bits (read ++ path).length = some b)
    (hzero : b ≠ Config.zeroCell) (hone : b ≠ Config.oneCell) :
    decodeResult p x = raise .malformed 1#8 (BitVec.ofNat 32 (read ++ path).length) (zext b) := by
  obtain ⟨count, hlen⟩ := Nat.exists_eq_add_of_lt hlt
  obtain ⟨cur, -, hresult⟩ := h.decodeResult_eq (count := count + 1) hlen
  rw [hresult, decodeLoop, memRead_of_read hcell, Stop.bind_ok, if_pos ⟨hzero, hone⟩]
  rfl

/-- A `1` cell at a leaf root has no branch (R194). -/
theorem DecodeAt.decodeResult_noBranch (h : DecodeAt p x syms read []) {nd : Node}
    (hroot : Store.read x.node x.root.toNat = some nd) (hleaf : nd.leaf = true) (hlt : read.length < x.bitLen.toNat)
    (hcell : Store.read x.bits read.length = some Config.oneCell) :
    decodeResult p x = raise .malformed 3#8 (BitVec.ofNat 32 read.length) 0x31#32 := by
  obtain ⟨count, hlen⟩ := Nat.exists_eq_add_of_lt hlt
  rw [h.decodeResult_eq_root (count := count + 1) hlen, decodeLoop, memRead_of_read hcell, Stop.bind_ok,
    if_neg (by decide), memRead_of_read hroot, Stop.bind_ok, nextNode, if_pos hleaf, if_pos rfl]
  rfl

/-- The bit-string ends inside a code: the walk stands below the root (R196). -/
theorem DecodeAt.decodeResult_truncated (h : DecodeAt p x syms read path) {n : Nat} (hwalk : Walkable x n)
    (hne : path ≠ []) (hlen : x.bitLen.toNat = (read ++ path).length) :
    decodeResult p x = raise .malformed 2#8 x.bitLen (BitVec.ofNat 32 syms.length) := by
  obtain ⟨cur, hcur, hresult⟩ := h.decodeResult_eq (count := 0) hlen
  have hbelow : cur ≠ x.root.toNat := by
    have hcount := hwalk.shape.count
    rw [hwalk.root] at hcur ⊢
    have := hwalk.shape.follow_lt (by omega) hcur
    have := List.length_pos_iff.mpr hne
    omega
  rw [hresult, decodeLoop, if_neg hbelow, ← hlen, BitVec.ofNat_toNat, BitVec.setWidth_eq]

/-- One more code after MSG_DEPTH symbols: its last cell stops the walk (R197). -/
theorem DecodeAt.decodeResult_full (h : DecodeAt p x syms read []) (hfull : syms.length = p.msgDepth) {c : Byte}
    {code : List Bool} (hcode : Codeword (Store.read x.node) x.root.toNat c code)
    (hcells : BitsHold x.bits (read ++ code)) (hle : (read ++ code).length ≤ x.bitLen.toNat) :
    decodeResult p x =
      raise .capacity 2#8 (BitVec.ofNat 32 ((read ++ code).length - 1)) (BitVec.ofNat 32 p.msgDepth) := by
  obtain ⟨count, hlen⟩ := Nat.exists_eq_add_of_le hle
  have hfrom := (bitsFrom_append.mp (bitsFrom_zero.mpr hcells)).2
  rw [Nat.zero_add] at hfrom
  rw [List.length_append, Nat.add_assoc] at hlen
  rw [h.decodeResult_eq_root hlen, (decodeLoop_codeword hcode hfrom).2, if_pos hfull, List.length_append, hfull]

end

/-- Settles O33: after the last code the loop is at its end, with the walk at the root. -/
theorem decodeReadsCodes : Obligations.DecodeReadsCodes := by
  intro s syms bits h hlen
  exact ⟨_, exec_decode_of_ok (h.decodeResult_ok hlen), rfl, holds_writePrefix _ _,
    fun j hj => Store.read_writePrefix_ge _ _ hj⟩

/-- Settles O34: the cell is checked before the walk looks at a node. -/
theorem decodeReportsABadCell : Obligations.DecodeReportsABadCell := by
  intro s syms read path b h hlt hcell hzero hone
  exact exec_decode_of_raise (h.decodeResult_badCell hlt hcell hzero hone)

/-- Settles O37: the symbol of the code's last cell finds no room. -/
theorem decodeReportsTooManySymbols : Obligations.DecodeReportsTooManySymbols := by
  intro s syms read code c h hfull hcode hcells hle
  exact exec_decode_of_raise (h.decodeResult_full hfull hcode hcells hle)

/-! ### A leaf root (R194) -/

/-- Under a leaf root `k` cells `0` are the codes of `k` copies of its symbol (R151). -/
theorem codedAs_replicate {look : Nat → Option Node} {root : Nat} {nd : Node} (hroot : look root = some nd)
    (hleaf : nd.leaf = true) (k : Nat) : CodedAs look root (List.replicate k nd.sym) (List.replicate k false) := by
  refine ⟨List.replicate k [false], ?_, (List.flatten_replicate_singleton).symm⟩
  induction k with
  | zero => exact .nil
  | succ k ih => exact .cons ⟨root, nd, hroot, hleaf, rfl, .inl ⟨rfl, rfl⟩⟩ ih

/-- Settles O35: the `k` cells `0` are codes of the root's symbol, after which the bit-string ends or a `1` has no
branch. -/
theorem decodeUnderALoneLeaf : Obligations.DecodeUnderALoneLeaf := by
  intro s nd k hvalid hrange hroot hleaf hroom hcells
  have hat : DecodeAt s.params s.inputs (List.replicate k nd.sym) (List.replicate k false) [] :=
    { valid := hvalid, range := hrange, opened := .inl rfl, coded := codedAs_replicate hroot hleaf k
      room := by rwa [List.length_replicate]
      cells := fun j b hj => by
        rw [List.append_nil, List.getElem?_replicate] at hj
        split at hj
        · rename_i hjk
          obtain rfl : false = b := Option.some.inj hj
          exact hcells j hjk
        · cases hj }
  constructor
  · intro hlen
    refine ⟨_, exec_decode_of_ok (hat.decodeResult_ok (by rw [hlen, List.length_replicate])), rfl, ?_, fun j hj => ?_⟩
    · simp
    · exact holds_writePrefix _ _ j nd.sym (by rw [List.getElem?_replicate, if_pos hj])
  · intro hlt hcell
    have hresult := hat.decodeResult_noBranch hroot hleaf (by rwa [List.length_replicate])
      (by rwa [List.length_replicate])
    rw [List.length_replicate] at hresult
    exact exec_decode_of_raise hresult

/-! ### Concatenations of codes -/

section

variable {look : Nat → Option Node} {root : Nat} {a b : List Byte} {bits : List Bool}

theorem codedAs_nil : CodedAs look root [] bits ↔ bits = [] := by
  constructor
  · rintro ⟨ps, hps, rfl⟩
    rw [List.forall₂_nil_left_iff.mp hps, List.flatten_nil]
  · rintro rfl
    exact ⟨[], .nil, rfl⟩

theorem codedAs_cons {c : Byte} :
    CodedAs look root (c :: a) bits ↔
      ∃ code rest, Codeword look root c code ∧ CodedAs look root a rest ∧ bits = code ++ rest := by
  constructor
  · rintro ⟨ps, hps, rfl⟩
    obtain ⟨code, qs, hcode, hqs, rfl⟩ := List.forall₂_cons_left_iff.mp hps
    exact ⟨code, qs.flatten, hcode, ⟨qs, hqs, rfl⟩, List.flatten_cons⟩
  · rintro ⟨code, _, hcode, ⟨qs, hqs, rfl⟩, rfl⟩
    exact ⟨code :: qs, .cons hcode hqs, List.flatten_cons.symm⟩

theorem codedAs_append :
    CodedAs look root (a ++ b) bits ↔
      ∃ read rest, CodedAs look root a read ∧ CodedAs look root b rest ∧ bits = read ++ rest := by
  induction a generalizing bits with
  | nil => simp [codedAs_nil]
  | cons c a ih =>
    simp only [List.cons_append, codedAs_cons, ih]
    constructor
    · rintro ⟨code, _, hcode, ⟨read, rest, hread, hrest, rfl⟩, rfl⟩
      exact ⟨code ++ read, rest, ⟨code, read, hcode, hread, rfl⟩, hrest, (List.append_assoc ..).symm⟩
    · rintro ⟨_, rest, ⟨code, read, hcode, hread, rfl⟩, hrest, rfl⟩
      exact ⟨code, read ++ rest, hcode, ⟨read, rest, hread, hrest, rfl⟩, List.append_assoc ..⟩

theorem CodedAs.snoc {c : Byte} {code : List Bool} (h : CodedAs look root a bits) (hcode : Codeword look root c code) :
    CodedAs look root (a ++ [c]) (bits ++ code) :=
  codedAs_append.mpr ⟨bits, code, h, codedAs_cons.mpr ⟨code, [], hcode, codedAs_nil.mpr rfl, (List.append_nil _).symm⟩,
    rfl⟩

/-- A message has one encoding under a tree, as a symbol has one code (R132). -/
theorem TreeShape.codedAs_unique {n : Nat} (h : TreeShape look n) {bits' : List Bool}
    (ha : CodedAs look (2 * n - 2) a bits) (hb : CodedAs look (2 * n - 2) a bits') : bits = bits' := by
  induction a generalizing bits bits' with
  | nil => rw [codedAs_nil.mp ha, codedAs_nil.mp hb]
  | cons c a ih =>
    obtain ⟨code, rest, hcode, hrest, rfl⟩ := codedAs_cons.mp ha
    obtain ⟨code', rest', hcode', hrest', rfl⟩ := codedAs_cons.mp hb
    rw [h.codeword_unique hcode hcode', ih hrest hrest']

end

/-- The loop computes one result from the cells, so with room enough for either message the two are the same (R201). -/
theorem CodedAs.syms_unique {x : Inputs} {a b : List Byte} {bits : List Bool} (hcells : BitsHold x.bits bits)
    (ha : CodedAs (Store.read x.node) x.root.toNat a bits) (hb : CodedAs (Store.read x.node) x.root.toNat b bits) :
    a = b := by
  have hloop : ∀ m : List Byte, m.length ≤ max a.length b.length →
      CodedAs (Store.read x.node) x.root.toNat m bits →
      decodeLoop { msgDepth := max a.length b.length, bitDepth := 0 } x bits.length 0 x.root.toNat [] = .ok m := by
    rintro m hroom ⟨ps, hps, rfl⟩
    rw [← Nat.add_zero ps.flatten.length, decodeLoop_coded hps (bitsFrom_zero.mpr hcells) (by simpa using hroom),
      decodeLoop, if_pos rfl, List.nil_append]
  exact Except.ok.inj ((hloop a (Nat.le_max_left ..) ha).symm.trans (hloop b (Nat.le_max_right ..) hb))

/-! ### How a bit-string parses under a tree -/

/-- The root is a leaf and the next bit is `1`, for which it has no branch (R194). -/
def NoBranch (look : Nat → Option Node) (root : Nat) (rest : List Bool) : Prop :=
  ∃ nd tail, look root = some nd ∧ nd.leaf = true ∧ rest = true :: tail

section

variable {look : Nat → Option Node} {n : Nat}

/-- A branch from an internal node completes a code or leaves the path open (R193). -/
theorem TreeShape.snoc_of_inner (h : TreeShape look n) {path : List Bool} {i : Nat} {nd : Node}
    (hpath : follow look (2 * n - 2) path = some i) (hnd : look i = some nd) (hinner : nd.leaf = false) (b : Bool) :
    (∃ c, Codeword look (2 * n - 2) c (path ++ [b])) ∨ OpenPath look (2 * n - 2) (path ++ [b]) := by
  have hcount := h.count
  have hnext : follow look (2 * n - 2) (path ++ [b]) = some (if b then nd.right.toNat else nd.left.toNat) := by
    rw [follow_append, hpath, Option.bind_some, follow_cons hnd hinner, follow_nil]
  have hdown := h.follow_lt (by omega) hnext
  obtain ⟨m, hm⟩ := h.exists_node (i := if b then nd.right.toNat else nd.left.toNat) (by omega)
  cases hleaf : m.leaf with
  | true => exact .inl ⟨m.sym, _, m, hm, hleaf, rfl, .inr ⟨by simp, hnext⟩⟩
  | false => exact .inr (.inr ⟨_, m, hnext, hm, hleaf⟩)

/-- One more bit after an open path. -/
theorem TreeShape.snoc_of_openPath (h : TreeShape look n) {path : List Bool} (hopen : OpenPath look (2 * n - 2) path)
    (b : Bool) : (∃ c, Codeword look (2 * n - 2) c (path ++ [b])) ∨ OpenPath look (2 * n - 2) (path ++ [b]) ∨
      NoBranch look (2 * n - 2) (path ++ [b]) := by
  rcases hopen with rfl | ⟨i, nd, hpath, hnd, hinner⟩
  · have hcount := h.count
    obtain ⟨nd, hroot⟩ := h.exists_node (i := 2 * n - 2) (by omega)
    cases hleaf : nd.leaf with
    | false => exact (h.snoc_of_inner (path := []) rfl hroot hleaf b).imp_right .inl
    | true =>
      cases b with
      | false => exact .inl ⟨nd.sym, _, nd, hroot, hleaf, rfl, .inl ⟨rfl, rfl⟩⟩
      | true => exact .inr (.inr ⟨nd, [], hroot, hleaf, rfl⟩)
  · exact (h.snoc_of_inner hpath hnd hinner b).imp_right .inl

/-- Every bit-string is a concatenation of codes and then an open path, unless a `1` comes to a leaf root (R193 to
R196). -/
theorem TreeShape.exists_parse (h : TreeShape look n) (bits : List Bool) :
    ∃ syms read rest, bits = read ++ rest ∧ CodedAs look (2 * n - 2) syms read ∧
      (OpenPath look (2 * n - 2) rest ∨ NoBranch look (2 * n - 2) rest) := by
  induction bits using List.reverseRecOn with
  | nil => exact ⟨[], [], [], rfl, codedAs_nil.mpr rfl, .inl (.inl rfl)⟩
  | append_singleton bits b ih =>
    obtain ⟨syms, read, rest, rfl, hcoded, hopen | ⟨nd, tail, hroot, hleaf, rfl⟩⟩ := ih
    · rcases h.snoc_of_openPath hopen b with ⟨c, hcode⟩ | hnext
      · exact ⟨syms ++ [c], read ++ (rest ++ [b]), [], by simp, hcoded.snoc hcode, .inl (.inl rfl)⟩
      · exact ⟨syms, read, rest ++ [b], List.append_assoc .., hcoded, hnext⟩
    · exact ⟨syms, read, true :: tail ++ [b], List.append_assoc .., hcoded, .inr ⟨nd, tail ++ [b], hroot, hleaf, rfl⟩⟩

end

/-! ### What a string of bits decodes to -/

/-- The cells of a bit-string hold each beginning of it. -/
theorem BitsHold.left {st : List Host.Cell} {before after : List Bool} (h : BitsHold st (before ++ after)) :
    BitsHold st before :=
  bitsFrom_zero.mp (bitsFrom_append.mp (bitsFrom_zero.mpr h)).1

/-- The errors that a bit-string under a tree of `n` leaves can end in: truncated (R196), no room (R197), and no branch,
under a lone leaf only (R194). -/
def BitError (x : Inputs) (n : Nat) (e : ErrRec) : Prop :=
  (e.code = .malformed ∧ e.sub = 2#8 ∧ e.pos = x.bitLen) ∨ (e.code = .capacity ∧ e.sub = 2#8) ∨
    (n = 1 ∧ e.code = .malformed ∧ e.sub = 3#8)

section

variable {p : Params} {x : Inputs} {n : Nat} {syms : List Byte} {read rest bits : List Bool}

/-- More symbols than DEC has room for end in the error of the first that is too many (R197). -/
theorem Walkable.bitError_of_long (h : Walkable x n) (hcoded : CodedAs (Store.read x.node) x.root.toNat syms read)
    (hcells : BitsHold x.bits (read ++ rest)) (hlen : x.bitLen.toNat = (read ++ rest).length)
    (hfit : x.bitLen.toNat ≤ p.bitDepth) (hlong : p.msgDepth < syms.length) :
    ∃ e, decodeResult p x = .error (.raise e) ∧ BitError x n e := by
  rw [← List.take_append_drop p.msgDepth syms, List.drop_eq_getElem_cons hlong] at hcoded
  obtain ⟨before, _, hbefore, hafter, rfl⟩ := codedAs_append.mp hcoded
  obtain ⟨code, after, hcode, -, rfl⟩ := codedAs_cons.mp hafter
  simp only [← List.append_assoc] at hcells
  have hcells : BitsHold x.bits (before ++ code) := hcells.left.left
  have hat : DecodeAt p x (syms.take p.msgDepth) before [] :=
    { valid := h.valid, range := hfit, room := List.length_take_le _ _, coded := hbefore, opened := .inl rfl
      cells := by rw [List.append_nil]; exact hcells.left }
  refine ⟨_, hat.decodeResult_full (List.length_take_of_le hlong.le) hcode hcells ?_, .inr (.inl ⟨rfl, rfl⟩)⟩
  simp only [List.length_append] at hlen ⊢
  omega

/-- After the codes and what is open, the bit-string ends: in success if nothing is open (R194 to R196). -/
theorem DecodeAt.ok_or_bitError (hat : DecodeAt p x syms read rest) (h : Walkable x n)
    (hlen : x.bitLen.toNat = (read ++ rest).length) :
    (rest = [] ∧ decodeResult p x = .ok syms) ∨ ∃ e, decodeResult p x = .error (.raise e) ∧ BitError x n e := by
  by_cases hrest : rest = []
  · subst hrest
    exact .inl ⟨rfl, hat.decodeResult_ok (by rw [hlen, List.append_nil])⟩
  · exact .inr ⟨_, hat.decodeResult_truncated h hrest hlen, .inl ⟨rfl, rfl, rfl⟩⟩

/-- A `1` at a leaf root ends in an error, which two leaves or more exclude (R194). -/
theorem Walkable.bitError_of_noBranch (h : Walkable x n) (hat : DecodeAt p x syms read [])
    (hblocked : NoBranch (Store.read x.node) x.root.toNat rest) (hcells : BitsHold x.bits (read ++ rest))
    (hlen : x.bitLen.toNat = (read ++ rest).length) :
    ∃ e, decodeResult p x = .error (.raise e) ∧ BitError x n e := by
  obtain ⟨nd, tail, hroot, hleaf, rfl⟩ := hblocked
  have hcell : Store.read x.bits read.length = some Config.oneCell := hcells _ true (by simp)
  have hlt : read.length < x.bitLen.toNat := by
    simp only [List.length_append, List.length_cons] at hlen
    omega
  refine ⟨_, hat.decodeResult_noBranch hroot hleaf hlt hcell, .inr (.inr ⟨?_, rfl, rfl⟩)⟩
  have hcount := h.shape.count
  rw [h.root] at hroot
  have := h.shape.leaf_lt (by omega) hroot hleaf
  omega

/-- A bit-string that BITS has room for decodes to the message of which it is the encoding, or ends in an error (R193 to
R197). -/
theorem Walkable.decodeResult_cases (h : Walkable x n) (hcells : BitsHold x.bits bits)
    (hlen : x.bitLen.toNat = bits.length) (hfit : bits.length ≤ p.bitDepth) :
    (∃ syms, decodeResult p x = .ok syms ∧ CodedAs (Store.read x.node) x.root.toNat syms bits) ∨
      ∃ e, decodeResult p x = .error (.raise e) ∧ BitError x n e := by
  obtain ⟨syms, read, rest, rfl, hcoded, hrest⟩ := h.shape.exists_parse bits
  rw [← h.root] at hcoded hrest
  rw [← hlen] at hfit
  by_cases hroom : syms.length ≤ p.msgDepth
  · rcases hrest with hopen | hblocked
    · have hat : DecodeAt p x syms read rest := ⟨h.valid, hfit, hroom, hcoded, hopen, hcells⟩
      rcases hat.ok_or_bitError h hlen with ⟨rfl, hresult⟩ | herror
      · exact .inl ⟨syms, hresult, by rwa [List.append_nil]⟩
      · exact .inr herror
    · have hread : BitsHold x.bits (read ++ []) := by rw [List.append_nil]; exact hcells.left
      exact .inr (h.bitError_of_noBranch ⟨h.valid, hfit, hroom, hcoded, .inl rfl, hread⟩ hblocked hcells hlen)
  · exact .inr (h.bitError_of_long hcoded hcells hlen hfit (Nat.lt_of_not_le hroom))

/-- A concatenation of codes that fits decodes to its symbols (R195). -/
theorem Walkable.decodeResult_of_codedAs (h : Walkable x n) (hcells : BitsHold x.bits bits)
    (hlen : x.bitLen.toNat = bits.length) (hfit : bits.length ≤ p.bitDepth) (hroom : syms.length ≤ p.msgDepth)
    (hcoded : CodedAs (Store.read x.node) x.root.toNat syms bits) : decodeResult p x = .ok syms :=
  DecodeAt.decodeResult_ok ⟨h.valid, hlen ▸ hfit, hroom, hcoded, .inl rfl, by rwa [List.append_nil]⟩ hlen

end

/-- Settles O36: a walk that ends below the root stands inside a code; under two leaves or more no other error of a
string of bits has the code MALFORMED. -/
theorem decodeReportsATruncatedPath : Obligations.DecodeReportsATruncatedPath := by
  constructor
  · intro s n syms read path hwalk h hne hlen
    exact exec_decode_of_raise (h.decodeResult_truncated hwalk hne hlen)
  · intro s t n bits hwalk hmany hcells hlen hexec herr hcode
    by_cases hfit : bits.length ≤ s.params.bitDepth
    · rcases hwalk.decodeResult_cases hcells hlen hfit with ⟨syms, hresult, -⟩ | ⟨e, hresult, herror⟩
      · cases (exec_decode_of_ok hresult).symm.trans hexec
        cases herr
      · cases (exec_decode_of_raise hresult).symm.trans hexec
        rcases herror with ⟨-, hsub, -⟩ | ⟨hcapacity, -⟩ | ⟨hlone, -⟩
        · exact hsub
        · cases hcapacity.symm.trans hcode
        · omega
    · have hlong := decodeResult_long (p := s.params) hwalk.valid (by omega)
      cases (exec_decode_of_raise hlong).symm.trans hexec
      cases hcode

/-- Settles O38: success gives a message of which the bits are the encoding, and the encoding of a message that fits
decodes with success. -/
theorem decodeIsAUniqueParse : Obligations.DecodeIsAUniqueParse := by
  intro s n bits hwalk hlegal hcells hlen hfit
  refine ⟨?_, fun a b ha hb => ha.syms_unique hcells hb⟩
  rcases hwalk.decodeResult_cases hcells hlen hfit with ⟨syms, hresult, hcoded⟩ | ⟨e, hresult, -⟩
  · have hroom := decodeResult_length_le hresult
    exact ⟨_, exec_decode_of_ok hresult, iff_of_true rfl ⟨syms, hroom, hcoded⟩,
      fun _ => ⟨syms, hcoded, decLen_commitDecode hlegal hroom, holds_writePrefix _ _⟩⟩
  · have hfailed : (s.recordError e).err ≠ false := by simp
    refine ⟨_, exec_decode_of_raise hresult, iff_of_false hfailed ?_, fun h => absurd h hfailed⟩
    rintro ⟨syms, hroom, hcoded⟩
    cases hresult.symm.trans (hwalk.decodeResult_of_codedAs hcells hlen hfit hroom hcoded)

/-- Settles O39: a message with another encoding is another message, and the errors of a string of bits under two leaves
or more are the two named ones. -/
theorem tamperedBitsAreNoticed : Obligations.TamperedBitsAreNoticed := by
  intro s n m bits bits' hwalk hmany hlegal hm hne hcells hlen hfit
  rcases hwalk.decodeResult_cases hcells hlen hfit with ⟨m', hresult, hm'⟩ | ⟨e, hresult, herror⟩
  · refine ⟨_, exec_decode_of_ok hresult, .inl ⟨rfl, m', decLen_commitDecode hlegal (decodeResult_length_le hresult),
      holds_writePrefix _ _, ?_⟩⟩
    rintro rfl
    rw [hwalk.root] at hm hm'
    exact hne (hwalk.shape.codedAs_unique hm' hm)
  · refine ⟨_, exec_decode_of_raise hresult, .inr ?_⟩
    rcases herror with ⟨hcode, hsub, hpos⟩ | ⟨hcode, hsub⟩ | ⟨hlone, -⟩
    · exact .inl ⟨rfl, hcode, hsub, hpos⟩
    · exact .inr ⟨rfl, hcode, hsub⟩
    · omega

end Sys2Proof.Machine
end

section
/-! The round trip (R200): BUILD on a message's counts makes a tree in which every symbol of the message has a code,
ENCODE writes their concatenation if there is room, and DECODE reads it. -/

namespace Sys2Proof.Machine

/-! ### The counts of a message -/

/-- The frequency table of a message: how often each symbol occurs. -/
def countTable (m : List Byte) : List Word :=
  (List.range 256).map fun k => BitVec.ofNat 32 ((m.map BitVec.toNat).count k)

section

variable {m : List Byte} {c : Byte}

theorem countTable_getElem? (m : List Byte) (c : Byte) :
    (countTable m)[c.toNat]? = some (BitVec.ofNat 32 (m.count c)) := by
  rw [countTable, List.getElem?_map, List.getElem?_range c.isLt, Option.map_some,
    List.count_map_of_injective m BitVec.toNat (fun _ _ => BitVec.eq_of_toNat_eq)]

/-- The counts of all symbols sum to the length of the message. -/
theorem freqSum_countTable_le (m : List Byte) : freqSum (countTable m) ≤ m.length := by
  have hcounts : ∑ k ∈ Finset.range 256, (m.map BitVec.toNat).count k = m.length := by
    have hsum := Multiset.sum_count_eq_card (s := Finset.range 256) (m := (m.map BitVec.toNat : Multiset Nat))
      fun k hk => by
        obtain ⟨c, -, rfl⟩ := List.mem_map.mp (Multiset.mem_coe.mp hk)
        exact Finset.mem_range.mpr c.isLt
    simpa using hsum
  calc freqSum (countTable m)
      = ∑ k ∈ Finset.range 256, (m.map BitVec.toNat).count k % 2 ^ 32 := by
        rw [freqSum, countTable, List.map_map]
        rfl
    _ ≤ ∑ k ∈ Finset.range 256, (m.map BitVec.toNat).count k := Finset.sum_le_sum fun _ _ => Nat.mod_le _ _
    _ = m.length := hcounts

/-- A symbol of the message has a nonzero entry. -/
theorem count_entry_ne_zero (hc : c ∈ m) (hlen : m.length < 2 ^ 32) : BitVec.ofNat 32 (m.count c) ≠ 0#32 := by
  have hpos := List.count_pos_iff.mpr hc
  have hle := List.count_le_length (a := c) (l := m)
  intro hzero
  have := congrArg BitVec.toNat hzero
  simp only [BitVec.toNat_ofNat] at this
  omega

/-- BUILD accepts the counts of a message that is not empty (R121). -/
theorem buildable_countTable {x : Inputs} (hm : m ≠ []) (hlen : m.length < 2 ^ 32)
    (hread : ∀ c : Byte, Store.read x.freq c.toNat = some (BitVec.ofNat 32 (m.count c))) :
    Buildable x (countTable m) := by
  have hsize : (countTable m).length = 256 := by rw [countTable, List.length_map, List.length_range]
  refine ⟨hsize, fun j v hj => ?_, ?_, ?_⟩
  · have hlt : j < 256 := hsize ▸ (List.getElem?_eq_some_iff.mp hj).1
    obtain ⟨c, rfl⟩ : ∃ c : Byte, c.toNat = j := ⟨BitVec.ofNat 8 j, Nat.mod_eq_of_lt hlt⟩
    rw [hread, ← countTable_getElem?, hj]
  · obtain ⟨c, hc⟩ := List.exists_mem_of_ne_nil m hm
    exact List.countP_pos_iff.mpr
      ⟨_, List.mem_of_getElem? (countTable_getElem? m c), by simpa using count_entry_ne_zero hc hlen⟩
  · have := freqSum_countTable_le m
    omega

end

/-- A symbol with a nonzero entry has a code under the tree that BUILD leaves (R123, R152). -/
theorem Buildable.exists_codeword {x : Inputs} {fs : List Word} (h : Buildable x fs) (s : State) {c : Byte} {f : Word}
    (hf : fs[c.toNat]? = some f) (hne : f ≠ 0#32) :
    ∃ code, Codeword (Store.read (s.built fs).mem.node) (s.built fs).root.toNat c code := by
  obtain ⟨hlt, hread, hleaf⟩ := h.built_leaf s (leavesFrom_getElem? hf hne 0)
  have hsym : (leafNode f (0 + c.toNat)).sym = c := by simp [leafNode]
  obtain ⟨path, hpath⟩ := (h.built_shape s).exists_path (j := leafNumber (fs.take c.toNat)) (by omega)
  rw [h.built_root s, ← hsym]
  exact ⟨_, (h.built_shape s).codeword_of_path hpath hread hleaf⟩

/-! ### Encoding a message whose symbols all have codes -/

section

variable {p : Params} {x : Inputs} {m : List Byte} {code : Byte → List Bool}

/-- The pass gives the codes of all symbols, or stops for want of room (R173, R174). -/
theorem encodeScan_ok_or_full (hcode : ∀ c ∈ m, HasCode x.code c (code c)) {i acc : Nat}
    (hmsg : ∀ (k : Nat) (c : Byte), m[k]? = some c → Store.read x.msg (i + k) = some c) :
    encodeScan p x m.length i acc = .ok (m.map code) ∨
      ∃ pos info, encodeScan p x m.length i acc = raise .capacity 1#8 pos info := by
  induction m generalizing i acc with
  | nil => exact .inl rfl
  | cons c m ih =>
    have hread : Store.read x.msg i = some c := hmsg 0 c rfl
    have hhead := hcode c List.mem_cons_self
    rw [List.length_cons]
    by_cases hfit : acc + (code c).length ≤ p.bitDepth
    · rw [encodeScan_step hread hhead hfit]
      rcases ih (acc := acc + (code c).length) (fun d hd => hcode d (List.mem_cons_of_mem c hd)) (i := i + 1)
        (fun k d hk => by rw [← hmsg (k + 1) d hk, Nat.add_right_comm, Nat.add_assoc])
        with hrest | ⟨pos, info, hrest⟩
      · exact .inl (by rw [hrest]; rfl)
      · exact .inr ⟨pos, info, by rw [hrest]; rfl⟩
    · exact .inr ⟨_, _, encodeScan_overflow hread hhead (Nat.lt_of_not_le hfit)⟩

/-- ENCODE gives the concatenation of the codes, or fails for want of room (R173, R174). -/
theorem encodeResult_ok_or_full (hvalid : x.codesValid = true) (hcode : ∀ c ∈ m, HasCode x.code c (code c))
    (hmsg : Holds x.msg m) (hm : m ≠ []) (hlen : x.msgLen.toNat = m.length) (hroom : m.length ≤ p.msgDepth) :
    (encodeResult p x = .ok (m.map code).flatten ∧ (m.map code).flatten.length ≤ p.bitDepth) ∨
      ∃ e, encodeResult p x = .error (.raise e) ∧ e.code = .capacity := by
  have hresult : encodeResult p x = (encodeScan p x m.length 0 0 >>= fun codes => .ok codes.flatten) := by
    have hpos : m.length ≠ 0 := mt List.length_eq_zero_iff.mp hm
    rw [encodeResult, if_neg (by simp [hvalid]), hlen, if_neg (Nat.not_lt.mpr hroom), if_neg hpos]
    rfl
  rw [hresult]
  rcases encodeScan_ok_or_full (p := p) hcode (i := 0) (acc := 0) (fun k c hk => by rw [Nat.zero_add, hmsg k c hk])
    with hscan | ⟨pos, info, hscan⟩
  · obtain ⟨-, hfit, -⟩ := encodeScan_ok hscan (Nat.zero_le _)
    rw [Nat.zero_add] at hfit
    exact .inl ⟨by rw [hscan, Stop.bind_ok], hfit⟩
  · exact .inr ⟨_, by rw [hscan]; rfl, rfl⟩

end

/-! ### The round trip -/

/-- In any idle state with the legal sizes and the tree of `t`, and with the BITS that ENCODE wrote there, DECODE gives
the encoded message. -/
theorem command_decode_of_encoded {t u : State} {m : List Byte} {bits : List Bool} (hlegal : t.params.legal)
    (hvalid : t.treeValid = true) (hcoded : CodedAs (Store.read t.mem.node) t.root.toNat m bits)
    (hfit : bits.length ≤ t.params.bitDepth) (hroom : m.length ≤ t.params.msgDepth) (hparams : u.params = t.params)
    (htree : u.treeValid = t.treeValid) (hroot : u.root = t.root) (hnode : u.mem.node = t.mem.node)
    (hlen : u.bitLen = (t.commitEncode bits).bitLen) (hbits : u.mem.bits = (t.commitEncode bits).mem.bits) :
    ∃ v, u.command .decode = .next v ∧ v.err = false ∧ v.decLen.toNat = m.length ∧ Holds v.mem.dec m := by
  have hbitLen : u.bitLen.toNat = bits.length := by
    obtain ⟨-, -, -, hmax⟩ := hlegal
    have : Config.bitDepthMax = 262144 := rfl
    rw [hlen]
    exact Nat.mod_eq_of_lt (by omega)
  have hat : DecodeAt u.params u.currentInputs m bits [] :=
    { valid := htree.trans hvalid
      range := by rw [hparams]; exact hbitLen.trans_le hfit
      room := by rwa [hparams]
      coded := by
        change CodedAs (Store.read u.mem.node) u.root.toNat m bits
        rwa [hnode, hroot]
      opened := .inl rfl
      cells := by
        change BitsHold u.mem.bits (bits ++ [])
        rw [hbits, List.append_nil]
        exact bitsHold_commitEncode t bits }
  refine ⟨_, exec_decode_of_ok (hat.decodeResult_ok hbitLen), rfl, ?_, holds_writePrefix _ _⟩
  exact decLen_commitDecode (s := u.accept (Sys2Proof.encode .decode) 0) (hparams ▸ hlegal) (hparams ▸ hroom)

/-- The state after BUILD on the counts of a message. -/
def State.builtFor (s : State) (m : List Byte) : State := (s.accept (Sys2Proof.encode .build) 0).built (countTable m)

/-- The state after a GENCODE that commits the code table `table`. -/
def State.tabulated (t : State) (table : List Code) : State :=
  ((t.accept (Sys2Proof.encode .gencode) 0).commitGencode table).succeed

/-- BUILD on a message's counts leaves a tree in which every symbol of the message has a code. -/
theorem command_build_of_counts {s : State} {m : List Byte} (hm : m ≠ []) (hlen : m.length < 2 ^ 32)
    (hcounts : ∀ c : Byte, Store.read s.mem.freq c.toNat = some (BitVec.ofNat 32 (m.count c))) :
    s.command .build = .next (s.builtFor m) ∧
      Walkable (s.builtFor m).currentInputs (leafNumber (countTable m)) ∧
      ∃ code : Byte → List Bool,
        ∀ c ∈ m, Codeword (Store.read (s.builtFor m).mem.node) (s.builtFor m).root.toNat c (code c) := by
  have hbuild : Buildable (s.accept (Sys2Proof.encode .build) 0).inputs (countTable m) :=
    buildable_countTable hm hlen hcounts
  refine ⟨hbuild.exec_build, ⟨rfl, hbuild.built_shape (s.accept (Sys2Proof.encode .build) 0),
    hbuild.built_root (s.accept (Sys2Proof.encode .build) 0)⟩, ?_⟩
  choose! code hcode using fun c (hc : c ∈ m) =>
    hbuild.exists_codeword (s.accept (Sys2Proof.encode .build) 0) (countTable_getElem? m c)
      (count_entry_ne_zero hc hlen)
  exact ⟨code, hcode⟩

/-- GENCODE over a tree tabulates the codes of its symbols. -/
theorem Walkable.command_gencode {t : State} {n : Nat} (h : Walkable t.currentInputs n) :
    ∃ table, t.command .gencode = .next (t.tabulated table) ∧
      ∀ c code, Codeword (Store.read t.mem.node) t.root.toNat c code →
        HasCode (t.tabulated table).mem.code c code := by
  obtain ⟨table, hexec, -, htable⟩ := Walkable.exec_gencode (s := t.accept (Sys2Proof.encode .gencode) 0) h
  exact ⟨table, hexec, fun c code hcode => ⟨holds_writePrefix _ _ _ _ (htable.entry hcode), hcode.ne_nil⟩⟩

/-- Settles O40: the tree gives every symbol of the message a code, GENCODE tabulates them, and DECODE reads back the
concatenation that ENCODE writes. -/
theorem roundTrip : Obligations.RoundTrip := by
  intro s m hlegal hm hroom hmsg hlen hcounts
  obtain ⟨hbuild, hwalk, code, hcode⟩ := command_build_of_counts hm (hlen ▸ s.msgLen.isLt) hcounts
  obtain ⟨table, hgencode, htable⟩ := hwalk.command_gencode
  have hcoded : CodedAs (Store.read (s.builtFor m).mem.node) (s.builtFor m).root.toNat m (m.map code).flatten :=
    ⟨m.map code, List.forall₂_map_right_iff.mpr (List.forall₂_same.mpr hcode), rfl⟩
  rcases encodeResult_ok_or_full (p := s.params) (x := ((s.builtFor m).tabulated table).currentInputs) rfl
    (fun c hc => htable c _ (hcode c hc)) hmsg hm hlen hroom with ⟨hresult, hfit⟩ | ⟨e, hresult, hcapacity⟩
  · refine ⟨_, _, _, hbuild, rfl, hgencode, rfl, exec_encode_of_ok hresult, nofun, ?_⟩
    intro _ u _ hparams htree hroot hnode hbitLen hbits
    exact command_decode_of_encoded (t := ((s.builtFor m).tabulated table).accept (Sys2Proof.encode .encode) 0) hlegal
      rfl hcoded hfit hroom hparams htree hroot hnode hbitLen hbits
  · exact ⟨_, _, _, hbuild, rfl, hgencode, rfl, exec_encode_of_raise hresult, fun _ => hcapacity, nofun⟩

end Sys2Proof.Machine
end

section
/-! The control commands NOP and CLEAR, and the illegal command words (R220 to R222). -/

namespace Sys2Proof.Machine

/-! ### How each completes -/

theorem exec_nop (s : State) : exec .nop s = .next s.succeed := rfl

theorem exec_clear (s : State) : exec .clear s = .next s.commitClear.succeed := rfl

theorem exec_illegal (w : Word) (s : State) :
    exec (.illegal w) s =
      .next (s.recordError { code := .illegalCommand, sub := illegalSub w, pos := 0#32, info := w }) := rfl

/-- The sub-cause of an illegal word by the number in its upper field (R100, R222). -/
theorem illegalSub_eq (w : Word) : illegalSub w = if w.toNat / 16 ≠ 0 then 2#8 else 1#8 :=
  if_congr (rsvdNonzero_iff w) rfl rfl

/-! ### What CLEAR leaves in FREQ -/

section

variable (s : State) {k : Nat}

theorem read_freq_commitClear_of_lt (hk : k < 256) : Store.read s.commitClear.mem.freq k = some 0#32 :=
  holds_writePrefix _ _ k 0#32 (by rw [List.getElem?_replicate]; exact if_pos hk)

theorem read_freq_commitClear_of_ge (hk : 256 ≤ k) :
    Store.read s.commitClear.mem.freq k = Store.read s.mem.freq k :=
  Store.read_writePrefix_ge _ _ (by rwa [List.length_replicate])

end

/-! ### The statements -/

/-- Settles O10: NOP commits nothing, and under `command` acceptance has cleared the error record before. -/
theorem nopCompletes : Obligations.NopCompletes :=
  ⟨exec_nop, fun s => ⟨_, exec_nop (s.accept (Sys2Proof.encode .nop) 0), rfl⟩⟩

/-- Settles O11: the commit names every register that it discards, and FREQ is read below and from index 256 on. -/
theorem clearDiscards : Obligations.ClearDiscards := by
  intro s
  refine ⟨s.commitClear.succeed, exec_clear s, rfl, fun k hk => ?_, fun k hk => ?_⟩
  · exact read_freq_commitClear_of_lt s hk
  · exact read_freq_commitClear_of_ge s hk

/-- Settles O12: an illegal word raises its error, whose sub-cause depends on the word's upper field alone. -/
theorem illegalWordFails : Obligations.IllegalWordFails := by
  intro s w
  rw [exec_illegal, illegalSub_eq]
  rfl

end Sys2Proof.Machine
end

section
/-! One edge of the clock, an accepted command and what its completion shows: the four cases of a step, the frames of an
acceptance and of a failure, and the interrupt line (R240, R241, R244, R270). -/

namespace Sys2Proof.Machine

/-! ### The edge -/

theorem step_of_rst {s : State} (h : s.bus.rst = true) : step s = .next s.resetEdge := by
  rw [step, if_pos h]

/-- A command whose time has come completes on this edge (R240). -/
theorem step_of_due {s : State} {op : Instr} {x : Inputs} (hrst : s.bus.rst = false) (hbusy : s.phase = .busy op x)
    (hdue : s.latencyLeft = 0) : step s = exec op s.quiet := by
  simp [step, hrst, hbusy, hdue]

/-- Settles O5: the reset and the completion by the definition of a step, the two other cases by what it is on an edge
that the host has. -/
theorem stepRunsTheAcceptedCommand : Obligations.StepRunsTheAcceptedCommand := by
  intro s
  refine ⟨step_of_rst, fun hrst hidle => ?_, fun op x hrst hbusy hdue => ?_, fun op x k hrst hbusy hleft => ?_⟩
  · obtain ⟨l, hstep, hl, -⟩ := step_edge (.inl hidle) hrst
    obtain rfl := hl hidle
    exact hstep
  · exact ⟨step_of_due hrst hbusy hdue, State.inputs_busy (s := s.quiet) hbusy⟩
  · obtain ⟨l, hstep, -, hl⟩ := step_edge (.inr (by simp [hleft])) hrst
    obtain rfl : l = k := Nat.succ.inj ((hl (by simp [hbusy])).trans hleft)
    exact hstep

/-! ### Acceptance and failure -/

theorem State.hostWrite_cmd {s : State} (h : s.phase = .idle) (w : Word) :
    s.hostWrite addrCMD w = s.acceptCommand w := by
  rw [State.hostWrite_idle h, region_cmd]
  rfl

/-- Settles O7: the write is an acceptance, whose frame is its definition. -/
theorem commandIsAccepted : Obligations.CommandIsAccepted :=
  fun _ w hidle => ⟨_, _, State.hostWrite_cmd hidle w⟩

/-- Settles O13: a completion that leaves ERR = 1 recorded an error with a code, and recording an error does no more. -/
theorem failedCommandKeepsState : Obligations.FailedCommandKeepsState := by
  intro i s t h herr
  obtain ⟨e, hcode, rfl⟩ := exec_error h herr
  exact ⟨rfl, hcode⟩

/-! ### The interrupt line (R244) -/

theorem State.irq_of_not_done {s : State} (h : s.done = false) : s.irq = false := by
  rw [State.irq, h, Bool.false_and]

theorem State.irq_of_done {s : State} (h : s.done = true) : s.irq = s.doneIE := by
  rw [State.irq, h, Bool.true_and]

/-- Settles O9, by what each event leaves in DONE and DONE_IE: a completion sets DONE, a W1C write and an acceptance
clear it, and a write to IRQ_EN leaves it. -/
theorem interruptLine : Obligations.InterruptLine := by
  refine ⟨fun _ => rfl, fun i s t h => ?_, fun s v hbit => ?_, fun s w hidle => ?_, fun s v => ?_⟩
  · obtain ⟨-, hdone, -, -, hie, -⟩ := commandFrame i s t h
    rw [State.irq_of_done hdone, hie]
  · rw [State.hostWrite_status, State.writeStatus_eq]
    exact State.irq_of_not_done (by simp [hbit])
  · rw [State.hostWrite_cmd hidle]
    exact State.irq_of_not_done rfl
  · rw [State.hostWrite_irqEn]
    rfl

end Sys2Proof.Machine
end

section
/-! Where a completion can fault (U1, D36): over the stores that the invariant allows, only at an element of FREQ, MSG
or BITS that nothing has written. -/

namespace Sys2Proof.Machine

/-! ### Sequences and their faults -/

/-- The sequence has a defined result, or ends in one of the faults that are allowed. -/
structure FaultsWithin {α : Type} (allowed : Fault → Prop) (r : Except Stop α) : Prop where
  allowed : ∀ f, r = .error (.undefined f) → allowed f

/-- An element below `size` that nothing has written, and the fault that reading it is (U1). -/
def UnwrittenBelow {α : Type} (st : Store α) (size : Nat) (fault : Nat → Fault) (f : Fault) : Prop :=
  ∃ k, k < size ∧ Store.read st k = none ∧ f = fault k

section

variable {α β : Type} {allowed : Fault → Prop}

theorem faultsWithin_ok (a : α) : FaultsWithin allowed (.ok a : Except Stop α) := ⟨nofun⟩

theorem faultsWithin_raise (c : ErrCode) (s : Byte) (p i : Word) :
    FaultsWithin allowed (raise c s p i : Except Stop α) := ⟨nofun⟩

theorem FaultsWithin.bind {r : Except Stop α} {g : α → Except Stop β} (hr : FaultsWithin allowed r)
    (hg : ∀ a, r = .ok a → FaultsWithin allowed (g a)) : FaultsWithin allowed (r >>= g) := by
  cases r with
  | ok a => exact hg a rfl
  | error e =>
    refine ⟨fun f hf => hr.allowed f ?_⟩
    rw [Stop.bind_error] at hf
    rw [Except.error.inj hf]

theorem memRead_faultsWithin (st : Store α) {size i : Nat} (hi : i < size) (fault : Nat → Fault) :
    FaultsWithin (UnwrittenBelow st size fault) (memRead st i (fault i)) := by
  cases hread : Store.read st i with
  | some v => rw [memRead_of_read hread]; exact faultsWithin_ok v
  | none =>
    rw [memRead_of_none hread]
    exact ⟨fun f hf => ⟨i, hi, hread, (Stop.undefined.inj (Except.error.inj hf)).symm⟩⟩

end

/-! ### BUILD and GENCODE -/

theorem readFreqs_faultsWithin (st : Store Word) {size start count : Nat} (hsize : start + count ≤ size) :
    FaultsWithin (UnwrittenBelow st size .unwrittenFreq) (readFreqs st start count) := by
  induction count generalizing start with
  | zero => exact faultsWithin_ok _
  | succ count ih =>
    exact (memRead_faultsWithin st (by omega) .unwrittenFreq).bind fun f _ =>
      (ih (by omega)).bind fun fs _ => faultsWithin_ok _

theorem buildResult_faultsWithin (x : Inputs) :
    FaultsWithin (UnwrittenBelow x.freq 256 .unwrittenFreq) (buildResult x) := by
  refine (readFreqs_faultsWithin x.freq (by decide)).bind fun fs _ => FaultsWithin.bind ?_ fun t _ => faultsWithin_ok _
  unfold buildTree
  split
  · exact faultsWithin_raise ..
  · split
    · exact faultsWithin_raise ..
    · exact faultsWithin_ok _

/-- The walk of GENCODE never leaves a tree, and without one there is no walk (R154). -/
theorem gencodeResult_faultsWithin {x : Inputs} (htree : x.treeValid = true → ∃ n, Walkable x n) :
    FaultsWithin (fun _ => False) (gencodeResult x) := by
  cases hvalid : x.treeValid with
  | true =>
    obtain ⟨n, hwalk⟩ := htree hvalid
    obtain ⟨table, hresult, -⟩ := hwalk.gencodeResult_ok
    rw [hresult]
    exact faultsWithin_ok table
  | false =>
    rw [gencodeResult, if_neg (by simp [hvalid])]
    exact faultsWithin_raise ..

/-! ### ENCODE -/

/-- With a record for every symbol, the pass can only stop at an element of MSG. -/
theorem encodeScan_faultsWithin {p : Params} {x : Inputs}
    (hcodes : ∀ c : Byte, ∃ code, Store.read x.code c.toNat = some code) {size count i acc : Nat}
    (hsize : i + count ≤ size) :
    FaultsWithin (UnwrittenBelow x.msg size .unwrittenMsg) (encodeScan p x count i acc) := by
  induction count generalizing i acc with
  | zero => exact faultsWithin_ok _
  | succ count ih =>
    refine (memRead_faultsWithin x.msg (by omega) .unwrittenMsg).bind fun c _ => ?_
    obtain ⟨code, hcode⟩ := hcodes c
    rw [memRead_of_read hcode, Stop.bind_ok]
    split
    · exact faultsWithin_raise ..
    · split
      · exact faultsWithin_raise ..
      · exact (ih (by omega)).bind fun rest _ => faultsWithin_ok _

theorem encodeResult_faultsWithin {p : Params} {x : Inputs}
    (hcodes : x.codesValid = true → ∀ c : Byte, ∃ code, Store.read x.code c.toNat = some code) :
    FaultsWithin (UnwrittenBelow x.msg x.msgLen.toNat .unwrittenMsg) (encodeResult p x) := by
  unfold encodeResult
  split
  · exact faultsWithin_raise ..
  · rename_i hvalid
    split
    · exact faultsWithin_raise ..
    · split
      · exact faultsWithin_raise ..
      · exact (encodeScan_faultsWithin (hcodes (Bool.eq_true_of_not_eq_false hvalid)) (Nat.zero_add _).le).bind
          fun codes _ => faultsWithin_ok _

/-! ### DECODE -/

theorem nextNode_faultsWithin {allowed : Fault → Prop} (nd : Node) (cur i : Nat) (b : Byte) :
    FaultsWithin allowed (nextNode nd cur i b) := by
  unfold nextNode
  split
  · split
    · exact faultsWithin_raise ..
    · exact faultsWithin_ok _
  · exact faultsWithin_ok _

/-- A branch from a node of the tree leads to a node of the tree (R193, R194). -/
theorem TreeShape.nextNode_lt {look : Nat → Option Node} {n cur i nxt : Nat} (h : TreeShape look n)
    (hcur : cur < 2 * n - 1) {nd : Node} (hnd : look cur = some nd) {b : Byte} (hnext : nextNode nd cur i b = .ok nxt) :
    nxt < 2 * n - 1 := by
  rw [nextNode] at hnext
  split at hnext
  · split at hnext
    · exact absurd hnext raise_ne_ok
    · obtain rfl := Except.ok.inj hnext
      exact hcur
  · rename_i hleaf
    have hchild : IsParent look cur nxt := by
      refine ⟨nd, hnd, by simpa using hleaf, ?_⟩
      obtain rfl := Except.ok.inj hnext
      split
      · exact .inl rfl
      · exact .inr rfl
    exact (h.isParent_bounds hcur hchild).2.trans hcur

/-- The loop of DECODE never leaves the tree, so it can only stop at an element of BITS. -/
theorem Walkable.decodeLoop_faultsWithin {p : Params} {x : Inputs} {n : Nat} (h : Walkable x n)
    {size count i cur : Nat} {out : List Byte} (hsize : i + count ≤ size) (hcur : cur < 2 * n - 1) :
    FaultsWithin (UnwrittenBelow x.bits size .unwrittenBits) (decodeLoop p x count i cur out) := by
  induction count generalizing i cur out with
  | zero =>
    rw [decodeLoop]
    split
    · exact faultsWithin_ok _
    · exact faultsWithin_raise ..
  | succ count ih =>
    rw [decodeLoop]
    refine (memRead_faultsWithin x.bits (by omega) .unwrittenBits).bind fun b _ => ?_
    split
    · exact faultsWithin_raise ..
    · obtain ⟨nd, hnd⟩ := h.shape.exists_node hcur
      rw [memRead_of_read hnd, Stop.bind_ok]
      refine (nextNode_faultsWithin nd cur i b).bind fun nxt hnext => ?_
      have hnxt : nxt < 2 * n - 1 := h.shape.nextNode_lt hcur hnd hnext
      obtain ⟨nd', hnd'⟩ := h.shape.exists_node hnxt
      rw [memRead_of_read hnd', Stop.bind_ok]
      split
      · split
        · exact faultsWithin_raise ..
        · have hcount := h.shape.count
          exact ih (by omega) (by rw [h.root]; omega)
      · exact ih (by omega) hnxt

theorem decodeResult_faultsWithin {p : Params} {x : Inputs} (htree : x.treeValid = true → ∃ n, Walkable x n) :
    FaultsWithin (UnwrittenBelow x.bits x.bitLen.toNat .unwrittenBits) (decodeResult p x) := by
  unfold decodeResult
  split
  · exact faultsWithin_raise ..
  · rename_i hvalid
    split
    · exact faultsWithin_raise ..
    · obtain ⟨n, hwalk⟩ := htree (Bool.eq_true_of_not_eq_false hvalid)
      have hcount := hwalk.shape.count
      exact hwalk.decodeLoop_faultsWithin (Nat.zero_add _).le (by rw [hwalk.root]; omega)

/-! ### Completions -/

/-- A completion that faults is that of a command whose computation has no defined result. -/
theorem exec_fault {i : Instr} {s : State} {f : Fault} (h : exec i s = .fault f) :
    (i = .build ∧ buildResult s.inputs = .error (.undefined f)) ∨
    (i = .gencode ∧ gencodeResult s.inputs = .error (.undefined f)) ∨
    (i = .encode ∧ encodeResult s.params s.inputs = .error (.undefined f)) ∨
    (i = .decode ∧ decodeResult s.params s.inputs = .error (.undefined f)) := by
  cases i with
  | nop => cases h
  | clear => cases h
  | illegal w => cases h
  | build => exact .inl ⟨rfl, State.finish_fault h⟩
  | gencode => exact .inr (.inl ⟨rfl, State.finish_fault h⟩)
  | encode => exact .inr (.inr (.inl ⟨rfl, State.finish_fault h⟩))
  | decode => exact .inr (.inr (.inr ⟨rfl, State.finish_fault h⟩))

/-- With TREE_VALID = 1 the commands have a tree to walk (R130). -/
theorem Inv.walkable {s : State} (h : Inv s) (hvalid : s.treeValid = true) : ∃ n, Walkable s.currentInputs n := by
  have htree := h.tree
  rw [TreeInv, if_pos hvalid] at htree
  obtain ⟨n, hshape, -, -, hroot⟩ := htree
  exact ⟨n, hvalid, hshape, hroot⟩

/-- With CODES_VALID = 1 every symbol has its record (R153). -/
theorem Inv.read_code {s : State} (h : Inv s) (hvalid : s.codesValid = true) (c : Byte) :
    ∃ code, Store.read s.mem.code c.toNat = some code := by
  obtain ⟨code, hread, -⟩ := (h.codes hvalid).2 c
  exact ⟨code, hread⟩

/-- Settles O58: a completion answers a next state or faults, and the fault of each command's computation is at an
element that nothing has written, because the snapshot is the state as it stands. -/
theorem completionUnderTheInvariant : Obligations.CompletionUnderTheInvariant := by
  intro i s x hinv hbusy
  have hinputs : s.inputs = s.currentInputs := (State.inputs_busy hbusy).trans (hinv.phase i x hbusy).1
  cases hexec : exec i s with
  | next t => exact .inl ⟨t, rfl, exec_idle_done hexec⟩
  | refused q => exact absurd hexec exec_not_refused
  | fault f =>
    have hfault := exec_fault hexec
    rw [hinputs] at hfault
    rcases hfault with ⟨rfl, hf⟩ | ⟨-, hf⟩ | ⟨rfl, hf⟩ | ⟨rfl, hf⟩
    · obtain ⟨k, hk, hnone, rfl⟩ := (buildResult_faultsWithin _).allowed f hf
      exact .inr (.inl ⟨rfl, k, hk, hnone, rfl⟩)
    · exact ((gencodeResult_faultsWithin hinv.walkable).allowed f hf).elim
    · obtain ⟨k, hk, hnone, rfl⟩ := (encodeResult_faultsWithin hinv.read_code).allowed f hf
      exact .inr (.inr (.inl ⟨rfl, k, hk, hnone, rfl⟩))
    · obtain ⟨k, hk, hnone, rfl⟩ := (decodeResult_faultsWithin hinv.walkable).allowed f hf
      exact .inr (.inr (.inr ⟨rfl, k, hk, hnone, rfl⟩))

end Sys2Proof.Machine
end

section
/-! Reset (R270 to R274): what the host reads right after an edge with `rst` = 1, and the invariant in the reset state. -/

namespace Sys2Proof.Machine

/-- After a reset BUSY and every flag are 0 (R274). -/
theorem State.statusWord_resetEdge (s : State) : s.resetEdge.statusWord = 0#32 := by
  have hflags : s.resetEdge.statusWord = State.reset.statusWord := rfl
  rw [hflags]
  decide

/-- Settles O53: the registers and windows as O42, O47 and O48 say that they read, over the state that the edge leaves. -/
theorem resetEdge : Obligations.ResetEdge := by
  intro s hrst
  obtain ⟨⟨hid, hversion, hmsgDepth, hbitDepth, -, hirqEn⟩, hregs⟩ := registersRead s.resetEdge
  obtain ⟨herrCode, herrPos, herrInfo, hmsgLen, hbitLen, hdecLen, hroot, hnodeCount, hleafCount⟩ := hregs rfl
  have hirq : s.resetEdge.irq = false := State.irq_of_not_done rfl
  have hstatus : s.resetEdge.hostRead addrSTATUS = 0#32 := by
    rw [State.hostRead_status, State.statusWord_resetEdge]
  exact ⟨s.resetEdge, step_of_rst hrst, rfl, rfl, rfl, rfl, rfl, hirq, hid, hversion, hmsgDepth, hbitDepth,
    hstatus, BitVec.eq_of_toNat_eq herrCode, herrPos, herrInfo, hirqEn, hmsgLen, hbitLen, hdecLen,
    BitVec.eq_of_toNat_eq hroot, BitVec.eq_of_toNat_eq hnodeCount, BitVec.eq_of_toNat_eq hleafCount,
    fun i hi => (nodeWindow s.resetEdge i rfl hi).2 (Nat.zero_le i), fun c => (codeWindow s.resetEdge c rfl).2 rfl⟩

/-- Settles O54: a reset edge comes to the invariant, and from the reset state it changes only the number of resets, of
which the invariant says nothing. -/
theorem invariantAtReset : Obligations.InvariantAtReset := by
  obtain ⟨hparams, hmem, htree, hcodes, hphase, herr, hdec, hhost⟩ := Inv.of_resetEdge (s := State.reset) (by decide)
  exact ⟨hparams, hmem, htree, hcodes, hphase, herr, hdec, hhost⟩

end Sys2Proof.Machine
end

section
/-! The end of a run (R285): the edge that performs the last access in IDLE, or the completion if a command still runs;
and no edge after it changes the result. -/

namespace Sys2Proof.Machine

/-- One step ends the run if the program has ended after it and had not before. -/
theorem EndsAfter.of_step {s t : State} (hstep : step s = .next t) (ht : t.ended) (hs : ¬ s.ended) :
    EndsAfter 1 s t := by
  refine ⟨run_next hstep, ht, fun j u hj hu => ?_⟩
  obtain rfl : j = 0 := Nat.lt_one_iff.mp hj
  obtain rfl : s = u := Host.Outcome.next.inj hu
  exact hs

/-- A request that waits puts the end of the run off. -/
theorem State.not_ended_of_outstanding {s : State} {acc : Access} (h : s.outstanding = some acc) : ¬ s.ended :=
  fun ⟨_, hnone, _⟩ => by simp [h] at hnone

/-- A write in IDLE to another address than CMD starts no command (R71). -/
theorem State.hostWrite_keeps_idle {s : State} (h : s.phase = .idle) {a : Addr} (ha : a ≠ addrCMD) (v : Word) :
    (s.hostWrite a v).phase = .idle := by
  rw [State.hostWrite_idle h]
  cases hregion : region s.params a with
  | cmd => exact absurd (region_eq_cmd hregion) ha
  | status => rw [State.writeRegion, State.writeStatus_eq]; exact h
  | _ => exact h

/-- The edge of the last `ack` ends the run if it leaves the block idle; `u` is the state whose block it leaves. -/
theorem EndsAfter.of_last_ack {s t u : State} {acc : Access} (hreq : s.outstanding = some acc)
    (hstep : step s = .next t) (hack : t.bus.ack = true) (hleft : NoAccessLeft t.program) (hblock : t.block = u.block)
    (hidle : u.phase = .idle) : EndsAfter 1 s t ∧ ∀ b, t.result b = u.hostRead b := by
  have hnone : t.outstanding = none := by rw [State.outstanding, hack]; rfl
  have hphase : t.phase = u.phase := (congrArg State.phase hblock :)
  exact ⟨.of_step hstep ⟨hleft, hnone, hphase.trans hidle⟩ (State.not_ended_of_outstanding hreq),
    State.hostRead_of_block hblock hidle⟩

/-- A line that is left without an access, and is no reset, either ends on an edge or stays: a WAITIRQ that passes, or that
waits on. -/
theorem State.issue_of_noAccessLeft {s : State} (hleft : NoAccessLeft s.program)
    (hreset : ∀ k, HostOp.reset k ∉ s.program) : ∃ ops, ops ⊆ s.program ∧ s.issue = { s with program := ops } := by
  cases hprog : s.program with
  | nil => exact ⟨[], List.Subset.refl _, by rw [State.issue_nil hprog, ← hprog]⟩
  | cons op rest =>
    have hmem : op ∈ s.program := by rw [hprog]; exact List.mem_cons_self
    cases op with
    | waitIrq =>
      refine ⟨if s.irq then rest else s.program, ?_, State.issue_waitIrq hprog⟩
      split
      · exact List.subset_cons_self _ _
      · rw [hprog]; exact List.Subset.refl _
    | reset k => exact absurd hmem (hreset k)
    | write _ _ | read _ | poll _ _ _ => exact absurd (hleft _ hmem) (by simp)

/-- Settles O60: the last `ack` in IDLE leaves the block of the state read or written, the completion leaves the ports and
the program alone, and what an edge does after the end is the beginning of a line without an access. -/
theorem endOfARun : Obligations.EndOfARun := by
  refine ⟨fun s a v rest hidle hrst hack hleft => ⟨fun hreq hprog => ?_, fun hreq hprog ha => ?_⟩,
    fun s t op x hbusy hrst hdue hnone hleft hexec => ?_, fun s hended hrst hreset => ?_⟩
  · obtain ⟨t, hstep, ht, -⟩ := (accessTakesEffectAtAck s hrst (.inl hidle) hack).2 a hreq
    have hrest : t.program = rest := by rw [ht, hprog]; rfl
    have ⟨hend, hresult⟩ := EndsAfter.of_last_ack (u := s) hreq hstep (by rw [ht]) (by rwa [hrest])
      (congrArg State.block ht :) hidle
    exact ⟨t, hend, hrest, hresult⟩
  · obtain ⟨t, hstep, ht, -⟩ := (accessTakesEffectAtAck s hrst (.inl hidle) hack).1 a v hreq
    have hrest : t.program = rest := by rw [ht, hprog]; rfl
    have ⟨hend, hresult⟩ := EndsAfter.of_last_ack (u := s.hostWrite a v) hreq hstep (by rw [ht]) (by rwa [hrest])
      (congrArg State.block ht :) (State.hostWrite_keeps_idle hidle ha v)
    exact ⟨t, hend, hrest, hresult⟩
  · obtain ⟨hidle, -, -, -, -, -, -, hbus, hprog, -⟩ := commandFrame op s.quiet t hexec
    have hwaits : t.outstanding = none := by rw [State.outstanding, hbus]; exact hnone
    have hend : t.ended := ⟨by rw [hprog]; exact hleft, hwaits, hidle⟩
    exact ⟨.of_step ((step_of_due hrst hbusy hdue).trans hexec) hend fun ⟨_, _, hidle⟩ => by simp [hbusy] at hidle,
      hprog⟩
  · obtain ⟨hleft, hnone, hidle⟩ := hended
    obtain ⟨l, hstep⟩ := step_issue (.inl hidle) hrst hnone
    obtain ⟨ops, hsub, hissue⟩ := State.issue_of_noAccessLeft (s := s.unrequested l) hleft hreset
    rw [hissue] at hstep
    exact ⟨_, hstep, ⟨fun op hop => hleft op (hsub hop), rfl, hidle⟩, rfl, fun k hk => hreset k (hsub hk),
      State.hostRead_of_block (by rfl) hidle⟩

end Sys2Proof.Machine
end

section
/-! The first element that nothing has written stops BUILD, ENCODE and DECODE (U1, D36). -/

namespace Sys2Proof.Machine

/-- A completion that reads an element to which the spec gives no value ends the run (U1). -/
theorem State.finish_of_undefined {α : Type} {s : State} {f : Fault} {r : Except Stop α} {commit : α → State → State}
    (h : r = .error (.undefined f)) : s.finish r commit = .fault f := by
  rw [h]
  rfl

/-- The reads of BUILD come to the first entry that nothing has written, and stop there (R120). -/
theorem readFreqs_unwritten {st : Store Word} {start count k : Nat} (hk : k < count)
    (hnone : Store.read st (start + k) = none) (hbelow : ∀ j, j < k → Store.read st (start + j) ≠ none) :
    readFreqs st start count = .error (.undefined (.unwrittenFreq (start + k))) := by
  induction count generalizing start k with
  | zero => exact absurd hk k.not_lt_zero
  | succ count ih =>
    rw [readFreqs]
    cases k with
    | zero => rw [memRead_of_none (by rwa [Nat.add_zero] at hnone), Stop.bind_error, Nat.add_zero start]
    | succ k =>
      obtain ⟨f, hf⟩ : ∃ f, Store.read st start = some f := Option.ne_none_iff_exists'.mp (hbelow 0 k.succ_pos)
      have hnext (j : Nat) : start + (j + 1) = start + 1 + j := by omega
      have hrest : readFreqs st (start + 1) count = .error (.undefined (.unwrittenFreq (start + 1 + k))) :=
        ih (Nat.lt_of_succ_lt_succ hk) (hnext k ▸ hnone) fun j hj => hnext j ▸ hbelow (j + 1) (Nat.succ_lt_succ hj)
      rw [memRead_of_read hf, Stop.bind_ok, hrest, Stop.bind_error, hnext k]

theorem buildResult_unwritten {x : Inputs} {k : Nat} (hk : k < 256) (hnone : Store.read x.freq k = none)
    (hbelow : ∀ j, j < k → Store.read x.freq j ≠ none) :
    buildResult x = .error (.undefined (.unwrittenFreq k)) := by
  have hread : readFreqs x.freq 0 Config.nsym = .error (.undefined (.unwrittenFreq (0 + k))) :=
    readFreqs_unwritten hk (by rwa [Nat.zero_add]) fun j hj => by rw [Nat.zero_add]; exact hbelow j hj
  rw [buildResult, hread, Stop.bind_error, Nat.zero_add]

/-- The pass reads the symbol after `m` before it looks for a code (R170). -/
theorem EncodeAt.encodeResult_unwritten {p : Params} {x : Inputs} {m : List Byte} {codes : List (List Bool)}
    (h : EncodeAt p x m codes) (hlt : m.length < x.msgLen.toNat) (hnone : Store.read x.msg m.length = none) :
    encodeResult p x = .error (.undefined (.unwrittenMsg m.length)) := by
  obtain ⟨count, hlen⟩ := Nat.exists_eq_add_of_lt hlt
  rw [h.encodeResult_eq (count := count + 1) hlen (by omega), encodeScan, memRead_of_none hnone, Stop.bind_error,
    Stop.bind_error]

/-- The loop reads the next cell before it looks at a node, wherever the walk stands (R190). -/
theorem DecodeAt.decodeResult_unwritten {p : Params} {x : Inputs} {syms : List Byte} {read path : List Bool}
    (h : DecodeAt p x syms read path) (hlt : (read ++ path).length < x.bitLen.toNat)
    (hnone : Store.read x.bits (read ++ path).length = none) :
    decodeResult p x = .error (.undefined (.unwrittenBits (read ++ path).length)) := by
  obtain ⟨count, hlen⟩ := Nat.exists_eq_add_of_lt hlt
  obtain ⟨cur, -, hresult⟩ := h.decodeResult_eq (count := count + 1) hlen
  rw [hresult, decodeLoop, memRead_of_none hnone, Stop.bind_error]

/-- Settles O15: each command reads in the order of its pseudocode, and the first read without a value is its fault. -/
theorem unwrittenInputStops : Obligations.UnwrittenInputStops :=
  ⟨fun _ _ hk hnone hbelow => State.finish_of_undefined (buildResult_unwritten hk hnone hbelow),
    fun _ _ _ h hlt hnone => State.finish_of_undefined (h.encodeResult_unwritten hlt hnone),
    fun _ _ _ _ h hlt hnone => State.finish_of_undefined (h.decodeResult_unwritten hlt hnone)⟩

end Sys2Proof.Machine
end
